-- ==== Sys2Proof/Word.lean ====
section
/-! DEFINITION. The words of the machine: the bit vectors the spec treats as bits. Lengths, indices and
cursors are naturals (spec rules R15, R26, R27). -/

namespace Sys2Proof

/-- A byte of host memory (R33). -/
abbrev Byte := BitVec 8

/-- A 24-bit tag (R84). -/
abbrev Tag := BitVec 24

/-- A 4-byte window of the input (R115). -/
abbrev Window := BitVec 32

/-- The contents of a 32-bit length register (R23) or of `RESULT` (R24). -/
abbrev Word32 := BitVec 32

/-- The index of a hash slot, `0 .. 4095` (R31). -/
abbrev SlotIx := BitVec 12

end Sys2Proof
end

