-- ==== Sys2Proof/Config.lean ====
section
/-! DEFINITION. The parameters of the hardware (00_scope section 4), the record of the parameters a claim may
quantify over, and the free values. -/

namespace Sys2Proof

/-- The configuration: every parameter that section 4 of 00_scope marks *configuration* (R10, R13, R14, R118, R166;
U12, U13, U14). The spec's defaults are `Sys2Proof.Machine.engineConfig` in `Machine/Operands.lean` (log 11, 12, 13). -/
structure Config where
  /-- `ADDR_BITS` (R13): the width of a host address (R22, R33). An address is a natural below `2^ADDR_BITS`. -/
  addrBits : Nat
  /-- `HASH_WINDOW` (R10): how many bytes are hashed, 4 to 8. -/
  hashWindow : Nat
  /-- `HASH` (R118): any total function from the values of the hash window to `0 .. 4095`. -/
  hash : Nat → SlotIx
  /-- The value SEARCH gives to `step` (R162): `1 << STEP_LOG2`. -/
  stepInit : Nat
  /-- The stride of a failed probe as a function of `step` (R166): `step >> STEP_LOG2`. -/
  stride : Nat → Nat
  /-- The numeral of `FAILED` (R14). -/
  failed : Word32
  /-- The numeral of `READ_ERROR` (R14). -/
  readError : Word32
  /-- The numeral of `INVALID_ARGUMENT` (R14). -/
  invalidArgument : Word32

namespace Config

/-- R5: `BLOCK_MAX`. -/
def blockMax : Nat := 4096

/-- R6: `OFF_MAX = mask(12)`. -/
def offMax : Nat := 4095

/-- R6: `NR_MAX = mask(6)`, the literal-length field's escape threshold. -/
def nrMax : Nat := 63

/-- R6: `R_MAX = mask(6)`, the repeat-length field's escape threshold. -/
def rMax : Nat := 63

/-- R7: `REPEAT_MIN`. -/
def repeatMin : Nat := 4

/-- R8: `BYTE_MAX`. -/
def byteMax : Nat := 255

/-- R9: `HASH_LOG2`. -/
def hashLog2 : Nat := 12

/-- R9: `HT_SLOTS`. -/
def htSlots : Nat := 4096

/-- R9: `SCRATCH_BYTES = 2^(HASH_LOG2 + 1)`. -/
def scratchBytes : Nat := 8192

/-- R10: `NEAR_END`. -/
def nearEnd : Nat := 16

/-- R10: `WINDOW`. -/
def window : Nat := 4

/-- R12: `PATTERN_BYTES`. -/
def patternBytes : Nat := 8

/-- R12: `GAIN_FLOOR`. -/
def gainFloor : Nat := 64

/-- R12: `GAIN_SHIFT`, a division by 64. -/
def gainShift : Nat := 6

/-- R12: `IN_LEN_MIN_DEC`. -/
def inLenMinDec : Nat := 5

/-- R14: the numeral of `INCOMPRESSIBLE`, fixed by the source. -/
def incompressibleCode : Word32 := 0#32

/-- What a byte of host memory that nothing has written reads as. DESIGN CHOICE: the spec gives host memory
no contents at reset (R35, R300); unsafe (log 3). -/
def blankByte : Byte := 0#8

/-- FREE VALUE (U1, U2, U3, U11; log 6): the byte at an address of a span of unspecified bytes, by the span's
epoch and the address. Nothing constrains it. -/
opaque freeByte : Nat → Nat → Byte

/-- FREE VALUE (log 9): what `RESULT` holds after a command whose byte count is `2^31` or more and so does not
fit a signed 32-bit register, as a function of the count (the result is a function of the input, R220). Nothing
constrains it. -/
opaque freeResult : Nat → Word32

/-- FREE VALUE (U8; log 14): what the host's read of `RESULT` gives when no command has completed since reset, by the
number of the draw. Nothing constrains it. -/
opaque freeRead : Nat → Word32

end Config

/-- What the spec asks of a configuration: a stride of at least 1 wherever a search can take it ("any schedule with
stride `>= 1` keeps every law", R166), a hash window of 4 to 8 bytes (R10), and three distinct negative statuses
(R14, U13). -/
structure Config.Lawful (c : Config) : Prop where
  stride_pos : ∀ n, c.stepInit ≤ n → 1 ≤ c.stride n
  window_ge : 4 ≤ c.hashWindow
  window_le : c.hashWindow ≤ 8
  failed_neg : c.failed.toInt < 0
  readError_neg : c.readError.toInt < 0
  invalidArgument_neg : c.invalidArgument.toInt < 0
  statuses_distinct : c.failed ≠ c.readError ∧ c.failed ≠ c.invalidArgument ∧ c.readError ≠ c.invalidArgument

end Sys2Proof
end

