-- ==== Sys2Proof/Syntax.lean ====
section
/-! DEFINITION. The instructions: one constructor per row of spec/opcode_table.json (R3, R90, R93, R98).
A token's operands are its offset and its TRUE lengths (escapes already added, R147); its literal bytes are
data in IN, not operands held in the instruction (log 16). -/

namespace Sys2Proof

/-- The units the block executes. -/
inductive Instr where
  /-- EOB (R209): `litLen` literal bytes end the block. `repLen` is the value of the repeat field plus 4; only
  `repLen = 4` (`r_f = 0`) is legal, every other value decodes and is FAILED by R209. -/
  | eob (litLen repLen : Nat)
  /-- REPEAT (R211): copy `repLen` bytes from distance `off`. -/
  | rep (off repLen : Nat)
  /-- TUPLE (R210): `litLen` literal bytes, then `repLen` bytes from distance `off`. -/
  | tuple (off litLen repLen : Nat)
  /-- PATTERN (R216): the 8 bytes of a pattern block. -/
  | pattern (bytes : List Byte)
  /-- ENCODE (R246). -/
  | encodeCmd
  /-- DECODE (R252). -/
  | decodeCmd
  /-- SCRATCH_MIN (R255). -/
  | scratchMin
  deriving DecidableEq, Repr

/-- The three wire forms of an instruction (the `format` column of the opcode table): a command code in `CMD`
(R98), a token of a normal block (R83), a whole 8-byte block (R93). -/
inductive Form where
  | command
  | token
  | block
  deriving DecidableEq, Repr

/-- The wire form an instruction is written in. -/
def Instr.form : Instr → Form
  | .eob _ _ => .token
  | .rep _ _ => .token
  | .tuple _ _ _ => .token
  | .pattern _ => .block
  | .encodeCmd => .command
  | .decodeCmd => .command
  | .scratchMin => .command

end Sys2Proof
end

