-- ==== Sys2Proof/WellFormed.lean ====
section
/-! DEFINITION. Which instruction terms have an encoding (R85 to R89, R93, R140). An `eob` whose `repLen` is not
4 is well-formed here, because its tag exists on the wire (R92); that it is illegal is R209's business. -/

namespace Sys2Proof

/-- The offset of a back-reference: `1 .. 4095` (R88). -/
abbrev offsetOk (off : Nat) : Bool := decide (1 ≤ off) && decide (off ≤ Config.offMax)

/-- The repeat length: at least `REPEAT_MIN` (R87). -/
abbrev repeatOk (repLen : Nat) : Bool := decide (Config.repeatMin ≤ repLen)

/-- The instruction has an encoding. -/
def WellFormed : Instr → Bool
  | .eob _ repLen => repeatOk repLen
  | .rep off repLen => offsetOk off && repeatOk repLen
  | .tuple off litLen repLen => offsetOk off && decide (1 ≤ litLen) && repeatOk repLen
  | .pattern bytes => decide (bytes.length = Config.patternBytes)
  | .encodeCmd => true
  | .decodeCmd => true
  | .scratchMin => true

end Sys2Proof
end

