-- ==== Sys2Proof/Decode.lean ====
section
/-! DEFINITION. The tag codec (41_tag_codec), the decoder from bytes to instructions, and after it the encoder
from the same tables (30_encoding). -/

namespace Sys2Proof

/-! ### The tag (R84, R85) -/

/-- R141 `PackTag`: `off | (r_f << 12) | (nr_f << 18)`. -/
def packTag (off nrF rF : Nat) : Tag :=
  BitVec.ofNat 6 nrF ++ BitVec.ofNat 6 rF ++ BitVec.ofNat 12 off

/-- R142: `off = tag[11:0]`. -/
def tagOff (t : Tag) : Nat := (t.extractLsb' 0 12).toNat

/-- R142: `r_f = tag[17:12]`. -/
def tagRF (t : Tag) : Nat := (t.extractLsb' 12 6).toNat

/-- R142: `nr_f = tag[23:18]`. -/
def tagNrF (t : Tag) : Nat := (t.extractLsb' 18 6).toNat

/-- R84: the tag of three stream bytes, lowest address least significant. -/
def tagOfBytes (b0 b1 b2 : Byte) : Tag := b2 ++ b1 ++ b0

/-- R84, R141: the three stream bytes of a tag. -/
def tagBytes (t : Tag) : List Byte := [t.extractLsb' 0 8, t.extractLsb' 8 8, t.extractLsb' 16 8]

/-! ### Escapes (R89, R113, R143, R144) -/

/-- R113 `size_bytes_count`. -/
def sizeBytesCount (u : Nat) : Nat := u / Config.byteMax + 1

/-- R143 `EscEncode`: `u / 255` bytes `FF`, then the byte `u mod 255`. -/
def escEncode (u : Nat) : List Byte :=
  List.replicate (u / Config.byteMax) (BitVec.ofNat 8 Config.byteMax) ++ [BitVec.ofNat 8 (u % Config.byteMax)]

/-- An escape sequence read from the stream: its value, how many bytes it took, its last byte, what follows. -/
structure Escape where
  value : Nat
  size : Nat
  last : Byte
  rest : List Byte
  deriving DecidableEq, Repr

/-- The loop of R144 with the running total `u` after `n` bytes; `none` is READ_ERROR. -/
def escDecodeFrom (u n : Nat) : List Byte → Option Escape
  | [] => none
  | b :: bs =>
    if b.toNat < Config.byteMax then some ⟨u + b.toNat, n + 1, b, bs⟩
    else escDecodeFrom (u + b.toNat) (n + 1) bs

/-- R144 `EscDecode`. -/
def escDecode (bs : List Byte) : Option Escape := escDecodeFrom 0 0 bs

/-! ### Decoding -/

/-- Why bytes are no instruction of the wanted form. -/
inductive Reject where
  /-- Fewer than 3 bytes where a tag must start (R202; the status is FAILED). -/
  | tagShort
  /-- An escape sequence runs off the end of the input (R204, R205; the status is READ_ERROR). -/
  | escapeUnterminated
  /-- A `CMD` code not in `1, 2, 3` (R256; the status is INVALID_ARGUMENT). -/
  | reservedCommand
  /-- A command is one byte and a pattern block eight (R98, R80); these bytes are not that many. -/
  | wrongLength
  deriving DecidableEq, Repr

/-- What `DecodeFields` (R147) leaves in the working registers of R27, how many bytes the tag and its escapes
took, the last escape byte if one was read, and the bytes after them. -/
structure Fields where
  tag : Tag
  off : Nat
  rF : Nat
  nrF : Nat
  litLen : Nat
  repLen : Nat
  size : Nat
  lastEsc : Option Byte
  rest : List Byte
  deriving DecidableEq, Repr

/-- The value of a field and its escape (R86, R87): the field itself below 63, `63` plus the escape at 63. -/
def fieldValue (f : Nat) (bs : List Byte) : Option Escape :=
  if f = Config.nrMax then (escDecode bs).map (fun e => { e with value := Config.nrMax + e.value })
  else some ⟨f, 0, 0#8, bs⟩

/-- Outcome of reading the fields of a token. -/
inductive FieldsRead where
  | ok (f : Fields)
  | reject (r : Reject)
  deriving DecidableEq, Repr

/-- The last escape byte of a token, when it has one: the repeat escape is read after the literal escape. -/
def lastEscape (lit rp : Escape) : Option Byte :=
  if rp.size = 0 then (if lit.size = 0 then none else some lit.last) else some rp.last

/-- R147 `DecodeFields`, with the bound test of R202 on the tag: tag, literal-length escape, repeat-length
escape, in that order (R83, R206). The repeat escape is read whether or not `off = 0` (R205). -/
def decodeFields : List Byte → FieldsRead
  | b0 :: b1 :: b2 :: bs =>
    let tag := tagOfBytes b0 b1 b2
    match fieldValue (tagNrF tag) bs with
    | none => .reject .escapeUnterminated
    | some lit =>
      match fieldValue (tagRF tag) lit.rest with
      | none => .reject .escapeUnterminated
      | some rp =>
        .ok { tag := tag, off := tagOff tag, rF := tagRF tag, nrF := tagNrF tag, litLen := lit.value,
              repLen := rp.value + Config.repeatMin, size := 3 + lit.size + rp.size,
              lastEsc := lastEscape lit rp, rest := rp.rest }
  | _ => .reject .tagShort

/-- R90: `off = 0` selects EOB; otherwise `nr_f = 0` selects REPEAT; otherwise TUPLE. -/
def Fields.instr (f : Fields) : Instr :=
  if f.off = 0 then .eob f.litLen f.repLen
  else if f.nrF = 0 then .rep f.off f.repLen
  else .tuple f.off f.litLen f.repLen

/-- R98: the command a code of `CMD` selects. -/
def commandOf (code : Byte) : Option Instr :=
  if code = 1#8 then some .encodeCmd
  else if code = 2#8 then some .decodeCmd
  else if code = 3#8 then some .scratchMin
  else none

/-- The decoder's answer: an instruction and the bytes after it, or a rejection by name. -/
inductive Decoded where
  | ok (i : Instr) (rest : List Byte)
  | reject (r : Reject)
  deriving DecidableEq, Repr

/-- The decoder, total on any bytes. A token is read off the front of the bytes that remain of the block (its
literal bytes are the first of `rest`); a pattern block is the whole of its 8 bytes (R80, R93). -/
def decode : Form → List Byte → Decoded
  | .command, [] => .reject .wrongLength
  | .command, code :: rest =>
    match commandOf code with
    | some i => .ok i rest
    | none => .reject .reservedCommand
  | .token, bs =>
    match decodeFields bs with
    | .ok f => .ok f.instr f.rest
    | .reject r => .reject r
  | .block, bs =>
    if bs.length = Config.patternBytes then .ok (.pattern bs) [] else .reject .wrongLength

/-! ### Encoding -/

/-- The field that stores `v` (R86, R87): `v` itself, at most the field's maximum. -/
def fieldOf (v : Nat) : Nat := min v Config.nrMax

/-- The escape bytes of a field that stores `v`: none below 63, `EscEncode(v - 63)` from 63 (R86, R87). -/
def escapeOf (v : Nat) : List Byte :=
  if v < Config.nrMax then [] else escEncode (v - Config.nrMax)

/-- R145 `EncodeToken` up to the literal bytes, by `(off, L, v)` with `v` the stored repeat value `rl - 4`
(0 for an end of block). -/
def encodeFields (off litLen v : Nat) : List Byte :=
  tagBytes (packTag off (fieldOf litLen) (fieldOf v)) ++ escapeOf litLen ++ escapeOf v

/-- The encoder: the bytes of a well-formed instruction (for a token, those before its literal bytes). -/
def encode : Instr → List Byte
  | .eob litLen repLen => encodeFields 0 litLen (repLen - Config.repeatMin)
  | .rep off repLen => encodeFields off 0 (repLen - Config.repeatMin)
  | .tuple off litLen repLen => encodeFields off litLen (repLen - Config.repeatMin)
  | .pattern bytes => bytes
  | .encodeCmd => [1#8]
  | .decodeCmd => [2#8]
  | .scratchMin => [3#8]

/-- R145 `EncodeToken`: a token with its literal bytes. -/
def encodeToken (i : Instr) (lit : List Byte) : List Byte := encode i ++ lit

/-- How many escape bytes a field that stores `v` takes (R91, R146). -/
def escapeCost (v : Nat) : Nat := if v < Config.nrMax then 0 else sizeBytesCount (v - Config.nrMax)

/-- R146 `TokenCost`, by `(L, v)` as in `encodeFields`; it does not depend on the offset's value. -/
def tokenCost (litLen v : Nat) : Nat := 3 + escapeCost litLen + escapeCost v + litLen

/-- How many bytes `encode` gives. -/
def encodedSize : Instr → Nat
  | .eob litLen repLen => 3 + escapeCost litLen + escapeCost (repLen - Config.repeatMin)
  | .rep _ repLen => 3 + escapeCost (repLen - Config.repeatMin)
  | .tuple _ litLen repLen => 3 + escapeCost litLen + escapeCost (repLen - Config.repeatMin)
  | .pattern bytes => bytes.length
  | .encodeCmd => 1
  | .decodeCmd => 1
  | .scratchMin => 1

/-- The literal bytes that follow a token's encoding in the stream (R83). -/
def Instr.literals : Instr → Nat
  | .eob litLen _ => litLen
  | .rep _ _ => 0
  | .tuple _ litLen _ => litLen
  | .pattern _ => 0
  | .encodeCmd => 0
  | .decodeCmd => 0
  | .scratchMin => 0

/-! ### The opcode table's words -/

/-- The first `n` bytes of a word, first byte in bits 7..0 (R84: lowest address least significant). -/
def wordBytes (w : Nat) : Nat → List Byte
  | 0 => []
  | n + 1 => BitVec.ofNat 8 w :: wordBytes (w / 256) n

/-- The wire form of a row of the opcode table, by its width in bits. -/
def tableForm (nbits : Nat) : Option Form :=
  if nbits = 8 then some .command
  else if nbits = 24 then some .token
  else if nbits = 64 then some .block
  else none

/-- The bytes of a table word as they lie in the stream: its own bytes, and for a token two zero bytes for the
escapes its tag may ask for (`00` ends an escape). -/
def tableBytes (nbits w : Nat) : List Byte :=
  wordBytes w (nbits / 8) ++ (if nbits = 24 then [0#8, 0#8] else [])

/-- The instruction the decoder reads from the word `w` of a row of `nbits` bits. -/
def decodeTableWord (nbits w : Nat) : Option Instr :=
  match tableForm nbits with
  | none => none
  | some f =>
    match decode f (tableBytes nbits w) with
    | .ok i _ => some i
    | .reject _ => none

end Sys2Proof
end

