-- ==== Sys2Proof/Machine/State.lean ====
section
/-! DEFINITION. The machine's state as plain data (10_state R20), its reset value (R35), and the reasons a step
can stop. -/

namespace Sys2Proof.Machine

/-! ### Run state -/

/-- The states of the encoder (42_encoder, R177) that lie between two steps. INIT (R161) is performed by the
ENCODE command itself, so no step starts in it. -/
inductive EncState where
  | search
  | probe
  | matching
  | emit
  | advance
  | tail
  | done
  deriving DecidableEq, Repr

/-- `RUN` (R20): IDLE, or BUSY in the body of the running command. -/
inductive Run where
  /-- IDLE. -/
  | idle
  /-- BUSY in ENCODE, in one of the encoder's states. -/
  | encoding (st : EncState)
  /-- BUSY in DECODE on the pattern path (R251, R216). -/
  | pattern
  /-- BUSY in DECODE on the normal path, at FETCH (R202). -/
  | decoding
  deriving DecidableEq, Repr

/-! ### Registers -/

/-- The registers of R20(b) by name. -/
inductive RegName where
  | cmd
  | stateBase
  | inBase
  | inLen
  | outBase
  | outCap
  | softLimit
  | result
  deriving DecidableEq, Repr

/-- The descriptor: the seven registers the host writes and the engine reads (R20 to R25). -/
structure Desc where
  cmd : Byte
  stateBase : Nat
  inBase : Nat
  inLen : Word32
  outBase : Nat
  outCap : Word32
  softLimit : Word32
  deriving DecidableEq, Repr

/-- The encoder's working registers (R26). -/
structure Enc where
  inLen : Nat
  limit : Nat
  o : Nat
  nr0 : Nat
  p : Nat
  step : Nat
  w : Window
  h : SlotIx
  q : Nat
  off : Nat
  s : Nat
  e : Nat
  litLen : Nat
  repLen : Nat
  deriving DecidableEq, Repr

/-- The decoder's working registers (R27); `ip` is the program counter (R28). -/
structure Dec where
  inLen : Nat
  outCap : Nat
  ip : Nat
  op : Nat
  tag : Tag
  off : Nat
  rF : Nat
  nrF : Nat
  litLen : Nat
  repLen : Nat
  b : Byte
  deriving DecidableEq, Repr

/-! ### Memory -/

/-- A range of addresses whose bytes are unspecified (U1, U2, U3, U11): the byte at address `a` of the span is
the free value `Config.freeByte epoch a` (log 6). -/
structure Span where
  base : Nat
  size : Nat
  epoch : Nat
  deriving DecidableEq, Repr

/-- The address lies in the span. -/
abbrev Span.covers (sp : Span) (a : Nat) : Bool := decide (sp.base ≤ a) && decide (a < sp.base + sp.size)

/-- Host memory (R33): the bytes that differ from what an unlisted address reads as, by address, and the spans
of unspecified bytes. An address in neither reads `Config.blankByte` (log 3). -/
structure Memory where
  cells : List Host.Cell
  free : List Span
  deriving DecidableEq, Repr

/-- The canonical form: cells strictly rising and none equal to the blank byte; spans nonempty, in rising order and
not overlapping; and no cell inside a span. Equal memories are equal data. -/
abbrev Memory.wf (m : Memory) : Prop :=
  m.cells.Pairwise (fun a b => a.1 < b.1) ∧
  (∀ c ∈ m.cells, c.2 ≠ Config.blankByte) ∧
  m.free.Pairwise (fun a b => a.base + a.size ≤ b.base) ∧
  (∀ sp ∈ m.free, 0 < sp.size) ∧
  (∀ c ∈ m.cells, ∀ sp ∈ m.free, sp.covers c.1 = false)

/-- Everything the memory lists lies below an address: the end of the address space, `2^ADDR_BITS` (R33). -/
abbrev Memory.below (top : Nat) (m : Memory) : Prop :=
  (∀ c ∈ m.cells, c.1 < top) ∧ (∀ sp ∈ m.free, sp.base + sp.size ≤ top)

/-! ### The host -/

/-- What the host can do (R20, R25, R33, R35, R36, R240). -/
inductive HostMove where
  /-- Write a descriptor register (all its bits, R21 to R23); `RESULT` is read-only (R24). -/
  | writeReg (r : RegName) (v : Nat)
  /-- Read a descriptor register or `RESULT`. -/
  | readReg (r : RegName)
  /-- Write a byte of host memory. -/
  | writeMem (a : Nat) (b : Byte)
  /-- Read a byte of host memory. -/
  | readMem (a : Nat)
  /-- Start the command in `CMD` (R240). -/
  | start
  /-- Reset the engine (R35, R36). -/
  | reset
  deriving DecidableEq, Repr

/-- A coming move of the host. `after` counts the engine steps of a BUSY engine that pass before a move the
host may make while BUSY (log 2); it does not matter while IDLE. -/
structure HostEvent where
  after : Nat
  move : HostMove
  deriving DecidableEq, Repr

/-- What is known of the host's duty to write every descriptor register a command uses before it starts the command, to
read none before it is written, and to read `RESULT` only after a command has completed (R35, R301; U8; log 14, 23). It is the host's, not the engine's: no rule gives the engine
an error latch (R20). -/
structure HostDuty where
  /-- The descriptor registers no host write has reached since reset. -/
  unwritten : List RegName
  /-- The host has started a command that uses an unwritten register, or has read one, or `RESULT` before a command had
  completed. -/
  broken : Bool
  deriving DecidableEq, Repr

/-! ### The state -/

/-- All the state of one engine and its host (R20). `host`, `rdata`, `duty`, `freeCtr` and `resultValid` are the
model's own (log 2, 15, 23, 6, 14). -/
structure State where
  /-- `RUN`. -/
  run : Run
  /-- Registers 0 to 6. -/
  desc : Desc
  /-- Register 7, `RESULT`. -/
  result : Word32
  /-- A command has completed since reset, so that `RESULT` has a value (R35). -/
  resultValid : Bool
  /-- The encoder's working registers. -/
  enc : Enc
  /-- The decoder's working registers. -/
  dec : Dec
  /-- Host memory. -/
  mem : Memory
  /-- The host's coming moves, the next first. -/
  host : List HostEvent
  /-- What the host's last read returned. -/
  rdata : Int
  /-- The host's duty to write what a command uses. -/
  duty : HostDuty
  /-- How many free values have been drawn. -/
  freeCtr : Nat
  deriving DecidableEq, Repr

/-- R35 gives the registers no value at reset: these are the model's (log 5). -/
def Desc.reset : Desc :=
  { cmd := 0, stateBase := 0, inBase := 0, inLen := 0, outBase := 0, outCap := 0, softLimit := 0 }

/-- R35 gives the registers no value at reset: these are the model's (log 5). -/
def Enc.reset : Enc :=
  { inLen := 0, limit := 0, o := 0, nr0 := 0, p := 0, step := 0, w := 0, h := 0, q := 0, off := 0, s := 0, e := 0,
    litLen := 0, repLen := 0 }

/-- R35 gives the registers no value at reset: these are the model's (log 5). -/
def Dec.reset : Dec :=
  { inLen := 0, outCap := 0, ip := 0, op := 0, tag := 0, off := 0, rF := 0, nrF := 0, litLen := 0, repLen := 0,
    b := 0 }

/-- After reset no descriptor register has been written (R35). -/
def HostDuty.reset : HostDuty :=
  { unwritten := [.cmd, .stateBase, .inBase, .inLen, .outBase, .outCap, .softLimit], broken := false }

/-- Memory with nothing listed. -/
def Memory.empty : Memory := { cells := [], free := [] }

/-- The machine right after reset (R35, R300): `RUN = IDLE`, nothing started. -/
def State.reset : State :=
  { run := .idle, desc := .reset, result := 0, resultValid := false, enc := .reset, dec := .reset, mem := .empty,
    host := [], rdata := 0, duty := .reset, freeCtr := 0 }

/-! ### How a step can stop -/

/-- The faults: none. The engine has no traps, its failures are statuses in `RESULT` (R270); and what the spec calls a
fault of the host's program (R35, U8) is recorded in `HostDuty`, with a value that nothing constrains (log 14, 23). -/
inductive Fault where
  deriving DecidableEq, Repr

/-- The refusals. -/
inductive Refusal where
  /-- Answered by `exec`'s arm of an instruction that has no meaning yet. Safe: nothing can be proved of it. -/
  | notModelled (mnemonic : String)
  /-- Answered by ENCODE and DECODE when a region the command uses wraps or two of them overlap: such a start
  "has no meaning in this spec: a model refuses it" (R51, U9; log 10). Safe: no claim about it can be proved. -/
  | invalidRegions
  deriving DecidableEq, Repr

end Sys2Proof.Machine
end

