-- ==== Sys2Proof/Machine/Flags.lean ====
section
/-! DEFINITION. The engine has no flags (R30): the only outcome indicator is `RESULT`. Here are the statuses
(R270), their numerals (R14), and how a byte count is put into `RESULT` (R24). -/

namespace Sys2Proof.Machine

/-- The non-success outcomes of a command (R270). -/
inductive Status where
  /-- R271, a normal outcome of ENCODE. -/
  | incompressible
  /-- R273, DECODE only. -/
  | failed
  /-- R274, DECODE only. -/
  | readError
  /-- R272. -/
  | invalidArgument
  deriving DecidableEq, Repr

/-- R14, R270: the numeral of a status; the negative ones are configuration (log 13). -/
def Status.code (cfg : Config) : Status → Word32
  | .incompressible => Config.incompressibleCode
  | .failed => cfg.failed
  | .readError => cfg.readError
  | .invalidArgument => cfg.invalidArgument

/-- The status of a rejection of the token fetch (R202, R204, R205). The last two do not arise from a token. -/
def rejectStatus : Reject → Status
  | .tagShort => .failed
  | .escapeUnterminated => .readError
  | .reservedCommand => .invalidArgument
  | .wrongLength => .failed

/-- The word `RESULT` gets for a byte count (R24). A count of `2^31` or more does not fit the signed register,
and the spec states no word for it: a free value (log 9). -/
def countWord (n : Nat) : Word32 :=
  if n < 2 ^ 31 then BitVec.ofNat 32 n else Config.freeResult n

end Sys2Proof.Machine
end

