-- ==== Sys2Proof/Machine/Ops.lean ====
section
/-! DEFINITION. The shared operations: memory, regions, the two ways a command ends (`return n` and
`raise <Status>`, R16, R276), unspecified bytes, the host's moves, reset. -/

namespace Sys2Proof.Machine

/-- What an instruction answers. -/
abbrev Out := Host.Outcome State Fault Refusal

/-! ### Memory, one byte -/

/-- The byte listed at an address. -/
def cellAt : List Host.Cell → Nat → Option Byte
  | [], _ => none
  | c :: cs, a => if c.1 = a then some c.2 else cellAt cs a

/-- The span that holds an address. -/
def spanAt : List Span → Nat → Option Span
  | [], _ => none
  | sp :: sps, a => if sp.covers a then some sp else spanAt sps a

/-- The byte at an address (R33, R60): the byte listed, or the free value of the span that holds the address,
or the blank byte. -/
def Memory.read (m : Memory) (a : Nat) : Byte :=
  match cellAt m.cells a with
  | some b => b
  | none =>
    match spanAt m.free a with
    | some sp => Config.freeByte sp.epoch a
    | none => Config.blankByte

/-- Put a cell at its place in the rising list. -/
def insertCell (a : Nat) (b : Byte) : List Host.Cell → List Host.Cell
  | [] => [(a, b)]
  | c :: cs => if a < c.1 then (a, b) :: c :: cs else c :: insertCell a b cs

/-- The cells outside `[lo, hi)`. -/
def dropCells (lo hi : Nat) (cs : List Host.Cell) : List Host.Cell :=
  cs.filter (fun c => decide (c.1 < lo) || decide (hi ≤ c.1))

/-- What is left of a span when `[lo, hi)` is taken out of it. -/
def Span.cut (lo hi : Nat) (sp : Span) : List Span :=
  (if sp.base < lo then [{ sp with size := min sp.size (lo - sp.base) }] else []) ++
  (if hi < sp.base + sp.size then
    [{ sp with base := max sp.base hi, size := sp.base + sp.size - max sp.base hi }] else [])

/-- Take `[lo, hi)` out of every span. -/
def cutSpans (lo hi : Nat) (sps : List Span) : List Span := sps.flatMap (Span.cut lo hi)

/-- Put a span at its place in the rising list. -/
def insertSpan (sp : Span) : List Span → List Span
  | [] => [sp]
  | t :: ts => if sp.base < t.base then sp :: t :: ts else t :: insertSpan sp ts

/-- Write one byte. Writing the blank byte removes the entry, so the form stays canonical. -/
def Memory.write (m : Memory) (a : Nat) (b : Byte) : Memory :=
  { cells := if b = Config.blankByte then dropCells a (a + 1) m.cells
             else insertCell a b (dropCells a (a + 1) m.cells),
    free := cutSpans a (a + 1) m.free }

/-- Write the blank byte to `n` addresses from `lo` (`ZeroTable`, R126). -/
def Memory.clear (m : Memory) (lo n : Nat) : Memory :=
  if n = 0 then m
  else { cells := dropCells lo (lo + n) m.cells, free := cutSpans lo (lo + n) m.free }

/-- Make the `n` bytes from `lo` unspecified, as free values of the given epoch (U1, U2, U3; log 6). -/
def Memory.scramble (m : Memory) (lo n epoch : Nat) : Memory :=
  if n = 0 then m
  else { cells := dropCells lo (lo + n) m.cells,
         free := insertSpan { base := lo, size := n, epoch := epoch } (cutSpans lo (lo + n) m.free) }

/-! ### Memory, several bytes (R52, R121, R122, R124) -/

/-- The `n` bytes from an address, lowest address first. -/
def Memory.readBytes (m : Memory) (a : Nat) : Nat → List Byte
  | 0 => []
  | n + 1 => m.read a :: m.readBytes (a + 1) n

/-- Store bytes from an address on, in rising order. -/
def Memory.writeBytes (m : Memory) (a : Nat) : List Byte → Memory
  | [] => m
  | b :: bs => (m.write a b).writeBytes (a + 1) bs

/-- R52: the little-endian value of bytes, lowest address least significant. -/
def leValue : List Byte → Nat
  | [] => 0
  | b :: bs => b.toNat + 256 * leValue bs

/-- R52: the low `n` bytes of a value, least significant first. -/
def leBytes (v : Nat) : Nat → List Byte
  | 0 => []
  | n + 1 => BitVec.ofNat 8 v :: leBytes (v / 256) n

/-- R52 `MemRead(addr, n)`. -/
def Memory.readLE (m : Memory) (a n : Nat) : Nat := leValue (m.readBytes a n)

/-- R52 `MemWrite(addr, n, v)`. -/
def Memory.writeLE (m : Memory) (a n v : Nat) : Memory := m.writeBytes a (leBytes v n)

/-- Copy `n` bytes one by one in rising order, each read seeing the writes before it (R60, R121, R122). -/
def Memory.copyForward (m : Memory) (src dst : Nat) : Nat → Memory
  | 0 => m
  | n + 1 => (m.write dst (m.read src)).copyForward (src + 1) (dst + 1) n

/-- R124 `Tile`: bytes `i, i+1, .. i+n-1` of the tiled pattern, from `dst` on. -/
def Memory.tile (m : Memory) (dst : Nat) (pat : List Byte) (i : Nat) : Nat → Memory
  | 0 => m
  | n + 1 => (m.write dst (pat.getD (i % Config.patternBytes) 0#8)).tile (dst + 1) pat (i + 1) n

/-! ### Regions (R33, R50, R51) -/

/-- A range of host memory a command names. -/
structure Region where
  base : Nat
  size : Nat
  deriving DecidableEq, Repr

/-- The address lies in the region. -/
abbrev Region.covers (r : Region) (a : Nat) : Bool := decide (r.base ≤ a) && decide (a < r.base + r.size)

/-- R51: the region does not wrap. -/
abbrev Region.fits (cfg : Config) (r : Region) : Bool := decide (r.base + r.size ≤ 2 ^ cfg.addrBits)

/-- R51: the two regions share no address. -/
abbrev Region.disjoint (r t : Region) : Bool := decide (r.base + r.size ≤ t.base) || decide (t.base + t.size ≤ r.base)

/-- R33: IN. -/
def State.inRegion (s : State) : Region := { base := s.desc.inBase, size := s.desc.inLen.toNat }

/-- R33: OUT. -/
def State.outRegion (s : State) : Region := { base := s.desc.outBase, size := s.desc.outCap.toNat }

/-- R33: STATE, 8192 bytes whatever the host supplied (R302). -/
def State.scratchRegion (s : State) : Region := { base := s.desc.stateBase, size := Config.scratchBytes }

/-- R51 for DECODE: IN and OUT fit and are disjoint. -/
def State.decodeRegionsOk (cfg : Config) (s : State) : Bool :=
  s.inRegion.fits cfg && s.outRegion.fits cfg && s.inRegion.disjoint s.outRegion

/-- R51 for ENCODE: IN, OUT and STATE fit and are pairwise disjoint. -/
def State.encodeRegionsOk (cfg : Config) (s : State) : Bool :=
  s.decodeRegionsOk cfg && s.scratchRegion.fits cfg && s.scratchRegion.disjoint s.inRegion &&
  s.scratchRegion.disjoint s.outRegion

/-! ### How a command ends -/

/-- R276 `raise <Status>`: `RESULT` gets the status, `RUN` becomes IDLE, and nothing else happens. It is the
machine's one way to take a failure; there is no return from it (R279). -/
def State.raise (cfg : Config) (s : State) (st : Status) : State :=
  { s with run := .idle, result := st.code cfg, resultValid := true }

/-- R16 `return n`: `RESULT` gets the count (log 9), `RUN` becomes IDLE. -/
def State.finish (s : State) (n : Nat) : State :=
  { s with run := .idle, result := countWord n, resultValid := true }

/-- Make `n` bytes from address `lo` unspecified, with a fresh draw (log 6). -/
def State.scramble (s : State) (lo n : Nat) : State :=
  { s with mem := s.mem.scramble lo n s.freeCtr, freeCtr := s.freeCtr + 1 }

/-- Make `OUT[k .. OUT_CAP-1]` unspecified (U1, U2; log 7). -/
def State.scrambleOut (s : State) (k : Nat) : State :=
  s.scramble (s.desc.outBase + k) (s.desc.outCap.toNat - k)

/-- Make the 8192 bytes of STATE unspecified (U3). -/
def State.scrambleScratch (s : State) : State := s.scramble s.desc.stateBase Config.scratchBytes

/-- End of DECODE with FAILED or READ_ERROR: `raise`, and all of OUT is unspecified (R218, R276; U2). -/
def State.failDecode (cfg : Config) (s : State) (st : Status) : State := (s.scrambleOut 0).raise cfg st

/-- End of the normal path of DECODE with `op` bytes: OUT beyond them is unspecified (R218; U1). -/
def State.finishDecode (s : State) (op : Nat) : State := (s.scrambleOut op).finish op

/-- End of ENCODE with a block of `n` bytes: OUT beyond them and STATE are unspecified (R176, R276; U1, U3). -/
def State.finishEncode (s : State) (n : Nat) : State := ((s.scrambleOut n).scrambleScratch).finish n

/-- End of ENCODE with `return 0` (R271): all of OUT and STATE are unspecified (R176, R276; U2, U3). -/
def State.giveUpEncode (s : State) : State := ((s.scrambleOut 0).scrambleScratch).finish 0

/-! ### The host's moves (R20 to R25, R35, R36, R240; R63) -/

/-- R20: the number of a register. -/
def RegName.number : RegName → Nat
  | .cmd => 0
  | .stateBase => 1
  | .inBase => 2
  | .inLen => 3
  | .outBase => 4
  | .outCap => 5
  | .softLimit => 6
  | .result => 7

/-- R20: the width of a register in bits. -/
def RegName.width (cfg : Config) : RegName → Nat
  | .cmd => 8
  | .stateBase => cfg.addrBits
  | .inBase => cfg.addrBits
  | .inLen => 32
  | .outBase => cfg.addrBits
  | .outCap => 32
  | .softLimit => 32
  | .result => 32

/-- The host's write of a descriptor register: all bits are writable, a wider value loses its upper bits
(R21, R22, R23; log 15). `RESULT` cannot be written (R24). -/
def Desc.write (cfg : Config) (d : Desc) (r : RegName) (v : Nat) : Desc :=
  match r with
  | .cmd => { d with cmd := BitVec.ofNat 8 v }
  | .stateBase => { d with stateBase := v % 2 ^ cfg.addrBits }
  | .inBase => { d with inBase := v % 2 ^ cfg.addrBits }
  | .inLen => { d with inLen := BitVec.ofNat 32 v }
  | .outBase => { d with outBase := v % 2 ^ cfg.addrBits }
  | .outCap => { d with outCap := BitVec.ofNat 32 v }
  | .softLimit => { d with softLimit := BitVec.ofNat 32 v }
  | .result => d

/-- A host write has reached the register (R35, R301; log 23). -/
def HostDuty.mark (d : HostDuty) (r : RegName) : HostDuty :=
  { d with unwritten := d.unwritten.filter (fun r' => decide (r' ≠ r)) }

/-- The descriptor registers a command uses (R20, R22, R23, R301). -/
def registersUsed : Instr → List RegName
  | .encodeCmd => [.cmd, .stateBase, .inBase, .inLen, .outBase, .outCap, .softLimit]
  | .decodeCmd => [.cmd, .inBase, .inLen, .outBase, .outCap]
  | .scratchMin => [.cmd]
  | .eob _ _ => []
  | .rep _ _ => []
  | .tuple _ _ _ => []
  | .pattern _ => []

/-- The check of a start or a read: a command that uses a register the host has not written, and a host read of one,
break the host's duty, which is kept in the state (R35, R301; U8; log 23). The command or the read goes on. -/
def HostDuty.check (d : HostDuty) (used : List RegName) : HostDuty :=
  { d with broken := d.broken || used.any (fun r => d.unwritten.contains r) }

/-- The state with the start of a command checked. -/
def State.checkStart (s : State) (used : List RegName) : State := { s with duty := s.duty.check used }

/-- The value the host reads from a register: unsigned, `RESULT` signed (R16 `zext` and `sext`, R24; log 15). -/
def State.regValue (s : State) (r : RegName) : Int :=
  match r with
  | .cmd => s.desc.cmd.toNat
  | .stateBase => s.desc.stateBase
  | .inBase => s.desc.inBase
  | .inLen => s.desc.inLen.toNat
  | .outBase => s.desc.outBase
  | .outCap => s.desc.outCap.toNat
  | .softLimit => s.desc.softLimit.toNat
  | .result => s.result.toInt

/-- The host's read of a register. A read of `RESULT` when no command has completed since reset breaks the host's duty and
gives any value, a fresh draw (R35, R36; U8, U11; log 14). -/
def State.readReg (s : State) (r : RegName) : State :=
  if r = .result ∧ s.resultValid = false then
    { s with rdata := (Config.freeRead s.freeCtr).toInt, duty := { s.duty with broken := true },
             freeCtr := s.freeCtr + 1 }
  else { s with rdata := s.regValue r, duty := s.duty.check [r] }

/-- The regions of the running command that the host may not write (R63): IN and OUT, and STATE under ENCODE. -/
def State.heldByEngine (s : State) (a : Nat) : Bool :=
  match s.run with
  | .idle => false
  | .encoding _ => s.inRegion.covers a || s.outRegion.covers a || s.scratchRegion.covers a
  | .pattern => s.inRegion.covers a || s.outRegion.covers a
  | .decoding => s.inRegion.covers a || s.outRegion.covers a

/-- The address the host's memory access reaches: `ADDR_BITS` bits of it (R33; log 15). -/
def busAddr (cfg : Config) (a : Nat) : Nat := a % 2 ^ cfg.addrBits

/-- The moves a host may make while BUSY (R25, R36, R63; log 2): reset, and accesses to memory the engine does
not hold; reading IN is "harmless and allowed". It has no other move while BUSY. -/
def HostMove.whileBusy (cfg : Config) (m : HostMove) (s : State) : Bool :=
  match m with
  | .writeReg _ _ => false
  | .readReg _ => false
  | .writeMem a _ => !s.heldByEngine (busAddr cfg a)
  | .readMem a => s.inRegion.covers (busAddr cfg a) || !s.heldByEngine (busAddr cfg a)
  | .start => false
  | .reset => true

/-- Memory after a reset: untouched (R35), but a command abandoned by the reset leaves OUT, and under ENCODE
STATE, unspecified within their bounds (R36, U11; log 17). -/
def State.abandon (s : State) : State :=
  match s.run with
  | .idle => s
  | .encoding _ => (s.scrambleOut 0).scrambleScratch
  | .pattern => s.scrambleOut 0
  | .decoding => s.scrambleOut 0

/-- Reset of the engine (R35, R36): IDLE, every register at its reset value (log 5) and unwritten (log 23), memory as
in `abandon`. The host's own fields stay. -/
def State.resetEngine (s : State) : State :=
  { State.reset with mem := s.abandon.mem, freeCtr := s.abandon.freeCtr, host := s.host, rdata := s.rdata,
                     duty := { HostDuty.reset with broken := s.duty.broken } }

/-- A move of the host other than `start`, which `step` runs as an instruction. -/
def hostAct (cfg : Config) (m : HostMove) (s : State) : Out :=
  match m with
  | .writeReg r v =>
    if r = .result then .next s else .next { s with desc := s.desc.write cfg r v, duty := s.duty.mark r }
  | .readReg r => .next (s.readReg r)
  | .writeMem a b => .next { s with mem := s.mem.write (busAddr cfg a) b }
  | .readMem a => .next { s with rdata := (s.mem.read (busAddr cfg a)).toNat }
  | .start => .next s
  | .reset => .next s.resetEngine

/-- What happens next: the host makes its next move, or a BUSY engine takes a step. -/
inductive Turn where
  /-- Nobody moves: the engine is IDLE and the host has no move (R35). -/
  | rest
  /-- The host makes the move; `rest` are the moves after it. -/
  | host (m : HostMove) (rest : List HostEvent)
  /-- The engine takes a step; `queue` is the host's list with the step counted. -/
  | engine (queue : List HostEvent)
  deriving DecidableEq, Repr

/-- Whose turn it is (R240: the host waits for the command to end; log 2). -/
def State.turn (cfg : Config) (s : State) : Turn :=
  match s.host with
  | [] => if s.run = .idle then .rest else .engine []
  | ev :: rest =>
    if s.run = .idle then .host ev.move rest
    else if ev.move.whileBusy cfg s then
      (if ev.after = 0 then .host ev.move rest else .engine ({ ev with after := ev.after - 1 } :: rest))
    else .engine (ev :: rest)

end Sys2Proof.Machine
end

