-- ==== Sys2Proof/Machine/Operands.lean ====
section
/-! DEFINITION. Operand forms: the buffers by index (R16), hash slots (R56), windows and the hash (R115, R117,
R118), match extension (R119, R120), copies within the buffers (R121, R122), the effective limit (R244), and the
token fetch (R202, R203). -/

namespace Sys2Proof.Machine

/-! ### Buffers -/

/-- The host address of `IN[i]`. -/
def State.inAddr (s : State) (i : Nat) : Nat := s.desc.inBase + i

/-- The host address of `OUT[i]`. -/
def State.outAddr (s : State) (i : Nat) : Nat := s.desc.outBase + i

/-- R56: the host address of slot `k`. -/
def State.slotAddr (s : State) (k : SlotIx) : Nat := s.desc.stateBase + 2 * k.toNat

/-- `IN[i]` (R16). -/
def State.inByte (s : State) (i : Nat) : Byte := s.mem.read (s.inAddr i)

/-- `OUT[i]` (R16). -/
def State.outByte (s : State) (i : Nat) : Byte := s.mem.read (s.outAddr i)

/-- `HT[k]` (R56): two bytes, little-endian. -/
def State.slot (s : State) (k : SlotIx) : Nat := s.mem.readLE (s.slotAddr k) 2

/-- Memory after `HT[k] <- v` (R56). -/
def State.withSlot (s : State) (k : SlotIx) (v : Nat) : Memory := s.mem.writeLE (s.slotAddr k) 2 v

/-! ### Windows and the hash -/

/-- R115 `Read4(i)`. -/
def State.read4 (s : State) (i : Nat) : Window := BitVec.ofNat 32 (s.mem.readLE (s.inAddr i) 4)

/-- R117 `Equal4(a, b)`. -/
def State.equal4 (s : State) (a b : Nat) : Bool := decide (s.read4 a = s.read4 b)

/-- R118 `HASH`: the top 12 bits of the low 32 bits of `w * 2654435761`. PRESUMED by the spec (its G1); a
parameter (log 12). -/
def hash32 (w : Window) : SlotIx := (w * 0x9E3779B1#32).extractLsb' 20 12

/-- R10, R166: `STEP_LOG2` (a parameter, log 12). -/
def stepLog2 : Nat := 5

/-- The configuration of this engine: the spec's defaults (R10, R13, R14, R118, R162, R166; log 11, 12, 13). -/
def engineConfig : Config :=
  { addrBits := 64, hashWindow := 4, hash := fun v => hash32 (BitVec.ofNat 32 v), stepInit := 2 ^ stepLog2,
    stride := fun step => step / 2 ^ stepLog2, failed := BitVec.ofInt 32 (-1), readError := BitVec.ofInt 32 (-2),
    invalidArgument := BitVec.ofInt 32 (-3) }

/-- The hash slot of the window at `IN[i]`: `HASH` of its `HASH_WINDOW` bytes (R10, R118). -/
def State.hashAt (cfg : Config) (s : State) (i : Nat) : SlotIx := cfg.hash (s.mem.readLE (s.inAddr i) cfg.hashWindow)

/-! ### Match extension -/

/-- R119: from `j`, the first index at which `IN[j] = IN[j - off]` fails, looking at `n` indices at most. -/
def State.extendFrom (s : State) (off j : Nat) : Nat → Nat
  | 0 => j
  | n + 1 => if s.inByte j = s.inByte (j - off) then s.extendFrom off (j + 1) n else j

/-- R119 `ExtendForward(off, e0)` with the end of the input at `inLen`. -/
def State.extendForward (s : State) (off e0 inLen : Nat) : Nat := s.extendFrom off e0 (inLen - e0)

/-- R120: how many bytes below `a` and below `c` agree, looking at `n` at most. -/
def State.agreeBelow (s : State) (a c : Nat) : Nat → Nat
  | 0 => 0
  | n + 1 => if s.inByte (a - 1) = s.inByte (c - 1) then s.agreeBelow (a - 1) (c - 1) n + 1 else 0

/-- R120 `ExtendBackward(nr0, s0, q0)`: at most `s0 - nr0` and at most `q0`. -/
def State.extendBackward (s : State) (nr0 s0 q0 : Nat) : Nat := s.agreeBelow s0 q0 (min (s0 - nr0) q0)

/-! ### Copies -/

/-- Memory after `CopyLiteral(src, dst, n)` (R121). -/
def State.copyLiteral (s : State) (src dst n : Nat) : Memory := s.mem.copyForward (s.inAddr src) (s.outAddr dst) n

/-- Memory after `CopyRepeat(dst, off, n)` (R122). -/
def State.copyRepeat (s : State) (dst off n : Nat) : Memory :=
  s.mem.copyForward (s.outAddr (dst - off)) (s.outAddr dst) n

/-- Memory after bytes are stored from `OUT[i]` on. -/
def State.withOutBytes (s : State) (i : Nat) (bs : List Byte) : Memory := s.mem.writeBytes (s.outAddr i) bs

/-- `IN[i .. i+n-1]`. -/
def State.inBytes (s : State) (i n : Nat) : List Byte := s.mem.readBytes (s.inAddr i) n

/-! ### Command operands -/

/-- R242 `GAIN_MIN`. -/
def gainMin (inLen outCap : Nat) : Nat := max Config.gainFloor (min inLen outCap / 2 ^ Config.gainShift)

/-- R244: the effective limit. -/
def effectiveLimit (inLen outCap soft : Nat) : Nat := if soft = 0 then min inLen outCap else min soft outCap

/-! ### Fetching from the block -/

/-- R202, R203: the token at `ip`, from the bytes that remain of the block. -/
def State.fetchToken (s : State) : FieldsRead :=
  decodeFields (s.inBytes s.dec.ip (s.dec.inLen - s.dec.ip))

/-- R203: the fetch leaves the fields in the working registers and `ip` after the last escape byte. -/
def Dec.latch (d : Dec) (f : Fields) : Dec :=
  { d with ip := d.ip + f.size, tag := f.tag, off := f.off, rF := f.rF, nrF := f.nrF, litLen := f.litLen,
           repLen := f.repLen, b := f.lastEsc.getD d.b }

/-- R216: the pattern block, the 8 bytes of IN. -/
def State.fetchBlock (s : State) : Instr := .pattern (s.inBytes 0 Config.patternBytes)

end Sys2Proof.Machine
end

