-- ==== Sys2Proof/Machine/Commands.lean ====
section
/-! DEFINITION. The meanings of the host commands (44_commands), for any configuration, and then for this engine's
(`exec…`). -/

namespace Sys2Proof.Machine

/-- R241: the argument checks of ENCODE; all four raise the same status. -/
def State.encodeArgsBad (s : State) : Bool :=
  decide (s.desc.stateBase = 0) || decide (s.desc.inBase = 0) || decide (s.desc.outBase = 0) ||
  decide (s.desc.inLen.toNat = 0) || decide (s.desc.inLen.toNat > Config.blockMax) ||
  decide (s.desc.outCap.toNat ≤ gainMin s.desc.inLen.toNat s.desc.outCap.toNat)

/-- R250: the argument checks of DECODE; all raise the same status. -/
def State.decodeArgsBad (s : State) : Bool :=
  decide (s.desc.inBase = 0) || decide (s.desc.outBase = 0) ||
  decide (s.desc.inLen.toNat = 0) || decide (s.desc.outCap.toNat = 0) ||
  decide (s.desc.inLen.toNat < Config.inLenMinDec)

/-- R160, R161, R244 INIT: the limit, a zeroed table, the header byte, the scan from position 1; then SEARCH. -/
def encInit (s : State) : State :=
  { s with run := .encoding .search,
           mem := (s.mem.clear s.desc.stateBase Config.scratchBytes).write (s.outAddr 0) 0x00#8,
           enc := { s.enc with inLen := s.desc.inLen.toNat,
                               limit := effectiveLimit s.desc.inLen.toNat s.desc.outCap.toNat s.desc.softLimit.toNat,
                               o := 1, nr0 := 0, p := 1 } }

/-- ENCODE (R246): the argument checks (R241), then the encoder from INIT on; its later states are the steps of
`encoderStep` (log 1). A start with invalid regions has no meaning (R51; log 10). -/
def encodeWith (cfg : Config) (s : State) : Out :=
  if s.encodeArgsBad then .next (s.raise cfg .invalidArgument)
  else if s.encodeRegionsOk cfg then .next (encInit s)
  else .refused .invalidRegions

/-- R201, R251: the dispatch on `IN_LEN = 8`, and the start of the normal path. -/
def decInit (s : State) : State :=
  { s with run := if s.desc.inLen.toNat = Config.patternBytes then .pattern else .decoding,
           dec := { s.dec with inLen := s.desc.inLen.toNat, outCap := s.desc.outCap.toNat, ip := 1, op := 0 } }

/-- DECODE (R252): the argument checks (R250), then the dispatch (R251); the block is then walked one token a
step (log 1). A start with invalid regions has no meaning (R51; log 10). -/
def decodeWith (cfg : Config) (s : State) : Out :=
  if s.decodeArgsBad then .next (s.raise cfg .invalidArgument)
  else if s.decodeRegionsOk cfg then .next (decInit s)
  else .refused .invalidRegions

/-- SCRATCH_MIN (R255): `return 8192`. -/
def execScratchMin (s : State) : Out := .next (s.finish Config.scratchBytes)

/-- R256: a start with a reserved code. -/
def reservedCommand (cfg : Config) (s : State) : Out := .next (s.raise cfg .invalidArgument)

/-- ENCODE on this engine. -/
def execEncode (s : State) : Out := encodeWith engineConfig s

/-- DECODE on this engine. -/
def execDecode (s : State) : Out := decodeWith engineConfig s

end Sys2Proof.Machine
end

