-- ==== Sys2Proof/Machine/Tokens.lean ====
section
/-! DEFINITION. The meanings of the token instructions and of the pattern block (43_decoder), for any configuration,
and then for this engine's (`exec…`). On entry the fetch has been done: `ip` is after the token's tag and escapes
(R203). Each ends in a next state. -/

namespace Sys2Proof.Machine

/-- R207, the literal copy of every token kind: `none` when the literals would pass the end of the input or of
the output (both are FAILED). -/
def literalRun (litLen : Nat) (s : State) : Option State :=
  if s.dec.ip + litLen > s.dec.inLen then none
  else if s.dec.op + litLen > s.dec.outCap then none
  else some { s with mem := s.copyLiteral s.dec.ip s.dec.op litLen,
                     dec := { s.dec with ip := s.dec.ip + litLen, op := s.dec.op + litLen } }

/-- R212, R213, the back-reference: `none` when it starts before the output or would pass its end (FAILED). -/
def backReference (off repLen : Nat) (s : State) : Option State :=
  if off > s.dec.op then none
  else if s.dec.op + repLen > s.dec.outCap then none
  else some { s with mem := s.copyRepeat s.dec.op off repLen, dec := { s.dec with op := s.dec.op + repLen } }

/-- R206, R210: literals, then the back-reference, then the next token (R214); FAILED at the first bound that
does not hold. -/
def tokenRun (cfg : Config) (off litLen repLen : Nat) (s : State) : State :=
  match literalRun litLen s with
  | none => s.failDecode cfg .failed
  | some s1 =>
    match backReference off repLen s1 with
    | none => s1.failDecode cfg .failed
    | some s2 => s2

/-- EOB (R209): after the literals, `return op` if `r_f = 0` and the token ends the block, else FAILED. -/
def eobWith (cfg : Config) (litLen repLen : Nat) (s : State) : Out :=
  match literalRun litLen s with
  | none => .next (s.failDecode cfg .failed)
  | some s1 =>
    if fieldOf (repLen - Config.repeatMin) = 0 ∧ s1.dec.ip = s1.dec.inLen then .next (s1.finishDecode s1.dec.op)
    else .next (s1.failDecode cfg .failed)

/-- REPEAT (R211): R207 with `L = 0`, then the back-reference. -/
def repWith (cfg : Config) (off repLen : Nat) (s : State) : Out := .next (tokenRun cfg off 0 repLen s)

/-- TUPLE (R210). -/
def tupleWith (cfg : Config) (off litLen repLen : Nat) (s : State) : Out := .next (tokenRun cfg off litLen repLen s)

/-- PATTERN (R216): tile the 8 bytes over `min(out_cap, 4096)` bytes, and write no other (R218); FAILED when that is
no multiple of 8, and OUT is then unspecified as after every FAILED (R34, R276, R307; U2; log 8). -/
def patternWith (cfg : Config) (bytes : List Byte) (s : State) : Out :=
  let m := min s.dec.outCap Config.blockMax
  if m % Config.patternBytes ≠ 0 then .next (s.failDecode cfg .failed)
  else .next (({ s with mem := s.mem.tile (s.outAddr 0) bytes 0 m } : State).finish m)

/-- EOB on this engine. -/
def execEob (litLen repLen : Nat) (s : State) : Out := eobWith engineConfig litLen repLen s

/-- REPEAT on this engine. -/
def execRep (off repLen : Nat) (s : State) : Out := repWith engineConfig off repLen s

/-- TUPLE on this engine. -/
def execTuple (off litLen repLen : Nat) (s : State) : Out := tupleWith engineConfig off litLen repLen s

/-- PATTERN on this engine. -/
def execPattern (bytes : List Byte) (s : State) : Out := patternWith engineConfig bytes s

end Sys2Proof.Machine
end

