-- ==== Sys2Proof/Machine/Dispatch.lean ====
section
/-! DEFINITION. What each instruction does: one arm per constructor. -/

namespace Sys2Proof.Machine

def exec (i : Instr) (s : State) : Host.Outcome State Fault Refusal :=
  match i with
  | .eob litLen repLen => Sys2Proof.Machine.execEob litLen repLen s
  | .rep off repLen => Sys2Proof.Machine.execRep off repLen s
  | .tuple off litLen repLen => Sys2Proof.Machine.execTuple off litLen repLen s
  | .pattern bytes => Sys2Proof.Machine.execPattern bytes s
  | .encodeCmd => Sys2Proof.Machine.execEncode s
  | .decodeCmd => Sys2Proof.Machine.execDecode s
  | .scratchMin => Sys2Proof.Machine.execScratchMin s

end Sys2Proof.Machine
end

