-- ==== Sys2Proof/Machine/Encoder.lean ====
section
/-! DEFINITION. The states of the encoder (42_encoder): what a BUSY engine does in one step of ENCODE, for any
configuration. -/

namespace Sys2Proof.Machine

/-- R162 SEARCH. -/
def encSearch (cfg : Config) (s : State) : State :=
  { s with run := .encoding .probe, enc := { s.enc with step := cfg.stepInit } }

/-- R164: the probe proper: read the slot, then put `p` in it. -/
def encProbe (cfg : Config) (s : State) : State :=
  let h := s.hashAt cfg s.enc.p
  { s with mem := s.withSlot h s.enc.p, enc := { s.enc with w := s.read4 s.enc.p, h := h, q := s.slot h } }

/-- R163, R164, R165, R166 PROBE: near the end, the tail; else the probe; then a match, or a failed probe that
moves `p` by the stride. -/
def encProbeState (cfg : Config) (s : State) : State :=
  if s.enc.p + Config.nearEnd > s.enc.inLen then { s with run := .encoding .tail }
  else
    let t := encProbe cfg s
    if t.enc.q < t.enc.p ∧ t.equal4 t.enc.q t.enc.p = true then { t with run := .encoding .matching }
    else { t with enc := { t.enc with p := t.enc.p + cfg.stride t.enc.step, step := t.enc.step + 1 } }

/-- R167, R168, R169, R170 MATCH. -/
def encMatch (s : State) : State :=
  let off := s.enc.p - s.enc.q
  let start := s.enc.p - s.extendBackward s.enc.nr0 s.enc.p s.enc.q
  let e := s.extendForward off (s.enc.p + Config.window) s.enc.inLen
  { s with run := .encoding .emit,
           enc := { s.enc with off := off, s := start, e := e, litLen := start - s.enc.nr0, repLen := e - start } }

/-- R171: the token of the match: a REPEAT when there are no literals, else a TUPLE. -/
def matchToken (e : Enc) : Instr :=
  if e.litLen = 0 then .rep e.off e.repLen else .tuple e.off e.litLen e.repLen

/-- R172 EMIT: test the limit, then write the token. -/
def encEmit (s : State) : State :=
  let cost := tokenCost s.enc.litLen (s.enc.repLen - Config.repeatMin)
  if s.enc.o + cost > s.enc.limit then s.giveUpEncode
  else
    { s with run := .encoding .advance,
             mem := s.withOutBytes s.enc.o
               (encodeToken (matchToken s.enc) (s.inBytes s.enc.nr0 s.enc.litLen)),
             enc := { s.enc with o := s.enc.o + cost } }

/-- R173 ADVANCE: insert the match's last position if the next search will probe; go on after the match. -/
def encAdvance (cfg : Config) (s : State) : State :=
  { s with run := .encoding .search,
           mem := if s.enc.e + Config.nearEnd ≤ s.enc.inLen then
                    s.withSlot (s.hashAt cfg (s.enc.e - 1)) (s.enc.e - 1) else s.mem,
           enc := { s.enc with nr0 := s.enc.e, p := s.enc.e } }

/-- R174 TAIL: the EOB token with the last literals. -/
def encTail (s : State) : State :=
  let litLen := s.enc.inLen - s.enc.nr0
  let cost := tokenCost litLen 0
  if s.enc.o + cost > s.enc.limit then s.giveUpEncode
  else
    { s with run := .encoding .done,
             mem := s.withOutBytes s.enc.o
               (encodeToken (.eob litLen Config.repeatMin) (s.inBytes s.enc.nr0 litLen)),
             enc := { s.enc with o := s.enc.o + cost, litLen := litLen } }

/-- R175 DONE: a block of exactly 8 bytes is given up, any other is returned. -/
def encDone (s : State) : State :=
  if s.enc.o = Config.patternBytes then s.giveUpEncode else s.finishEncode s.enc.o

/-- One state of the encoder (R177). -/
def encoderStep (cfg : Config) (st : EncState) (s : State) : State :=
  match st with
  | .search => encSearch cfg s
  | .probe => encProbeState cfg s
  | .matching => encMatch s
  | .emit => encEmit s
  | .advance => encAdvance cfg s
  | .tail => encTail s
  | .done => encDone s

end Sys2Proof.Machine
end

