-- ==== Sys2Proof/Machine/Engine.lean ====
section
/-! DEFINITION. One step of the machine, for any configuration, and how an instruction is placed where the next
step runs it. `Machine/Step.lean` fixes the configuration. -/

namespace Sys2Proof.Machine

/-- What each instruction does, for any configuration. This engine's is `exec` (`exec_eq`, Laws/Exec.lean). -/
def execWith (cfg : Config) (i : Instr) (s : State) : Out :=
  match i with
  | .eob litLen repLen => eobWith cfg litLen repLen s
  | .rep off repLen => repWith cfg off repLen s
  | .tuple off litLen repLen => tupleWith cfg off litLen repLen s
  | .pattern bytes => patternWith cfg bytes s
  | .encodeCmd => encodeWith cfg s
  | .decodeCmd => decodeWith cfg s
  | .scratchMin => execScratchMin s

/-- R240: the start of the command in `CMD` (R21, R98), checked against the registers it uses (R35); a reserved code
by R256. -/
def startCommand (cfg : Config) (s : State) : Out :=
  match decode .command [s.desc.cmd] with
  | .ok i _ => execWith cfg i (s.checkStart (registersUsed i))
  | .reject _ => reservedCommand cfg (s.checkStart [.cmd])

/-- The host's move: a start runs a command, every other move is `hostAct`. -/
def hostStep (cfg : Config) (m : HostMove) (s : State) : Out :=
  match m with
  | .start => startCommand cfg s
  | .writeReg r v => hostAct cfg (.writeReg r v) s
  | .readReg r => hostAct cfg (.readReg r) s
  | .writeMem a b => hostAct cfg (.writeMem a b) s
  | .readMem a => hostAct cfg (.readMem a) s
  | .reset => hostAct cfg .reset s

/-- R202, R203, R206: one token of the normal path. A tag that does not fit is FAILED, an unterminated escape is
READ_ERROR; else the fields are latched and the token runs. -/
def tokenStep (cfg : Config) (s : State) : Out :=
  match s.fetchToken with
  | .ok f => execWith cfg f.instr { s with dec := s.dec.latch f }
  | .reject r => .next (s.failDecode cfg (rejectStatus r))

/-- One step of a BUSY engine. -/
def engineStep (cfg : Config) (s : State) : Out :=
  match s.run with
  | .idle => .next s
  | .encoding st => .next (encoderStep cfg st s)
  | .pattern => execWith cfg s.fetchBlock s
  | .decoding => tokenStep cfg s

/-- One step: whoever's turn it is (log 1, log 2). -/
def stepWith (cfg : Config) (s : State) : Out :=
  match s.turn cfg with
  | .rest => .next s
  | .host m rest => hostStep cfg m { s with host := rest }
  | .engine queue => engineStep cfg { s with host := queue }

/-! ### Placing an instruction (log 19) -/

/-- Where `placeToken` puts a token in IN: not 1, so that the block is never 8 bytes long (R80). -/
def placeIndex : Nat := 9

/-- How many bytes a token takes in the stream with zero bytes for its escapes and literals. -/
def placeSize (w : Nat) : Nat :=
  match decodeFields (tableBytes 24 w) with
  | .ok f => f.size + f.litLen
  | .reject _ => 3

/-- A token of a table row, placed as the last token of a block that DECODE is walking. -/
def placeToken (s : State) (w : Nat) : State :=
  { s with run := .decoding, host := [],
           desc := { s.desc with inLen := BitVec.ofNat 32 (placeIndex + placeSize w) },
           dec := { s.dec with inLen := placeIndex + placeSize w, ip := placeIndex },
           mem := (s.mem.clear (s.inAddr placeIndex) (placeSize w)).writeBytes (s.inAddr placeIndex) (wordBytes w 3) }

/-- A pattern block, placed as the input of a DECODE on the pattern path. -/
def placeBlock (s : State) (w : Nat) : State :=
  { s with run := .pattern, host := [],
           desc := { s.desc with inLen := BitVec.ofNat 32 Config.patternBytes },
           dec := { s.dec with inLen := Config.patternBytes },
           mem := s.mem.writeBytes (s.inAddr 0) (wordBytes w Config.patternBytes) }

/-- A command, placed in `CMD` with its start as the host's next move. -/
def placeCommand (s : State) (w : Nat) : State :=
  { s with run := .idle, desc := { s.desc with cmd := BitVec.ofNat 8 w }, duty := s.duty.mark .cmd,
           host := { after := 0, move := .start } :: s.host }

/-- The instruction of a table row, placed by the row's wire form. -/
def placeWord (s : State) (nbits w : Nat) : State :=
  match tableForm nbits with
  | some .command => placeCommand s w
  | some .token => placeToken s w
  | some .block => placeBlock s w
  | none => s

end Sys2Proof.Machine
end

