-- ==== Sys2Proof/Machine/Step.lean ====
section
/-! DEFINITION. The step of this hardware, and the placing of an instruction for its next step. -/

namespace Sys2Proof.Machine

/-- One step of the machine with the spec's default parameters (log 11, 12, 13). -/
def step (s : State) : Host.Outcome State Fault Refusal := stepWith engineConfig s

/-- `s` with the instruction of an opcode-table row stored where the next step runs it (log 19). -/
def State.withFetchWord (s : State) (nbits w : Nat) : State := placeWord s nbits w

end Sys2Proof.Machine
end

