-- ==== Sys2Proof/Machine/Technique.lean ====
section
/-! DEFINITION. The faster techniques the spec describes beside its byte-by-byte definitions (40_primitives R114,
R116, R119, R123; U15). The machine does not use them: they are unobservable, and claims say that each gives what
the definition gives. -/

namespace Sys2Proof.Machine

/-- R114: the overlapping tag read, 4 bytes from one before the tag, the low byte discarded. -/
def State.readTagOverlapped (s : State) (i : Nat) : Tag := BitVec.ofNat 24 (s.mem.readLE (s.inAddr (i - 1)) 4 / 256)

/-- R116 `Read8(i)`. -/
def State.read8 (s : State) (i : Nat) : BitVec 64 := BitVec.ofNat 64 (s.mem.readLE (s.inAddr i) 8)

/-- How many of the low `n` bits of a number are zero before the first one bit. -/
def trailingZeros : Nat → Nat → Nat
  | 0, _ => 0
  | n + 1, v => if v % 2 = 1 then 0 else trailingZeros n (v / 2) + 1

/-- R119, the technique: 8-byte words while they fit and agree, the trailing zero bytes of the difference at the
first word that does not, single bytes at the end of the input. -/
def State.extendWords (s : State) (off inLen j : Nat) : Nat → Nat
  | 0 => j
  | n + 1 =>
    if j + 8 ≤ inLen then
      (if s.read8 j = s.read8 (j - off) then s.extendWords off inLen (j + 8) n
       else j + trailingZeros 64 (s.read8 j ^^^ s.read8 (j - off)).toNat / 8)
    else s.extendForward off j inLen

/-- R119 by the technique. -/
def State.extendForwardFast (s : State) (off e0 inLen : Nat) : Nat := s.extendWords off inLen e0 (inLen - e0)

/-- R123 `Fill(dst, n)`: memory after `n` copies of `OUT[dst-1]` from `OUT[dst]` on. -/
def State.fill (s : State) (dst n : Nat) : Memory :=
  s.withOutBytes dst (List.replicate n (s.outByte (dst - 1)))

end Sys2Proof.Machine
end

