-- ==== Sys2Proof/Safety.lean ====
section
/-! DEFINITION. The terms claims use: runs of many steps, what a run may touch, and the invariant of the machine
(20_memory R50, R51; 42_encoder R178; 43_decoder R200). -/

namespace Sys2Proof.Machine

/-- `n` steps, stopping at the first fault or refusal. -/
def runWith (cfg : Config) : Nat → State → Out
  | 0, s => .next s
  | n + 1, s =>
    match stepWith cfg s with
    | .next t => runWith cfg n t
    | .fault f => .fault f
    | .refused r => .refused r

/-- `n` steps of this hardware. -/
def runSteps (n : Nat) (s : State) : Out := runWith engineConfig n s

/-- Every byte outside the region reads the same in both states. -/
def sameOutside (r : Region) (s t : State) : Prop := ∀ a, r.covers a = false → t.mem.read a = s.mem.read a

/-- Every byte outside the two regions reads the same in both states. -/
def sameOutside2 (r r' : Region) (s t : State) : Prop :=
  ∀ a, r.covers a = false → r'.covers a = false → t.mem.read a = s.mem.read a

/-- Every byte of memory reads the same in both states. -/
def sameMemory (s t : State) : Prop := ∀ a, t.mem.read a = s.mem.read a

/-- What no engine step changes: the descriptor (R25) and the host's own fields. -/
def sameHostSide (s t : State) : Prop :=
  t.desc = s.desc ∧ t.host = s.host ∧ t.rdata = s.rdata ∧ t.duty = s.duty

/-- `OUT[i .. i+n-1]` as a region of host memory. -/
def State.outPart (s : State) (i n : Nat) : Region := { base := s.outAddr i, size := n }

/-- R178(a): every slot of the hash table holds a position below `b`. -/
def State.tableBelow (s : State) (b : Nat) : Prop := ∀ k : SlotIx, s.slot k < b

/-- What holds in every state of a running ENCODE (R26, R51, R160, R241, R244). -/
def State.encoderBase (cfg : Config) (s : State) : Prop :=
  s.enc.inLen = s.desc.inLen.toNat ∧ 1 ≤ s.enc.inLen ∧ s.enc.inLen ≤ Config.blockMax ∧
  Config.gainFloor < s.desc.outCap.toNat ∧
  s.enc.limit = effectiveLimit s.desc.inLen.toNat s.desc.outCap.toNat s.desc.softLimit.toNat ∧
  1 ≤ s.enc.o ∧ s.enc.o ≤ s.enc.limit ∧ s.enc.limit ≤ s.desc.outCap.toNat ∧ s.enc.nr0 ≤ s.enc.inLen ∧
  (s.enc.nr0 ≠ 0 → 5 ≤ s.enc.o) ∧ s.encodeRegionsOk cfg = true

/-- What holds besides in each state of the encoder (R162 to R178). -/
def State.encoderAt (cfg : Config) (s : State) : EncState → Prop
  | .search =>
    1 ≤ s.enc.p ∧ s.enc.p ≤ s.enc.inLen ∧ (s.enc.p = s.enc.nr0 ∨ (s.enc.nr0 = 0 ∧ s.enc.p = 1)) ∧
    s.tableBelow (min s.enc.p Config.blockMax)
  | .probe =>
    1 ≤ s.enc.p ∧ s.enc.nr0 ≤ s.enc.p ∧ cfg.stepInit ≤ s.enc.step ∧ s.tableBelow (min s.enc.p Config.blockMax)
  | .matching =>
    1 ≤ s.enc.p ∧ s.enc.p + Config.nearEnd ≤ s.enc.inLen ∧ s.enc.nr0 ≤ s.enc.p ∧ s.enc.q < s.enc.p ∧
    s.equal4 s.enc.q s.enc.p = true ∧ s.tableBelow (s.enc.p + 1)
  | .emit =>
    s.enc.p + Config.nearEnd ≤ s.enc.inLen ∧ 1 ≤ s.enc.off ∧ s.enc.off ≤ s.enc.s ∧ s.enc.off ≤ Config.offMax ∧
    s.enc.nr0 ≤ s.enc.s ∧ s.enc.s ≤ s.enc.p ∧ s.enc.p + 4 ≤ s.enc.e ∧ s.enc.e ≤ s.enc.inLen ∧
    s.enc.litLen = s.enc.s - s.enc.nr0 ∧ s.enc.repLen = s.enc.e - s.enc.s ∧
    (∀ j, j < s.enc.e → s.enc.s ≤ j → s.inByte j = s.inByte (j - s.enc.off)) ∧ s.tableBelow (s.enc.p + 1)
  | .advance =>
    s.enc.p + Config.nearEnd ≤ s.enc.inLen ∧ s.enc.p + 4 ≤ s.enc.e ∧ s.enc.e ≤ s.enc.inLen ∧ 5 ≤ s.enc.o ∧
    s.tableBelow (s.enc.p + 1)
  | .tail => True
  | .done => 5 ≤ s.enc.o

/-- What holds while DECODE walks tokens (R27, R28, R51, R200, R250). -/
def State.decoderOk (cfg : Config) (s : State) : Prop :=
  s.dec.inLen = s.desc.inLen.toNat ∧ s.dec.outCap = s.desc.outCap.toNat ∧ Config.inLenMinDec ≤ s.dec.inLen ∧
  s.dec.inLen ≠ Config.patternBytes ∧ 1 ≤ s.dec.outCap ∧ 1 ≤ s.dec.ip ∧ s.dec.ip ≤ s.dec.inLen ∧
  s.dec.op ≤ s.dec.outCap ∧ s.decodeRegionsOk cfg = true

/-- What holds while DECODE is on the pattern path (R216, R251). -/
def State.patternOk (cfg : Config) (s : State) : Prop :=
  s.dec.inLen = s.desc.inLen.toNat ∧ s.dec.outCap = s.desc.outCap.toNat ∧
  s.dec.inLen = Config.patternBytes ∧ 1 ≤ s.dec.outCap ∧ s.decodeRegionsOk cfg = true

/-- What holds of the run state. -/
def State.runOk (cfg : Config) (s : State) : Prop :=
  match s.run with
  | .idle => True
  | .encoding st => s.encoderBase cfg ∧ s.encoderAt cfg st
  | .pattern => s.patternOk cfg
  | .decoding => s.decoderOk cfg

/-- Memory is canonical and inside the address space, and every span of unspecified bytes was drawn before. -/
def State.memoryOk (cfg : Config) (s : State) : Prop :=
  s.mem.wf ∧ s.mem.below (2 ^ cfg.addrBits) ∧ ∀ sp ∈ s.mem.free, sp.epoch < s.freeCtr

/-- The base registers hold addresses (R22: they are `ADDR_BITS` wide). -/
def State.basesOk (cfg : Config) (s : State) : Prop :=
  s.desc.stateBase < 2 ^ cfg.addrBits ∧ s.desc.inBase < 2 ^ cfg.addrBits ∧ s.desc.outBase < 2 ^ cfg.addrBits

/-- The invariant of the machine with the given configuration. -/
def State.Inv (cfg : Config) (s : State) : Prop := s.memoryOk cfg ∧ s.basesOk cfg ∧ s.runOk cfg

/-- R29, with the spec's step schedule: the scan position stays within 127 of the end of the input, because the
step counter is at most 31 above it. -/
def State.scanOk (s : State) : Prop :=
  s.enc.p ≤ s.enc.inLen + 127 ∧ (s.run = .encoding .probe → s.enc.step ≤ 31 + s.enc.p)

end Sys2Proof.Machine
end

