-- ==== Sys2Proof/Certificates/Slice0/Obligations.lean ====
section
/-! DEFINITION. The statements for the provers. Each docstring names the rule of the spec the statement
formalises. "The model's choice" marks a clause that rests on a log entry and not on a rule. -/

open Sys2Proof Sys2Proof.Machine

/-! ## Reset and the host -/

/-- R35: after reset `RUN` is IDLE, and an IDLE engine does nothing until the host moves. -/
def Obligations.IdleEngineWaitsForTheHost : Prop :=
  State.reset.run = .idle ∧
  ∀ (cfg : Config) (s : State), s.run = .idle → s.host = [] → stepWith cfg s = .next s

/-- R35, R36: a reset that comes to its turn makes the engine IDLE with no valid `RESULT`. An IDLE engine's memory
is untouched; a BUSY engine's OUT (and STATE under ENCODE) becomes unspecified within its bounds, every other byte
stays. That STATE stays under DECODE is the model's reading (log 17). -/
def Obligations.ResetAbandonsTheCommand : Prop :=
  ∀ (cfg : Config) (s : State) (rest : List HostEvent), s.turn cfg = .host .reset rest →
    ∃ t, stepWith cfg s = .next t ∧ t.run = .idle ∧ t.resultValid = false ∧ t.host = rest ∧ t.rdata = s.rdata ∧
      (s.run = .idle → sameMemory s t) ∧
      (∀ a, s.outRegion.covers a = false →
        (s.scratchRegion.covers a = false ∨ ∀ st, s.run ≠ .encoding st) → t.mem.read a = s.mem.read a) ∧
      (s.run ≠ .idle → ∀ a, s.outRegion.covers a = true → ∃ epoch, t.mem.read a = Config.freeByte epoch a) ∧
      (∀ st, s.run = .encoding st → ∀ a, s.scratchRegion.covers a = true →
        ∃ epoch, t.mem.read a = Config.freeByte epoch a)

/-- R21, R22, R23: a descriptor register reads back as written, in all its bits (8, `ADDR_BITS` or 32). Writing one
register leaves the other registers, `RESULT` and memory alone. That a wider value loses its upper bits is the model's
choice (log 15), as is the mark that the register has been written (log 23). -/
def Obligations.RegisterReadsBackAsWritten : Prop :=
  ∀ (cfg : Config) (s : State) (r : RegName) (v n m : Nat) (rest : List HostEvent),
    r ≠ .result → s.run = .idle →
    s.host = { after := n, move := .writeReg r v } :: { after := m, move := .readReg r } :: rest →
    ∃ t u, stepWith cfg s = .next t ∧ stepWith cfg t = .next u ∧ u.rdata = (v % 2 ^ r.width cfg : Nat) ∧
      (∀ r', r' ≠ r → t.regValue r' = s.regValue r') ∧ t.result = s.result ∧ t.resultValid = s.resultValid ∧
      t.mem = s.mem ∧ t.run = .idle ∧ t.enc = s.enc ∧ t.dec = s.dec ∧ t.host = s.host.tail ∧
      t.duty = s.duty.mark r ∧ u.desc = t.desc ∧ u.mem = s.mem ∧ u.run = .idle ∧ u.result = s.result ∧
      u.duty = t.duty ∧ u.host = rest

/-- R24: the host cannot write `RESULT`. That such a write is a move of the host that changes nothing at all is the
model's choice (log 15). -/
def Obligations.HostCannotWriteResult : Prop :=
  ∀ (cfg : Config) (s : State) (v n : Nat) (rest : List HostEvent), s.run = .idle →
    s.host = { after := n, move := .writeReg .result v } :: rest → stepWith cfg s = .next { s with host := rest }

/-- R24, R35, U8: a read of `RESULT` before a command has completed since reset is a fault of the host's program, which the
machine records, and gives a value nothing constrains; after one has, it gives `RESULT` by its sign and is no fault. The
record, and that the machine goes on, are the model's choice (log 14, 23). -/
def Obligations.ResultHasAValueAfterACommand : Prop :=
  ∀ (cfg : Config) (s : State) (n : Nat) (rest : List HostEvent), s.run = .idle →
    s.host = { after := n, move := .readReg .result } :: rest →
    ∃ t, stepWith cfg s = .next t ∧ t.run = .idle ∧ t.desc = s.desc ∧ t.result = s.result ∧
      t.resultValid = s.resultValid ∧ t.enc = s.enc ∧ t.dec = s.dec ∧ t.mem = s.mem ∧ t.host = rest ∧
      t.duty.unwritten = s.duty.unwritten ∧
      (s.resultValid = false → t.duty.broken = true ∧ ∃ draw, t.rdata = (Config.freeRead draw).toInt) ∧
      (s.resultValid = true → t.rdata = s.result.toInt ∧
        (t.duty.broken = true ↔ s.duty.broken = true ∨ RegName.result ∈ s.duty.unwritten))

/-- R63: while BUSY the host has no move on OUT and STATE of the running command and no write to IN; its read of IN
comes to its turn. That it has no register access and no start either is the model's reading of R25 and R240
(log 2). -/
def Obligations.HostKeepsOffHeldMemory : Prop :=
  (∀ (cfg : Config) (s : State) (m : HostMove) (rest : List HostEvent), s.run ≠ .idle → s.turn cfg = .host m rest →
    (∀ r v, m ≠ .writeReg r v) ∧ (∀ r, m ≠ .readReg r) ∧ m ≠ .start ∧
    (∀ a b, m = .writeMem a b → s.inRegion.covers (busAddr cfg a) = false ∧
      s.outRegion.covers (busAddr cfg a) = false ∧
      (∀ st, s.run = .encoding st → s.scratchRegion.covers (busAddr cfg a) = false)) ∧
    (∀ a, m = .readMem a → s.inRegion.covers (busAddr cfg a) = false →
      s.outRegion.covers (busAddr cfg a) = false ∧
      (∀ st, s.run = .encoding st → s.scratchRegion.covers (busAddr cfg a) = false))) ∧
  (∀ (cfg : Config) (s : State) (a : Nat) (rest : List HostEvent), s.run ≠ .idle →
    s.inRegion.covers (busAddr cfg a) = true →
    s.host = { after := 0, move := .readMem a } :: rest → s.turn cfg = .host (.readMem a) rest)

/-- R33, R60, R61: what the host writes to a byte of memory it reads back, and no other byte changes. That a wider
address reaches memory by its low `ADDR_BITS` bits is the model's choice (log 15). -/
def Obligations.HostMemoryWriteIsRead : Prop :=
  ∀ (cfg : Config) (s : State) (a : Nat) (b : Byte) (n m : Nat) (rest : List HostEvent), s.run = .idle →
    s.host = { after := n, move := .writeMem a b } :: { after := m, move := .readMem a } :: rest →
    ∃ t u, stepWith cfg s = .next t ∧ stepWith cfg t = .next u ∧ u.rdata = b.toNat ∧
      t.mem.read (a % 2 ^ cfg.addrBits) = b ∧ (∀ x, x ≠ a % 2 ^ cfg.addrBits → t.mem.read x = s.mem.read x) ∧
      u.mem = t.mem ∧ t.desc = s.desc ∧ t.result = s.result ∧ t.duty = s.duty ∧
      t.run = .idle ∧ u.run = .idle ∧ u.desc = s.desc ∧ u.result = s.result ∧ u.duty = s.duty

/-! ## Encoding -/

/-- R95, R148: decoding the encoding of a well-formed instruction gives the instruction back, with every operand at
every value its encoding admits, whatever follows it in the stream. -/
def Obligations.DecodeInvertsEncode : Prop :=
  ∀ (i : Instr) (rest : List Byte), WellFormed i = true → (i.form = .block → rest = []) →
    decode i.form (encode i ++ rest) = .ok i rest

/-- R95: whatever decodes is the encoding of one well-formed instruction: the bytes are determined by the
instruction. -/
def Obligations.EncodeInvertsDecode : Prop :=
  ∀ (f : Form) (bs : List Byte) (i : Instr) (rest : List Byte), decode f bs = .ok i rest →
    i.form = f ∧ WellFormed i = true ∧ bs = encode i ++ rest

/-- Words written out from the spec's tables (95_test_vectors section 2, R98) decode to what they stand for. -/
def Obligations.TableWordsDecode : Prop :=
  decode .token [0x12#8, 0x40#8, 0x08#8] = .ok (.tuple 18 2 8) [] ∧
  decode .token [0x12#8, 0x40#8, 0x00#8] = .ok (.rep 18 8) [] ∧
  decode .token [0x00#8, 0x00#8, 0xFC#8, 0x01#8] = .ok (.eob 64 4) [] ∧
  decode .token [0x49#8, 0xF0#8, 0xFF#8, 0xC1#8, 0x00#8] = .ok (.tuple 73 256 67) [] ∧
  decode .token [0xFF#8, 0x0F#8, 0x00#8] = .ok (.rep 4095 4) [] ∧
  decode .command [0x01#8] = .ok .encodeCmd [] ∧ decode .command [0x02#8] = .ok .decodeCmd [] ∧
  decode .command [0x03#8] = .ok .scratchMin []

/-- R142: the fields are the tag's bits 11..0, 17..12 and 23..18; they are the inverse of `PackTag`, and every 24-bit
value is `PackTag` of its own fields; and the tag is the number R85 gives. -/
def Obligations.TagFieldsInvertPackTag : Prop :=
  (∀ off nrF rF, off ≤ Config.offMax → nrF ≤ Config.nrMax → rF ≤ Config.rMax →
    tagOff (packTag off nrF rF) = off ∧ tagNrF (packTag off nrF rF) = nrF ∧ tagRF (packTag off nrF rF) = rF ∧
    (packTag off nrF rF).toNat = off + rF * 2 ^ 12 + nrF * 2 ^ 18) ∧
  (∀ t, packTag (tagOff t) (tagNrF t) (tagRF t) = t ∧ tagOff t = t.toNat % 2 ^ 12 ∧
    tagRF t = t.toNat / 2 ^ 12 % 2 ^ 6 ∧ tagNrF t = t.toNat / 2 ^ 18)

/-- R84: a tag is stored in three bytes, little-endian. -/
def Obligations.TagIsStoredLittleEndian : Prop :=
  ∀ (t : Tag), ∃ b0 b1 b2 : Byte, tagBytes t = [b0, b1, b2] ∧ tagOfBytes b0 b1 b2 = t ∧
    t.toNat = b0.toNat + 256 * b1.toNat + 65536 * b2.toNat

/-- R89, R143, R144: the escape sequence of `u` is all `FF` but its last byte, which is below 255; it has
`u / 255 + 1` bytes; reading it gives `u` and what follows; nothing else is an escape sequence; and a sequence with no
byte below 255 before the end of the input is no escape at all. -/
def Obligations.EscapesAreReadAsWritten : Prop :=
  (∀ u, (escEncode u).length = u / 255 + 1 ∧
    (∀ b ∈ (escEncode u).dropLast, b = 0xFF#8) ∧ (∀ b ∈ (escEncode u).getLast?, b.toNat < 255 ∧ b.toNat = u % 255)) ∧
  (∀ u rest, ∃ last, escDecode (escEncode u ++ rest) = some ⟨u, u / 255 + 1, last, rest⟩ ∧ last.toNat = u % 255) ∧
  (∀ bs e, escDecode bs = some e → bs = escEncode e.value ++ e.rest) ∧
  (∀ bs, escDecode bs = none ↔ ∀ b ∈ bs, b = 0xFF#8)

/-- R114: the overlapping 4-byte read, low byte discarded, is the tag of the three bytes at `i`. -/
def Obligations.OverlappedTagReadIsTheTag : Prop :=
  ∀ (s : State) (i : Nat), 1 ≤ i →
    s.readTagOverlapped i = tagOfBytes (s.inByte i) (s.inByte (i + 1)) (s.inByte (i + 2))

/-- R146: the cost of a legal token is the length of its bytes, literals included, by the formula of R91. -/
def Obligations.TokenCostIsTheTokensLength : Prop :=
  ∀ (i : Instr) (lit : List Byte) (litLen v : Nat), lit.length = litLen →
    (i = .eob litLen 4 ∧ v = 0 ∨ (∃ off, i = .rep off (v + 4) ∧ litLen = 0) ∨ (∃ off, i = .tuple off litLen (v + 4))) →
    (encodeToken i lit).length = tokenCost litLen v ∧
    tokenCost litLen v =
      3 + (if litLen < 63 then 0 else (litLen - 63) / 255 + 1) + (if v < 63 then 0 else (v - 63) / 255 + 1) + litLen

/-! ## Steps -/

/-- A step runs the decoded instruction: the command in `CMD` at a start, on the state with the host's duty checked
(log 23); the pattern block on the pattern path; on the normal path the token at `ip`, after the fields are latched and
`ip` has moved past the tag and its escapes (R203, R240, R251); and a BUSY encoder takes its state's transition (R177).
The host's queue is as the turn leaves it. -/
def Obligations.StepRunsTheDecodedInstruction : Prop :=
  (∀ (s : State) (rest : List HostEvent) (i : Instr) (more : List Byte), s.turn engineConfig = .host .start rest →
    decode .command [s.desc.cmd] = .ok i more →
    step s = exec i (({ s with host := rest } : State).checkStart (registersUsed i))) ∧
  (∀ (s : State) (q : List HostEvent), s.turn engineConfig = .engine q → s.run = .pattern →
    ∃ i, decode .block (s.inBytes 0 Config.patternBytes) = .ok i [] ∧ step s = exec i { s with host := q }) ∧
  (∀ (s : State) (q : List HostEvent) (i : Instr) (more : List Byte), s.turn engineConfig = .engine q →
    s.run = .decoding → decode .token (s.inBytes s.dec.ip (s.dec.inLen - s.dec.ip)) = .ok i more →
    ∃ f, s.fetchToken = .ok f ∧ f.instr = i ∧ step s = exec i { s with host := q, dec := s.dec.latch f }) ∧
  (∀ (s : State) (q : List HostEvent) (st : EncState), s.turn engineConfig = .engine q → s.run = .encoding st →
    step s = .next (encoderStep engineConfig st { s with host := q }))

/-- R203 (with R202): a fetch reads a tag and its escapes, which are the encoding of the token it gives; it moves `ip`
past them and leaves the tag, the fields, the two lengths and the last escape byte in the working registers, the others
as they were; and the token is the one the fields select with the lengths latched. -/
def Obligations.FetchLatchesTheToken : Prop :=
  ∀ (s : State) (f : Fields), s.fetchToken = .ok f →
    s.dec.ip + 3 ≤ s.dec.inLen ∧ s.dec.ip + f.size ≤ s.dec.inLen ∧ f.size = encodedSize f.instr ∧
    s.inBytes s.dec.ip f.size = encode f.instr ∧
    f.tag = tagOfBytes (s.inByte s.dec.ip) (s.inByte (s.dec.ip + 1)) (s.inByte (s.dec.ip + 2)) ∧
    s.dec.latch f =
      { s.dec with ip := s.dec.ip + f.size, tag := f.tag, off := tagOff f.tag, rF := tagRF f.tag, nrF := tagNrF f.tag,
                   litLen := (s.dec.latch f).litLen, repLen := (s.dec.latch f).repLen, b := (s.dec.latch f).b } ∧
    (tagNrF f.tag < 63 → (s.dec.latch f).litLen = tagNrF f.tag) ∧
    (tagRF f.tag < 63 → (s.dec.latch f).repLen = tagRF f.tag + 4) ∧
    (tagNrF f.tag = 63 → 63 ≤ (s.dec.latch f).litLen) ∧ (tagRF f.tag = 63 → 67 ≤ (s.dec.latch f).repLen) ∧
    (tagNrF f.tag < 63 → tagRF f.tag < 63 → (s.dec.latch f).b = s.dec.b) ∧
    (tagNrF f.tag = 63 ∨ tagRF f.tag = 63 → (s.dec.latch f).b = s.inByte (s.dec.ip + f.size - 1)) ∧
    (tagOff f.tag = 0 → f.instr = .eob (s.dec.latch f).litLen (s.dec.latch f).repLen) ∧
    (tagOff f.tag ≠ 0 → tagNrF f.tag = 0 → f.instr = .rep (tagOff f.tag) (s.dec.latch f).repLen) ∧
    (tagOff f.tag ≠ 0 → tagNrF f.tag ≠ 0 →
      f.instr = .tuple (tagOff f.tag) (s.dec.latch f).litLen (s.dec.latch f).repLen)

/-- R202: fewer than 3 bytes where a tag must start end the command with FAILED (not READ_ERROR); the engine is
IDLE, the descriptor and everything outside OUT are as they were. -/
def Obligations.ShortTagIsFailed : Prop :=
  ∀ (cfg : Config) (s : State) (q : List HostEvent), s.turn cfg = .engine q → s.run = .decoding →
    s.dec.ip + 3 > s.dec.inLen →
    ∃ t, stepWith cfg s = .next t ∧ t.run = .idle ∧ t.result = Status.failed.code cfg ∧ t.resultValid = true ∧
      t.desc = s.desc ∧ t.host = q ∧ t.enc = s.enc ∧ sameOutside s.outRegion s t

/-- R204, R205, R274, R277: an escape of either field with no byte below 255 before the end of the input ends the
command with READ_ERROR, the literal-length escape tested first, the repeat-length escape read even when the offset
is 0. -/
def Obligations.UnterminatedEscapeIsReadError : Prop :=
  ∀ (cfg : Config) (s : State) (q : List HostEvent) (k : Nat), s.turn cfg = .engine q → s.run = .decoding →
    s.dec.ip + 3 ≤ k → k ≤ s.dec.inLen →
    (∀ j, k ≤ j → j < s.dec.inLen → s.inByte j = 0xFF#8) →
    (let tag := tagOfBytes (s.inByte s.dec.ip) (s.inByte (s.dec.ip + 1)) (s.inByte (s.dec.ip + 2))
     (tagNrF tag = 63 ∧ k = s.dec.ip + 3) ∨
     (tagNrF tag ≠ 63 ∧ tagRF tag = 63 ∧ k = s.dec.ip + 3) ∨
     (tagNrF tag = 63 ∧ tagRF tag = 63 ∧ s.dec.ip + 3 < k ∧ s.inByte (k - 1) ≠ 0xFF#8 ∧
       ∀ j, s.dec.ip + 3 ≤ j → j < k - 1 → s.inByte j = 0xFF#8)) →
    ∃ t, stepWith cfg s = .next t ∧ t.run = .idle ∧ t.result = Status.readError.code cfg ∧ t.resultValid = true ∧
      t.desc = s.desc ∧ t.host = q ∧ t.enc = s.enc ∧ sameOutside s.outRegion s t

/-- R25, R24: no instruction and no engine step changes the descriptor or the host's side; host register writes do
not happen while BUSY; and `RESULT` is written only where a command ends. -/
def Obligations.EngineKeepsTheDescriptor : Prop :=
  (∀ (i : Instr) (s t : State), exec i s = .next t → sameHostSide s t) ∧
  (∀ (cfg : Config) (s t : State) (q : List HostEvent), s.turn cfg = .engine q → stepWith cfg s = .next t →
    t.desc = s.desc ∧ t.rdata = s.rdata ∧ t.duty = s.duty ∧ t.host = q ∧
    (t.run ≠ .idle → t.result = s.result ∧ t.resultValid = s.resultValid) ∧ (t.run = .idle → t.resultValid = true)) ∧
  (∀ (cfg : Config) (s : State) (m : HostMove) (rest : List HostEvent) (r : RegName) (v : Nat), s.run ≠ .idle →
    s.turn cfg = .host m rest → m ≠ .writeReg r v)

/-! ## Tokens -/

/-- R209, R217, R218: an EOB with `r_f = 0` whose literals end exactly at the end of the input and fit the output
returns `op`: its literals are appended, `RESULT` is the count, OUT beyond it is unspecified, and nothing outside
OUT, no descriptor register and no encoder register changes. -/
def Obligations.EobReturnsTheOutput : Prop :=
  ∀ (s : State) (litLen : Nat), s.decoderOk engineConfig → s.dec.ip + litLen = s.dec.inLen →
    s.dec.op + litLen ≤ s.dec.outCap →
    ∃ t, exec (.eob litLen 4) s = .next t ∧ t.run = .idle ∧ t.resultValid = true ∧
      (s.dec.op + litLen < 2 ^ 31 → t.result.toInt = s.dec.op + litLen) ∧
      (∀ j, j < s.dec.op → t.outByte j = s.outByte j) ∧
      (∀ j, j < litLen → t.outByte (s.dec.op + j) = s.inByte (s.dec.ip + j)) ∧
      (∀ j, s.dec.op + litLen ≤ j → j < s.dec.outCap → ∃ epoch, t.outByte j = Config.freeByte epoch (s.outAddr j)) ∧
      t.dec = { s.dec with ip := s.dec.ip + litLen, op := s.dec.op + litLen } ∧
      sameOutside s.outRegion s t ∧ sameHostSide s t ∧ t.enc = s.enc

/-- R209, R207: an EOB whose literals pass the end of the input or of the output, whose `r_f` is not 0, or which does
not end at the end of the input, is FAILED; nothing outside OUT changes. -/
def Obligations.EobOutOfShapeIsFailed : Prop :=
  ∀ (s : State) (litLen repLen : Nat), s.decoderOk engineConfig → 4 ≤ repLen →
    (s.dec.ip + litLen ≠ s.dec.inLen ∨ s.dec.op + litLen > s.dec.outCap ∨ repLen ≠ 4) →
    ∃ t, exec (.eob litLen repLen) s = .next t ∧ t.run = .idle ∧ t.result = Status.failed.code engineConfig ∧
      t.resultValid = true ∧ sameOutside s.outRegion s t ∧ sameHostSide s t ∧ t.enc = s.enc

/-- R210, R211 (with R207, R212, R213): a TUPLE, and a REPEAT as a TUPLE with no literals, whose bounds hold: the
literals are appended, then `rl` bytes each equal to the byte `off` before it; `ip` and `op` move past them; the
engine goes on; every other byte of memory and every other register is as it was. -/
def Obligations.BackReferenceTokensAppend : Prop :=
  ∀ (s : State) (i : Instr) (off litLen repLen : Nat),
    (i = .tuple off litLen repLen ∨ (i = .rep off repLen ∧ litLen = 0)) → s.decoderOk engineConfig → 1 ≤ off →
    s.dec.ip + litLen ≤ s.dec.inLen → off ≤ s.dec.op + litLen → s.dec.op + litLen + repLen ≤ s.dec.outCap →
    ∃ t, exec i s = .next t ∧ t.run = s.run ∧
      t.dec = { s.dec with ip := s.dec.ip + litLen, op := s.dec.op + litLen + repLen } ∧
      (∀ j, j < litLen → t.outByte (s.dec.op + j) = s.inByte (s.dec.ip + j)) ∧
      (∀ j, j < repLen → t.outByte (s.dec.op + litLen + j) = t.outByte (s.dec.op + litLen + j - off)) ∧
      sameOutside (s.outPart s.dec.op (litLen + repLen)) s t ∧ sameHostSide s t ∧ t.enc = s.enc ∧
      t.result = s.result ∧ t.resultValid = s.resultValid

/-- R207, R212, R213: a TUPLE or REPEAT whose literals pass the end of the input or of the output, whose offset
passes the start of the output, or whose repeat passes its end, is FAILED; nothing outside OUT changes. -/
def Obligations.BackReferenceOutOfBoundsIsFailed : Prop :=
  ∀ (s : State) (i : Instr) (off litLen repLen : Nat),
    (i = .tuple off litLen repLen ∨ (i = .rep off repLen ∧ litLen = 0)) → s.decoderOk engineConfig → 1 ≤ off →
    (s.dec.ip + litLen > s.dec.inLen ∨ s.dec.op + litLen > s.dec.outCap ∨ off > s.dec.op + litLen ∨
      s.dec.op + litLen + repLen > s.dec.outCap) →
    ∃ t, exec i s = .next t ∧ t.run = .idle ∧ t.result = Status.failed.code engineConfig ∧ t.resultValid = true ∧
      sameOutside s.outRegion s t ∧ sameHostSide s t ∧ t.enc = s.enc

/-- R122: the closed form of the repeat copy: the last `off` bytes repeated periodically. -/
def Obligations.RepeatCopyIsPeriodic : Prop :=
  ∀ (m : Memory) (dst off n i : Nat), 1 ≤ off → off ≤ dst → i < n →
    (m.copyForward (dst - off) dst n).read (dst + i) = m.read (dst - off + i % off)

/-- R123: `Fill` is `CopyRepeat` at distance 1: every byte becomes `OUT[dst-1]`. -/
def Obligations.FillIsTheRepeatAtDistanceOne : Prop :=
  ∀ (s : State) (dst n a : Nat), 1 ≤ dst → (s.fill dst n).read a = (s.copyRepeat dst 1 n).read a ∧
    (∀ i, i < n → (s.copyRepeat dst 1 n).read (s.outAddr (dst + i)) = s.outByte (dst - 1))

/-- R216: on the pattern path `m = min(out_cap, 4096)` bytes are the 8 bytes tiled and `RESULT` is `m`, when `m` is a
multiple of 8; exactly those bytes are written (R218). The second part says it of the block the engine fetches,
whose bytes are `IN[0..7]`. -/
def Obligations.PatternTilesTheOutput : Prop :=
  (∀ (s : State) (bytes : List Byte), s.patternOk engineConfig → bytes.length = 8 → min s.dec.outCap 4096 % 8 = 0 →
    ∃ t, exec (.pattern bytes) s = .next t ∧ t.run = .idle ∧ t.resultValid = true ∧
      t.result.toInt = min s.dec.outCap 4096 ∧
      (∀ j, j < min s.dec.outCap 4096 → bytes[j % 8]? = some (t.outByte j)) ∧
      sameOutside (s.outPart 0 (min s.dec.outCap 4096)) s t ∧ sameHostSide s t ∧ t.enc = s.enc ∧ t.dec = s.dec) ∧
  (∀ (s : State), s.patternOk engineConfig → min s.dec.outCap 4096 % 8 = 0 →
    ∃ t, exec s.fetchBlock s = .next t ∧ ∀ j, j < min s.dec.outCap 4096 → t.outByte j = s.inByte (j % 8))

/-- R216, R273, R276, R307 (U2): when `min(out_cap, 4096)` is no multiple of 8 the pattern block is FAILED: memory outside
OUT is as it was, and the bytes of OUT are unspecified, as after every FAILED. R216 says besides that nothing is written
in that case; the free values allow that and more (log 8). -/
def Obligations.PatternOfOddSizeIsFailed : Prop :=
  ∀ (s : State) (bytes : List Byte), min s.dec.outCap 4096 % 8 ≠ 0 →
    ∃ t, exec (.pattern bytes) s = .next t ∧ t.run = .idle ∧ t.result = Status.failed.code engineConfig ∧
      t.resultValid = true ∧ sameOutside s.outRegion s t ∧
      (∀ a, s.outRegion.covers a = true → ∃ epoch, t.mem.read a = Config.freeByte epoch a) ∧
      sameHostSide s t ∧ t.enc = s.enc ∧ t.dec = s.dec

/-! ## Commands -/

/-- R255: SCRATCH_MIN returns 8192, in every state, and changes nothing but `RESULT` and `RUN`. -/
def Obligations.ScratchMinReturnsTheScratchSize : Prop :=
  ∀ (s : State), ∃ t, exec .scratchMin s = .next t ∧ t.run = .idle ∧ t.result.toInt = 2 ^ (Config.hashLog2 + 1) ∧
    t.result.toInt = 8192 ∧ t.resultValid = true ∧ t.mem = s.mem ∧ sameHostSide s t ∧ t.enc = s.enc ∧ t.dec = s.dec

/-- R241, R242: a null base, an empty or oversized input, or a capacity not above the minimum gain end ENCODE with
INVALID_ARGUMENT before any memory access. That this holds for a start whose regions are invalid too is the model's
reading (log 10). -/
def Obligations.EncodeRejectsBadArguments : Prop :=
  ∀ (s : State),
    (s.desc.stateBase = 0 ∨ s.desc.inBase = 0 ∨ s.desc.outBase = 0 ∨ s.desc.inLen.toNat = 0 ∨
      s.desc.inLen.toNat > 4096 ∨
      s.desc.outCap.toNat ≤ max 64 (min s.desc.inLen.toNat s.desc.outCap.toNat / 64)) →
    ∃ t, exec .encodeCmd s = .next t ∧ t.run = .idle ∧ t.result = Status.invalidArgument.code engineConfig ∧
      t.resultValid = true ∧ t.mem = s.mem ∧ sameHostSide s t ∧ t.enc = s.enc ∧ t.dec = s.dec

/-- R250: a null base, an empty buffer or an input of 4 bytes or fewer ends DECODE with INVALID_ARGUMENT before any
memory access. That this holds for a start whose regions are invalid too is the model's reading (log 10). -/
def Obligations.DecodeRejectsBadArguments : Prop :=
  ∀ (s : State),
    (s.desc.inBase = 0 ∨ s.desc.outBase = 0 ∨ s.desc.inLen.toNat = 0 ∨ s.desc.outCap.toNat = 0 ∨
      s.desc.inLen.toNat ≤ 4) →
    ∃ t, exec .decodeCmd s = .next t ∧ t.run = .idle ∧ t.result = Status.invalidArgument.code engineConfig ∧
      t.resultValid = true ∧ t.mem = s.mem ∧ sameHostSide s t ∧ t.enc = s.enc ∧ t.dec = s.dec

/-- R256, R21: a start with `CMD` not in 1, 2, 3 completes at once with INVALID_ARGUMENT and no memory access. -/
def Obligations.ReservedCommandIsInvalidArgument : Prop :=
  ∀ (cfg : Config) (s : State) (rest : List HostEvent), s.turn cfg = .host .start rest →
    s.desc.cmd ≠ 1 → s.desc.cmd ≠ 2 → s.desc.cmd ≠ 3 →
    ∃ t, stepWith cfg s = .next t ∧ t.run = .idle ∧ t.result = Status.invalidArgument.code cfg ∧ t.resultValid = true ∧
      t.mem = s.mem ∧ t.desc = s.desc ∧ t.rdata = s.rdata ∧ t.host = rest ∧ t.enc = s.enc ∧ t.dec = s.dec

/-- R51, U9: a start whose arguments pass the engine's checks and whose regions wrap or overlap has no meaning and is
refused. That the checks come first is the model's reading (log 10). -/
def Obligations.InvalidRegionsAreRefused : Prop :=
  (∀ (s : State), s.decodeArgsBad = false →
    (s.inRegion.base + s.inRegion.size > 2 ^ engineConfig.addrBits ∨
      s.outRegion.base + s.outRegion.size > 2 ^ engineConfig.addrBits ∨
      ∃ a, s.inRegion.covers a = true ∧ s.outRegion.covers a = true) →
    exec .decodeCmd s = .refused .invalidRegions) ∧
  (∀ (s : State), s.encodeArgsBad = false →
    (s.inRegion.base + s.inRegion.size > 2 ^ engineConfig.addrBits ∨
      s.outRegion.base + s.outRegion.size > 2 ^ engineConfig.addrBits ∨
      s.scratchRegion.base + s.scratchRegion.size > 2 ^ engineConfig.addrBits ∨
      ∃ a, (s.inRegion.covers a = true ∧ s.outRegion.covers a = true) ∨
        (s.scratchRegion.covers a = true ∧ (s.inRegion.covers a = true ∨ s.outRegion.covers a = true))) →
    exec .encodeCmd s = .refused .invalidRegions)

/-- R161, R244, R126: ENCODE with good arguments performs INIT: the effective limit, all 4096 slots zero, the header
byte `00` written, the scan at 1 with the literal run at 0; and goes on to SEARCH. Nothing outside STATE and `OUT[0]`
changes. -/
def Obligations.EncodePerformsInit : Prop :=
  ∀ (s : State), s.encodeArgsBad = false → s.encodeRegionsOk engineConfig = true →
    ∃ t, exec .encodeCmd s = .next t ∧ t.run = .encoding .search ∧ t.enc.inLen = s.desc.inLen.toNat ∧
      t.enc.limit = (if s.desc.softLimit = 0 then min s.desc.inLen.toNat s.desc.outCap.toNat
        else min s.desc.softLimit.toNat s.desc.outCap.toNat) ∧
      1 ≤ t.enc.limit ∧ t.enc = { s.enc with inLen := t.enc.inLen, limit := t.enc.limit, o := 1, nr0 := 0, p := 1 } ∧
      (∀ k, t.slot k = 0) ∧ t.outByte 0 = 0x00#8 ∧
      (∀ j, j < s.desc.inLen.toNat → t.inByte j = s.inByte j) ∧
      sameOutside2 s.scratchRegion (s.outPart 0 1) s t ∧ sameHostSide s t ∧ t.dec = s.dec ∧ t.result = s.result ∧
      t.resultValid = s.resultValid ∧ t.encoderBase engineConfig

/-- R201, R251: DECODE with good arguments starts the pattern path when the input is exactly 8 bytes long, whatever
the bytes, and the normal path with `ip = 1`, `op = 0` otherwise; memory is not touched. -/
def Obligations.DecodeDispatchesOnTheLength : Prop :=
  ∀ (s : State), s.decodeArgsBad = false → s.decodeRegionsOk engineConfig = true →
    ∃ t, exec .decodeCmd s = .next t ∧
      t.dec = { s.dec with inLen := s.desc.inLen.toNat, outCap := s.desc.outCap.toNat, ip := t.dec.ip, op := t.dec.op } ∧
      (s.desc.inLen.toNat = 8 → t.run = .pattern ∧ t.patternOk engineConfig) ∧
      (s.desc.inLen.toNat ≠ 8 → t.run = .decoding ∧ t.dec.ip = 1 ∧ t.dec.op = 0 ∧ t.decoderOk engineConfig) ∧
      t.mem = s.mem ∧ sameHostSide s t ∧ t.enc = s.enc ∧ t.result = s.result ∧ t.resultValid = s.resultValid

/-- R279: no failure is sticky: what a command does not depend on the result of the one before. -/
def Obligations.NoResultIsSticky : Prop :=
  ∀ (i : Instr) (s t : State) (word : Word32) (valid : Bool), i.form = .command → exec i s = .next t →
    ∃ t', exec i { s with result := word, resultValid := valid } = .next t' ∧ t'.run = t.run ∧ t'.mem = t.mem ∧
      t'.desc = t.desc ∧ t'.enc = t.enc ∧ t'.dec = t.dec ∧
      (t.run = .idle → t'.result = t.result ∧ t'.resultValid = t.resultValid)

/-- R14, R270, U13: in every configuration the spec allows INCOMPRESSIBLE is 0, the other three statuses are negative,
and no two are the same; this engine's configuration is one the spec allows, and its numerals are the defaults
(log 13). -/
def Obligations.StatusesAreToldApart : Prop :=
  (∀ (cfg : Config), cfg.Lawful →
    (Status.incompressible.code cfg).toInt = 0 ∧ (∀ st : Status, st ≠ .incompressible → (st.code cfg).toInt < 0) ∧
    (∀ st st' : Status, st.code cfg = st'.code cfg → st = st')) ∧
  engineConfig.Lawful ∧ (Status.failed.code engineConfig).toInt = -1 ∧
  (Status.readError.code engineConfig).toInt = -2 ∧ (Status.invalidArgument.code engineConfig).toInt = -3

/-! ## The encoder's states -/

/-- R162 with the spec's default schedule (R10, D10; this engine's, log 12): SEARCH sets the step counter to 32 and goes
to PROBE; nothing else changes. For any schedule it sets the counter to the schedule's first value. -/
def Obligations.SearchStartsTheProbes : Prop :=
  (∀ (s : State),
    encoderStep engineConfig .search s = { s with run := .encoding .probe, enc := { s.enc with step := 32 } }) ∧
  (∀ (cfg : Config) (s : State),
    encoderStep cfg .search s = { s with run := .encoding .probe, enc := { s.enc with step := cfg.stepInit } })

/-- R163: PROBE goes to TAIL, touching nothing, when the position is within 16 bytes of the end; R164: else it reads the
window, the slot of its hash, and then puts `p` in that slot, all other slots and everything outside STATE staying;
R165: it goes to MATCH when the candidate is earlier and the windows agree; R166: else `p` moves by the stride and the
step counter by one. -/
def Obligations.ProbeFollowsItsRules : Prop :=
  ∀ (cfg : Config) (s : State), s.encoderBase cfg → s.encoderAt cfg .probe → s.run = .encoding .probe →
    let t := encoderStep cfg .probe s
    (s.enc.p + 16 > s.enc.inLen → t = { s with run := .encoding .tail }) ∧
    (s.enc.p + 16 ≤ s.enc.inLen →
      t.enc.w = s.read4 s.enc.p ∧ t.enc.h = s.hashAt cfg s.enc.p ∧
      (cfg.hashWindow = 4 → t.enc.h = cfg.hash t.enc.w.toNat) ∧ t.enc.q = s.slot t.enc.h ∧
      t.enc = { s.enc with w := t.enc.w, h := t.enc.h, q := t.enc.q, p := t.enc.p, step := t.enc.step } ∧
      t.slot t.enc.h = s.enc.p ∧ (∀ k, k ≠ t.enc.h → t.slot k = s.slot k) ∧ t.enc.q < s.enc.p ∧
      sameOutside s.scratchRegion s t ∧ sameHostSide s t ∧
      ((∀ j, j < 4 → s.inByte (t.enc.q + j) = s.inByte (s.enc.p + j)) →
        t.run = .encoding .matching ∧ t.enc.p = s.enc.p ∧ t.enc.step = s.enc.step) ∧
      ((∃ j, j < 4 ∧ s.inByte (t.enc.q + j) ≠ s.inByte (s.enc.p + j)) →
        t.run = .encoding .probe ∧ t.enc.p = s.enc.p + cfg.stride s.enc.step ∧ t.enc.step = s.enc.step + 1) ∧
      t.dec = s.dec ∧ t.result = s.result ∧ t.resultValid = s.resultValid)

/-- R167, R168, R169, R170 (with R119, R120): MATCH takes the distance `p - q`, extends the match backward as far as the
literal run, the start of the block and equal bytes allow and no less, forward to the first mismatch or the end of the
input, and sets the two lengths; `1 <= off <= 4095`, `s >= 1`, `4 <= rl <= 4095`. -/
def Obligations.MatchExtendsBothWays : Prop :=
  ∀ (cfg : Config) (s : State), s.encoderBase cfg → s.encoderAt cfg .matching → s.run = .encoding .matching →
    let t := encoderStep cfg .matching s
    let k := s.enc.p - t.enc.s
    t.run = .encoding .emit ∧ t.enc.off = s.enc.p - s.enc.q ∧ 1 ≤ t.enc.off ∧ t.enc.off ≤ 4095 ∧
    t.enc.s ≤ s.enc.p ∧ 1 ≤ t.enc.s ∧ s.enc.nr0 ≤ t.enc.s ∧ k ≤ s.enc.q ∧
    (∀ j, 1 ≤ j → j ≤ k → s.inByte (s.enc.p - j) = s.inByte (s.enc.q - j)) ∧
    (t.enc.s = s.enc.nr0 ∨ k = s.enc.q ∨ s.inByte (s.enc.p - (k + 1)) ≠ s.inByte (s.enc.q - (k + 1))) ∧
    s.enc.p + 4 ≤ t.enc.e ∧ t.enc.e ≤ s.enc.inLen ∧
    (∀ j, s.enc.p + 4 ≤ j → j < t.enc.e → s.inByte j = s.inByte (j - t.enc.off)) ∧
    (t.enc.e = s.enc.inLen ∨ s.inByte t.enc.e ≠ s.inByte (t.enc.e - t.enc.off)) ∧
    t.enc.litLen = t.enc.s - s.enc.nr0 ∧ t.enc.repLen = t.enc.e - t.enc.s ∧ 4 ≤ t.enc.repLen ∧
    t.enc.repLen ≤ 4095 ∧ t.mem = s.mem ∧ sameHostSide s t ∧
    t.enc = { s.enc with off := t.enc.off, s := t.enc.s, e := t.enc.e, litLen := t.enc.litLen, repLen := t.enc.repLen } ∧
    t.dec = s.dec ∧ t.result = s.result ∧ t.resultValid = s.resultValid

/-- R171, R172: EMIT gives up with INCOMPRESSIBLE when the token would pass the limit; else it writes exactly the
token's bytes with its literals at `OUT[o ..]` and moves `o` by the token's cost; a match with no literals is a REPEAT,
any other a TUPLE. -/
def Obligations.EmitWritesTheToken : Prop :=
  ∀ (cfg : Config) (s : State), s.encoderBase cfg → s.encoderAt cfg .emit → s.run = .encoding .emit →
    let t := encoderStep cfg .emit s
    let cost := tokenCost s.enc.litLen (s.enc.repLen - 4)
    let tok := if s.enc.litLen = 0 then Instr.rep s.enc.off s.enc.repLen
      else Instr.tuple s.enc.off s.enc.litLen s.enc.repLen
    (s.enc.o + cost > s.enc.limit →
      t.run = .idle ∧ t.result = Status.incompressible.code cfg ∧ t.resultValid = true ∧ sameHostSide s t ∧
      sameOutside2 s.outRegion s.scratchRegion s t) ∧
    (s.enc.o + cost ≤ s.enc.limit →
      t.run = .encoding .advance ∧ t.enc = { s.enc with o := s.enc.o + cost } ∧ WellFormed tok = true ∧
      t.mem.readBytes (s.outAddr s.enc.o) cost = encodeToken tok (s.inBytes s.enc.nr0 s.enc.litLen) ∧
      sameOutside (s.outPart s.enc.o cost) s t ∧ sameHostSide s t ∧ t.dec = s.dec ∧ t.result = s.result ∧
      t.resultValid = s.resultValid)

/-- R173: ADVANCE inserts the last position of the match when the next search will probe, leaves the table alone
otherwise, and goes on after the match. -/
def Obligations.AdvanceInsertsTheMatchEnd : Prop :=
  ∀ (cfg : Config) (s : State), s.encoderBase cfg → s.encoderAt cfg .advance → s.run = .encoding .advance →
    let t := encoderStep cfg .advance s
    t.run = .encoding .search ∧ t.enc = { s.enc with nr0 := s.enc.e, p := s.enc.e } ∧
    (s.enc.e + 16 ≤ s.enc.inLen →
      t.slot (s.hashAt cfg (s.enc.e - 1)) = s.enc.e - 1 ∧
      (∀ k, k ≠ s.hashAt cfg (s.enc.e - 1) → t.slot k = s.slot k)) ∧
    (cfg.hashWindow = 4 → s.hashAt cfg (s.enc.e - 1) = cfg.hash (s.read4 (s.enc.e - 1)).toNat) ∧
    (s.enc.e + 16 > s.enc.inLen → t.mem = s.mem) ∧
    sameOutside s.scratchRegion s t ∧ sameHostSide s t ∧ t.dec = s.dec ∧ t.result = s.result ∧
    t.resultValid = s.resultValid

/-- R174: TAIL gives up when the EOB token with the last literals would pass the limit, else writes it at `OUT[o ..]`;
R175: DONE gives up when the block is exactly 8 bytes, else returns its length. -/
def Obligations.TailAndDoneEndTheBlock : Prop :=
  ∀ (cfg : Config) (s : State), s.encoderBase cfg →
    let litLen := s.enc.inLen - s.enc.nr0
    let cost := tokenCost litLen 0
    (s.run = .encoding .tail → s.enc.o + cost > s.enc.limit →
      ∃ t, stepWith cfg { s with host := [] } = .next t ∧ t.run = .idle ∧ t.result = Status.incompressible.code cfg ∧
        sameOutside2 s.outRegion s.scratchRegion s t) ∧
    (s.run = .encoding .tail → s.enc.o + cost ≤ s.enc.limit →
      ∃ t, stepWith cfg { s with host := [] } = .next t ∧ t.run = .encoding .done ∧
        t.enc = { s.enc with o := s.enc.o + cost, litLen := litLen } ∧ t.desc = s.desc ∧ t.dec = s.dec ∧
        t.mem.readBytes (s.outAddr s.enc.o) cost = encodeToken (.eob litLen 4) (s.inBytes s.enc.nr0 litLen) ∧
        sameOutside (s.outPart s.enc.o cost) s t) ∧
    (s.run = .encoding .done → s.enc.o = 8 →
      ∃ t, stepWith cfg { s with host := [] } = .next t ∧ t.run = .idle ∧ t.result = Status.incompressible.code cfg) ∧
    (s.run = .encoding .done → s.enc.o ≠ 8 →
      ∃ t, stepWith cfg { s with host := [] } = .next t ∧ t.run = .idle ∧
        (s.enc.o < 2 ^ 31 → t.result.toInt = s.enc.o) ∧ (∀ j, j < s.enc.o → t.outByte j = s.outByte j) ∧
        sameOutside2 s.outRegion s.scratchRegion s t)

/-- R118 (the hash is the spec's own choice, log 12): the hash of this engine is taken of 4 bytes, and is the top 12 bits of
the low 32 bits of the product. -/
def Obligations.HashIsTheTopOfTheProduct : Prop :=
  (∀ (w : Window), (engineConfig.hash w.toNat).toNat = w.toNat * 2654435761 % 2 ^ 32 / 2 ^ 20) ∧
  (∀ (s : State) (i : Nat), s.hashAt engineConfig i = engineConfig.hash (s.read4 i).toNat)

/-- R56, R52: slot `k` is the 16-bit little-endian value at `STATE_BASE + 2k`: a value written is read back, its low
byte first, and no other slot changes. -/
def Obligations.SlotsAreLittleEndianWords : Prop :=
  ∀ (s : State) (k k' : SlotIx) (v : Nat), v < 2 ^ 16 →
    ({ s with mem := s.withSlot k v } : State).slot k' = (if k' = k then v else s.slot k') ∧
    ((s.withSlot k v).read (s.desc.stateBase + 2 * k.toNat)).toNat = v % 256 ∧
    ((s.withSlot k v).read (s.desc.stateBase + 2 * k.toNat + 1)).toNat = v / 256

/-- R119: `ExtendForward` is the largest index up to which the bytes repeat at distance `off`, and the 8-byte word
technique gives exactly that index. -/
def Obligations.WordwiseExtensionIsTheExtension : Prop :=
  ∀ (s : State) (off e0 inLen : Nat), 1 ≤ off → off ≤ e0 → e0 ≤ inLen →
    let e := s.extendForward off e0 inLen
    e0 ≤ e ∧ e ≤ inLen ∧ (∀ j, e0 ≤ j → j < e → s.inByte j = s.inByte (j - off)) ∧
    (e = inLen ∨ s.inByte e ≠ s.inByte (e - off)) ∧ s.extendForwardFast off e0 inLen = e

/-! ## The whole machine -/

/-- The machine's invariant holds at reset, in every configuration. -/
def Obligations.ResetMeetsTheInvariant : Prop := ∀ cfg : Config, State.reset.Inv cfg

/-- R178 (a, b, c), R22, R26, R27, R33, R51, and the canonical form of memory: every step keeps the invariant, in every
configuration the spec allows, and so in this engine's. -/
def Obligations.StepKeepsTheInvariant : Prop :=
  (∀ (cfg : Config), cfg.Lawful → ∀ (s t : State), s.Inv cfg → stepWith cfg s = .next t → t.Inv cfg) ∧
  (∀ (s t : State), s.Inv engineConfig → step s = .next t → t.Inv engineConfig)

/-- R29: with the spec's step schedule the scan position never exceeds `in_len + 127`: every step keeps the bound. -/
def Obligations.ScanPositionStaysNearTheInput : Prop :=
  ∀ (s t : State), s.Inv engineConfig → s.scanOk → step s = .next t → t.scanOk

/-- R50, R58, R160, R219: in one engine step nothing outside OUT (and STATE under ENCODE) changes, so IN is never
written; and while ENCODE goes on it writes OUT below its limit only. -/
def Obligations.EngineStaysInItsRegions : Prop :=
  ∀ (cfg : Config) (s t : State) (q : List HostEvent), s.Inv cfg → s.turn cfg = .engine q → stepWith cfg s = .next t →
    (∀ a, s.outRegion.covers a = false → (s.scratchRegion.covers a = false ∨ ∀ st, s.run ≠ .encoding st) →
      t.mem.read a = s.mem.read a) ∧
    (∀ j, j < s.desc.inLen.toNat → t.inByte j = s.inByte j) ∧
    (∀ st, s.run = .encoding st → t.run ≠ .idle →
      sameOutside2 (s.outPart 0 s.enc.limit) s.scratchRegion s t)

/-- R177, R176, R246: ENCODE with good arguments always ends, in every configuration the spec allows: from the
state INIT leaves, at most `2 * IN_LEN + 4` engine steps lead to an IDLE engine whose `RESULT` is INCOMPRESSIBLE or a
block length between 5 and the limit that is not 8; nothing outside OUT and STATE has changed. -/
def Obligations.EncodeRunsToItsEnd : Prop :=
  ∀ (cfg : Config) (s : State), cfg.Lawful → s.host = [] → s.encodeArgsBad = false → s.encodeRegionsOk cfg = true →
    ∃ t, execWith cfg .encodeCmd s = .next t ∧
      ∃ n u, n ≤ 2 * s.desc.inLen.toNat + 4 ∧ runWith cfg n t = .next u ∧ u.run = .idle ∧ u.resultValid = true ∧
        (u.result = Status.incompressible.code cfg ∨
          ∃ m, 5 ≤ m ∧ m ≤ t.enc.limit ∧ m ≤ s.desc.outCap.toNat ∧ m ≠ 8 ∧ u.result.toInt = m ∧
            u.outByte 0 = 0x00#8) ∧
        sameHostSide s u ∧ sameOutside2 s.outRegion s.scratchRegion s u

/-- R214, R217, R219, R252: DECODE with good arguments always ends, on any bytes: within `(IN_LEN - 1) / 3 + 1` engine
steps it is IDLE with FAILED, READ_ERROR or a count between 1 and `OUT_CAP`, which is `op` on the normal path and
`min(OUT_CAP, 4096)` on the pattern path; nothing outside OUT has changed. What `RESULT` holds for a count of `2^31` or
more is a free value (log 9). -/
def Obligations.DecodeRunsToItsEnd : Prop :=
  ∀ (cfg : Config) (s : State), s.host = [] → s.decodeArgsBad = false → s.decodeRegionsOk cfg = true →
    ∃ t, execWith cfg .decodeCmd s = .next t ∧
      ∃ n u, n ≤ (s.desc.inLen.toNat - 1) / 3 + 1 ∧ runWith cfg n t = .next u ∧ u.run = .idle ∧
        u.resultValid = true ∧
        (u.result = Status.failed.code cfg ∨ u.result = Status.readError.code cfg ∨
          ∃ m, m = (if s.desc.inLen.toNat = 8 then min s.desc.outCap.toNat 4096 else u.dec.op) ∧
            1 ≤ m ∧ m ≤ s.desc.outCap.toNat ∧ u.result = countWord m ∧ (m < 2 ^ 31 → u.result.toInt = m)) ∧
        sameHostSide s u ∧ sameOutside s.outRegion s u

/-- R220: DECODE is a function of the input bytes, their length and the capacity: two states that agree on these, and in
nothing else, give the same result, the same count of output bytes and, when they succeed, the same output bytes: those
below `op` on the normal path, those below `min(OUT_CAP, 4096)` on the pattern path. -/
def Obligations.DecodeIsAFunctionOfItsInput : Prop :=
  ∀ (cfg : Config) (s s' t t' u u' : State) (n n' : Nat), s.host = [] → s'.host = [] →
    s.decodeArgsBad = false → s'.decodeArgsBad = false →
    s.desc.inLen = s'.desc.inLen → s.desc.outCap = s'.desc.outCap →
    (∀ j, j < s.desc.inLen.toNat → s.inByte j = s'.inByte j) →
    execWith cfg .decodeCmd s = .next t → execWith cfg .decodeCmd s' = .next t' →
    runWith cfg n t = .next u → runWith cfg n' t' = .next u' → u.run = .idle → u'.run = .idle →
    u.result = u'.result ∧ u.dec.op = u'.dec.op ∧
    (cfg.Lawful → s.desc.outCap.toNat < 2 ^ 31 → 0 < u.result.toInt →
      ∀ j, j < u.result.toNat → u.outByte j = u'.outByte j) ∧
    (u.result ≠ Status.failed.code cfg → u.result ≠ Status.readError.code cfg →
      ∀ j, j < (if s.desc.inLen.toNat = 8 then min s.desc.outCap.toNat 4096 else u.dec.op) →
        u.outByte j = u'.outByte j)

/-- R179: ENCODE is a function of the input bytes, their length, the capacity and the soft limit, whatever STATE and OUT
held before and wherever the regions lie. -/
def Obligations.EncodeIsAFunctionOfItsInput : Prop :=
  ∀ (cfg : Config) (s s' t t' u u' : State) (n n' : Nat), cfg.Lawful → s.host = [] → s'.host = [] →
    s.encodeArgsBad = false → s'.encodeArgsBad = false →
    s.desc.inLen = s'.desc.inLen → s.desc.outCap = s'.desc.outCap → s.desc.softLimit = s'.desc.softLimit →
    (∀ j, j < s.desc.inLen.toNat → s.inByte j = s'.inByte j) →
    execWith cfg .encodeCmd s = .next t → execWith cfg .encodeCmd s' = .next t' →
    runWith cfg n t = .next u → runWith cfg n' t' = .next u' → u.run = .idle → u'.run = .idle →
    u.result = u'.result ∧ (0 < u.result.toInt → ∀ j, j < u.result.toNat → u.outByte j = u'.outByte j)

/-- R180, the round-trip law: when ENCODE has returned a positive length, DECODE of those bytes, with any capacity that
holds the input, returns the input's length and writes the input, in every configuration the spec allows. -/
def Obligations.DecodeOfEncodeIsTheInput : Prop :=
  ∀ (cfg : Config) (s t u d : State) (n : Nat), cfg.Lawful → s.host = [] → s.encodeArgsBad = false →
    execWith cfg .encodeCmd s = .next t → runWith cfg n t = .next u → u.run = .idle → 0 < u.result.toInt →
    d.host = [] → d.decodeArgsBad = false → d.decodeRegionsOk cfg = true → d.desc.inLen = u.result →
    s.desc.inLen.toNat ≤ d.desc.outCap.toNat → (∀ j, j < u.result.toNat → d.inByte j = u.outByte j) →
    ∃ v, execWith cfg .decodeCmd d = .next v ∧ ∃ k w, runWith cfg k v = .next w ∧ w.run = .idle ∧
      w.result.toNat = s.desc.inLen.toNat ∧ ∀ j, j < s.desc.inLen.toNat → w.outByte j = s.inByte j

/-! ## The host's duty -/

/-- R35, R301, U8: the host is to write every descriptor register a command uses before it starts the command. After
reset no register is written; a host write marks its register and no other as written; a start leaves the marks, and
breaks the duty exactly when the command uses a register that is not written; ENCODE uses all seven, DECODE all but
`STATE_BASE` and `SOFT_LIMIT`, SCRATCH_MIN `CMD`; so does a host read of a register that is not written, or of
`RESULT` before a command has completed. That the machine keeps such a record, and that the command or the read goes on
all the same, is the model's choice (log 14, 23). -/
def Obligations.StartChecksTheHostsDuty : Prop :=
  (State.reset.duty.broken = false ∧ ∀ r, r ∈ State.reset.duty.unwritten ↔ r ≠ .result) ∧
  (∀ (cfg : Config) (s t : State) (r : RegName) (v : Nat) (rest : List HostEvent), r ≠ .result →
    s.turn cfg = .host (.writeReg r v) rest → stepWith cfg s = .next t →
    t.duty.broken = s.duty.broken ∧ ∀ r', r' ∈ t.duty.unwritten ↔ r' ∈ s.duty.unwritten ∧ r' ≠ r) ∧
  (∀ (cfg : Config) (s t : State) (i : Instr) (rest : List HostEvent) (more : List Byte),
    s.turn cfg = .host .start rest → decode .command [s.desc.cmd] = .ok i more → stepWith cfg s = .next t →
    t.duty.unwritten = s.duty.unwritten ∧
    (t.duty.broken = true ↔ s.duty.broken = true ∨
      ∃ r, r ∈ s.duty.unwritten ∧ r ≠ .result ∧
        (r = .cmd ∨ i = .encodeCmd ∨ (i = .decodeCmd ∧ r ≠ .stateBase ∧ r ≠ .softLimit)))) ∧
  (∀ (cfg : Config) (s t : State) (r : RegName) (rest : List HostEvent),
    s.turn cfg = .host (.readReg r) rest → stepWith cfg s = .next t →
    t.duty.unwritten = s.duty.unwritten ∧ (t.duty.broken = true ↔
      s.duty.broken = true ∨ r ∈ s.duty.unwritten ∨ (r = .result ∧ s.resultValid = false)))
end

