-- ==== Sys2Proof/Laws/Codec.lean ====
section
/-! SUPPORT. The small lemmas of the tag codec: lengths of what the encoder gives, the shape of a field, the loop of
the escape reader. -/

namespace Sys2Proof

@[simp] theorem length_tagBytes (t : Tag) : (tagBytes t).length = 3 := rfl

@[simp] theorem length_escEncode (u : Nat) : (escEncode u).length = sizeBytesCount u := by
  simp [escEncode, sizeBytesCount]

@[simp] theorem length_escapeOf (v : Nat) : (escapeOf v).length = escapeCost v := by
  unfold escapeOf escapeCost; split <;> simp

@[simp] theorem length_encodeFields (off litLen v : Nat) :
    (encodeFields off litLen v).length = 3 + escapeCost litLen + escapeCost v := by
  simp [encodeFields, Nat.add_assoc]

/-- A field never passes its maximum (R85). -/
theorem fieldOf_le (v : Nat) : fieldOf v ≤ Config.nrMax := Nat.min_le_right _ _

/-- A field is at its maximum exactly when its value has an escape (R86, R87). -/
theorem fieldOf_eq_max {v : Nat} : fieldOf v = Config.nrMax ↔ Config.nrMax ≤ v := by
  unfold fieldOf; omega

/-- Below the threshold a field is its value, and has no escape (R86, R87). -/
theorem fieldOf_of_lt {v : Nat} (h : v < Config.nrMax) : fieldOf v = v ∧ escapeOf v = [] := by
  constructor
  · unfold fieldOf; omega
  · simp [escapeOf, h]

/-- A short value has no escape bytes. -/
theorem escapeCost_of_lt {v : Nat} (h : v < Config.nrMax) : escapeCost v = 0 := by simp [escapeCost, h]

/-- Every field of a tag is below its maximum (R6, R85). -/
theorem tag_fields_le (t : Tag) : tagOff t ≤ Config.offMax ∧ tagRF t ≤ Config.rMax ∧ tagNrF t ≤ Config.nrMax := by
  have h1 := (t.extractLsb' 0 12).isLt
  have h2 := (t.extractLsb' 12 6).isLt
  have h3 := (t.extractLsb' 18 6).isLt
  simp only [tagOff, tagRF, tagNrF, Config.offMax, Config.rMax, Config.nrMax]
  omega

/-- The value of the tag of three stream bytes (R84). -/
theorem tagOfBytes_toNat (b0 b1 b2 : Byte) :
    (tagOfBytes b0 b1 b2).toNat = b0.toNat + 256 * b1.toNat + 65536 * b2.toNat := by
  have := b0.isLt
  have := b1.isLt
  have := b2.isLt
  unfold tagOfBytes
  change @BitVec.toNat (8 + 8 + 8) _ = _
  rw [BitVec.toNat_append, BitVec.toNat_append, Nat.shiftLeft_eq, Nat.shiftLeft_eq, Nat.mul_comm _ (2 ^ 8),
    ← Nat.two_pow_add_eq_or_of_lt (i := 8) (by omega), Nat.mul_comm _ (2 ^ 8),
    ← Nat.two_pow_add_eq_or_of_lt (i := 8) (by omega)]
  omega

/-- A byte that does not end an escape is `FF` (R89). -/
theorem byte_eq_FF {b : Byte} (h : ¬ b.toNat < Config.byteMax) : b = BitVec.ofNat 8 Config.byteMax := by
  have := b.isLt
  simp only [Config.byteMax] at h
  refine BitVec.eq_of_toNat_eq ?_
  simp only [Config.byteMax, BitVec.toNat_ofNat]
  omega

/-- The loop of R144 on `k` bytes `FF` and a last byte `r`: what it adds and where it stops. -/
theorem escDecodeFrom_sequence (k : Nat) {r : Nat} (hr : r < Config.byteMax) (u n : Nat) (rest : List Byte) :
    escDecodeFrom u n (List.replicate k (BitVec.ofNat 8 Config.byteMax) ++ [BitVec.ofNat 8 r] ++ rest) =
      some ⟨u + Config.byteMax * k + r, n + k + 1, BitVec.ofNat 8 r, rest⟩ := by
  simp only [Config.byteMax] at hr ⊢
  induction k generalizing u n with
  | zero =>
    have : r % 256 = r := by omega
    simp [escDecodeFrom, Config.byteMax, this, hr]
  | succ k ih =>
    rw [List.replicate_succ]
    simp only [List.cons_append, escDecodeFrom]
    rw [if_neg (by simp [Config.byteMax]), ih]
    simp
    omega

/-- Whatever the loop of R144 accepts is `k` bytes `FF`, a byte below 255, and what follows. -/
theorem escDecodeFrom_some {u n : Nat} {bs : List Byte} {e : Escape} (h : escDecodeFrom u n bs = some e) :
    ∃ k r, r < Config.byteMax ∧
      bs = List.replicate k (BitVec.ofNat 8 Config.byteMax) ++ [BitVec.ofNat 8 r] ++ e.rest ∧
      e = ⟨u + Config.byteMax * k + r, n + k + 1, BitVec.ofNat 8 r, e.rest⟩ := by
  induction bs generalizing u n with
  | nil => simp [escDecodeFrom] at h
  | cons b bs ih =>
    simp only [escDecodeFrom] at h
    split at h
    · next hb =>
      injection h with h
      subst h
      exact ⟨0, b.toNat, hb, by simp, by simp⟩
    · next hb =>
      obtain ⟨k, r, hr, h1, h2⟩ := ih h
      refine ⟨k + 1, r, hr, by rw [h1, byte_eq_FF hb, List.replicate_succ]; simp, ?_⟩
      rw [h2, byte_eq_FF hb]
      simp [Config.byteMax]
      omega

end Sys2Proof
end

