-- ==== Sys2Proof/Laws/Memory.lean ====
section
/-! SUPPORT. What memory operations do to one byte, for every memory, and that they keep the canonical form. -/

namespace Sys2Proof.Machine

/-! ### Cells -/

theorem cellAt_dropCells (lo hi : Nat) (cs : List Host.Cell) (a : Nat) :
    cellAt (dropCells lo hi cs) a = if lo ≤ a ∧ a < hi then none else cellAt cs a := by
  induction cs with
  | nil => simp [dropCells, cellAt]
  | cons c cs ih =>
    simp only [dropCells, List.filter_cons] at ih ⊢
    by_cases hc : c.1 = a
    · subst hc
      by_cases h : lo ≤ c.1 ∧ c.1 < hi
      · have : (decide (c.1 < lo) || decide (hi ≤ c.1)) = false := by simp; omega
        simp [this, ih, h]
      · have : (decide (c.1 < lo) || decide (hi ≤ c.1)) = true := by simp; omega
        rw [if_neg h, if_pos this]; simp [cellAt]
    · by_cases h : (decide (c.1 < lo) || decide (hi ≤ c.1)) = true
      · rw [if_pos h]; simp [cellAt, hc, ih]
      · rw [if_neg h, ih]; simp [cellAt, hc]

theorem cellAt_insertCell (a : Nat) (b : Byte) (cs : List Host.Cell) (x : Nat) (h : cellAt cs a = none) :
    cellAt (insertCell a b cs) x = if x = a then some b else cellAt cs x := by
  induction cs with
  | nil =>
    simp only [insertCell, cellAt, eq_comm (a := a)]
  | cons c cs ih =>
    simp only [cellAt] at h
    by_cases hc : c.1 = a
    · simp [hc] at h
    simp only [hc, if_false] at h
    unfold insertCell
    split
    · simp only [cellAt]
      by_cases hx : x = a
      · simp [hx]
      · simp [hx, Ne.symm hx]
    · simp only [cellAt, ih h]
      by_cases hx : x = a
      · subst hx; simp [hc]
      · simp [hx]

theorem cellAt_eq_none_iff {cs : List Host.Cell} {a : Nat} : cellAt cs a = none ↔ ∀ c ∈ cs, c.1 ≠ a := by
  induction cs with
  | nil => simp [cellAt]
  | cons c cs ih => by_cases h : c.1 = a <;> simp [cellAt, h, ih]

theorem mem_insertCell {a : Nat} {b : Byte} {cs : List Host.Cell} {c : Host.Cell} :
    c ∈ insertCell a b cs ↔ c = (a, b) ∨ c ∈ cs := by
  induction cs with
  | nil => simp [insertCell]
  | cons d ds ih =>
    unfold insertCell
    split
    · simp
    · simp only [List.mem_cons, ih]; tauto

theorem mem_dropCells {lo hi : Nat} {cs : List Host.Cell} {c : Host.Cell} :
    c ∈ dropCells lo hi cs ↔ c ∈ cs ∧ (c.1 < lo ∨ hi ≤ c.1) := by
  simp [dropCells]

theorem dropCells_rising {lo hi : Nat} {cs : List Host.Cell} (h : cs.Pairwise (fun a b => a.1 < b.1)) :
    (dropCells lo hi cs).Pairwise (fun a b => a.1 < b.1) := h.filter _

theorem insertCell_rising {a : Nat} {b : Byte} {cs : List Host.Cell} (h : cs.Pairwise (fun a b => a.1 < b.1))
    (ha : ∀ c ∈ cs, c.1 ≠ a) : (insertCell a b cs).Pairwise (fun a b => a.1 < b.1) := by
  induction cs with
  | nil => simp [insertCell]
  | cons c cs ih =>
    obtain ⟨hc, hcs⟩ := List.pairwise_cons.mp h
    unfold insertCell
    split
    · rename_i hlt
      refine List.pairwise_cons.mpr ⟨fun d hd => ?_, h⟩
      rcases List.mem_cons.mp hd with rfl | hd
      · exact hlt
      · exact lt_trans hlt (hc d hd)
    · rename_i hge
      have hne := ha c (by simp)
      refine List.pairwise_cons.mpr ⟨fun d hd => ?_, ih hcs (fun d hd => ha d (by simp [hd]))⟩
      rcases mem_insertCell.mp hd with rfl | hd
      · simp only; omega
      · exact hc d hd

/-! ### Spans -/

theorem spanAt_append (xs ys : List Span) (a : Nat) :
    spanAt (xs ++ ys) a = (spanAt xs a).or (spanAt ys a) := by
  induction xs with
  | nil => simp [spanAt]
  | cons x xs ih => by_cases h : x.covers a = true <;> simp [spanAt, h, ih]

theorem spanAt_cut (lo hi : Nat) (sp : Span) (a : Nat) :
    (spanAt (sp.cut lo hi) a).map Span.epoch =
      if (lo ≤ a ∧ a < hi) ∨ sp.covers a = false then none else some sp.epoch := by
  unfold Span.cut
  split <;> split <;> simp only [spanAt, List.nil_append, List.cons_append, Bool.and_eq_true, decide_eq_true_eq,
    Bool.and_eq_false_iff, decide_eq_false_iff_not] <;> (repeat' split) <;> simp <;> omega

theorem spanAt_cutSpans (lo hi : Nat) (sps : List Span) (a : Nat) :
    (spanAt (cutSpans lo hi sps) a).map Span.epoch =
      if lo ≤ a ∧ a < hi then none else (spanAt sps a).map Span.epoch := by
  induction sps with
  | nil => simp [cutSpans, spanAt]
  | cons sp sps ih =>
    simp only [cutSpans, List.flatMap_cons] at ih ⊢
    rw [spanAt_append]
    have hc := spanAt_cut lo hi sp a
    by_cases h : lo ≤ a ∧ a < hi
    · simp only [h, true_or, and_self, if_true] at hc ih ⊢
      rw [Option.map_eq_none_iff] at hc ih
      simp [hc, ih]
    · simp only [h, false_or, if_false] at hc ih ⊢
      by_cases hs : sp.covers a = false
      · simp only [hs, if_true] at hc
        rw [Option.map_eq_none_iff] at hc
        simp only [hc, Option.none_or, ih, spanAt, hs]
        simp
      · rw [if_neg hs] at hc
        obtain ⟨t, ht, he⟩ := Option.map_eq_some_iff.mp hc
        simp only [Bool.not_eq_false] at hs
        rw [ht]
        simp [spanAt, hs, he]

theorem spanAt_insertSpan (sp : Span) (sps : List Span) (a : Nat)
    (h : ∀ x, sp.covers x = true → spanAt sps x = none) :
    spanAt (insertSpan sp sps) a = if sp.covers a = true then some sp else spanAt sps a := by
  induction sps with
  | nil => simp [insertSpan, spanAt]
  | cons t ts ih =>
    have ht : ∀ x, sp.covers x = true → t.covers x = false ∧ spanAt ts x = none := by
      intro x hx
      have := h x hx
      by_cases hc : t.covers x = true
      · simp [spanAt, hc] at this
      · exact ⟨by simpa using hc, by simpa [spanAt, hc] using this⟩
    unfold insertSpan
    split
    · simp [spanAt]
    · rw [spanAt, ih (fun x hx => (ht x hx).2), spanAt]
      by_cases hs : sp.covers a = true
      · simp [hs, (ht a hs).1]
      · simp [hs]

theorem covers_of_mem_cut {lo hi : Nat} {sp t : Span} (h : t ∈ sp.cut lo hi) :
    t.epoch = sp.epoch ∧ sp.base ≤ t.base ∧ t.base + t.size ≤ sp.base + sp.size ∧
      (t.base + t.size ≤ lo ∨ hi ≤ t.base) ∧ (0 < sp.size → 0 < t.size) := by
  unfold Span.cut at h
  rw [List.mem_append] at h
  rcases h with h | h
  · split at h
    · simp only [List.mem_singleton] at h; subst h; simp only
      refine ⟨trivial, le_refl _, ?_, Or.inl ?_, ?_⟩ <;> omega
    · simp at h
  · split at h
    · simp only [List.mem_singleton] at h; subst h; simp only
      refine ⟨trivial, ?_, ?_, Or.inr ?_, ?_⟩ <;> omega
    · simp at h

theorem cutSpans_rising {lo hi : Nat} {sps : List Span} (hlh : lo < hi)
    (h : sps.Pairwise (fun a b => a.base + a.size ≤ b.base)) :
    (cutSpans lo hi sps).Pairwise (fun a b => a.base + a.size ≤ b.base) := by
  induction sps with
  | nil => simp [cutSpans]
  | cons sp sps ih =>
    obtain ⟨hsp, hsps⟩ := List.pairwise_cons.mp h
    simp only [cutSpans, List.flatMap_cons] at ih ⊢
    refine List.pairwise_append.mpr ⟨?_, ih hsps, ?_⟩
    · unfold Span.cut
      split <;> split <;> simp
      omega
    · intro x hx y hy
      obtain ⟨t, ht, hy⟩ := List.mem_flatMap.mp hy
      have h1 := covers_of_mem_cut hx
      have h2 := covers_of_mem_cut hy
      have := hsp t ht
      omega

theorem mem_insertSpan {sp t : Span} {sps : List Span} : t ∈ insertSpan sp sps ↔ t = sp ∨ t ∈ sps := by
  induction sps with
  | nil => simp [insertSpan]
  | cons u us ih =>
    unfold insertSpan
    split
    · simp
    · simp only [List.mem_cons, ih]; tauto

theorem insertSpan_rising {sp : Span} {sps : List Span} (hs : 0 < sp.size)
    (h : sps.Pairwise (fun a b => a.base + a.size ≤ b.base)) (hpos : ∀ t ∈ sps, 0 < t.size)
    (hd : ∀ t ∈ sps, t.base + t.size ≤ sp.base ∨ sp.base + sp.size ≤ t.base) :
    (insertSpan sp sps).Pairwise (fun a b => a.base + a.size ≤ b.base) := by
  induction sps with
  | nil => simp [insertSpan]
  | cons t ts ih =>
    obtain ⟨ht, hts⟩ := List.pairwise_cons.mp h
    have hdt := hd t (by simp)
    have hpt := hpos t (by simp)
    unfold insertSpan
    split
    · refine List.pairwise_cons.mpr ⟨fun u hu => ?_, h⟩
      rcases List.mem_cons.mp hu with rfl | hu
      · omega
      · have := ht u hu; omega
    · refine List.pairwise_cons.mpr ⟨fun u hu => ?_, ih hts (fun u hu => hpos u (by simp [hu]))
        (fun u hu => hd u (by simp [hu]))⟩
      rcases mem_insertSpan.mp hu with rfl | hu
      · omega
      · exact ht u hu

/-! ### One byte -/

/-- Reading is decided by the cell and the epoch of the span. -/
theorem Memory.read_eq (m : Memory) (a : Nat) :
    m.read a = (cellAt m.cells a).getD
      (((spanAt m.free a).map Span.epoch).elim Config.blankByte (fun e => Config.freeByte e a)) := by
  unfold Memory.read
  cases h : cellAt m.cells a <;> cases h2 : spanAt m.free a <;> simp

/-- A byte written reads back, and no other byte changes. -/
theorem Memory.read_write (m : Memory) (a : Nat) (b : Byte) (x : Nat) :
    (m.write a b).read x = if x = a then b else m.read x := by
  have hd : cellAt (dropCells a (a + 1) m.cells) a = none := by simp [cellAt_dropCells]
  rw [Memory.read_eq, Memory.read_eq]
  simp only [Memory.write, spanAt_cutSpans]
  have hr : (a ≤ x ∧ x < a + 1) ↔ x = a := by omega
  simp only [hr]
  by_cases hb : b = Config.blankByte
  · simp only [hb, if_true, cellAt_dropCells, hr]
    by_cases hx : x = a <;> simp [hx]
  · simp only [hb, if_false, cellAt_insertCell _ _ _ _ hd, cellAt_dropCells, hr]
    by_cases hx : x = a <;> simp [hx]

@[simp] theorem Memory.read_write_self (m : Memory) (a : Nat) (b : Byte) : (m.write a b).read a = b := by
  simp [Memory.read_write]

theorem Memory.read_write_ne (m : Memory) {a x : Nat} (b : Byte) (h : x ≠ a) : (m.write a b).read x = m.read x := by
  simp [Memory.read_write, h]

/-- `clear` makes the bytes of its range blank and changes no other (R126). -/
theorem Memory.read_clear (m : Memory) (lo n x : Nat) :
    (m.clear lo n).read x = if lo ≤ x ∧ x < lo + n then Config.blankByte else m.read x := by
  unfold Memory.clear
  split
  · subst_vars; rw [if_neg (by omega)]
  · rw [Memory.read_eq, Memory.read_eq]
    simp only [spanAt_cutSpans, cellAt_dropCells]
    split <;> simp

/-- `scramble` makes the bytes of its range free values of its epoch and changes no other (U1, U2, U3). -/
theorem Memory.read_scramble (m : Memory) (lo n epoch x : Nat) :
    (m.scramble lo n epoch).read x = if lo ≤ x ∧ x < lo + n then Config.freeByte epoch x else m.read x := by
  unfold Memory.scramble
  split
  · subst_vars; rw [if_neg (by omega)]
  · have hnone : ∀ y, ({ base := lo, size := n, epoch := epoch } : Span).covers y = true →
        spanAt (cutSpans lo (lo + n) m.free) y = none := by
      intro y hy
      have := spanAt_cutSpans lo (lo + n) m.free y
      simp only [Bool.and_eq_true, decide_eq_true_eq] at hy
      rw [if_pos hy] at this
      simpa using this
    rw [Memory.read_eq, Memory.read_eq]
    simp only [spanAt_insertSpan _ _ _ hnone, cellAt_dropCells]
    by_cases h : lo ≤ x ∧ x < lo + n
    · simp [h]
    · have hc : ¬ (({ base := lo, size := n, epoch := epoch } : Span).covers x = true) := by
        simpa [Bool.and_eq_true, decide_eq_true_eq] using h
      rw [if_neg hc, spanAt_cutSpans, if_neg h, if_neg h, if_neg h]

/-! ### The canonical form is kept -/

theorem Memory.wf_empty : Memory.empty.wf := by simp [Memory.empty, Memory.wf]

/-- What every operation does to the two lists first: take a nonempty range out of both. -/
theorem Memory.wf_drop {m : Memory} (h : m.wf) {lo hi : Nat} (hlh : lo < hi) :
    ({ cells := dropCells lo hi m.cells, free := cutSpans lo hi m.free } : Memory).wf := by
  obtain ⟨h1, h2, h3, h4, h5⟩ := h
  refine ⟨dropCells_rising h1, fun c hc => h2 c (mem_dropCells.mp hc).1, cutSpans_rising hlh h3, ?_, ?_⟩
  · intro sp hsp
    obtain ⟨t, ht, hsp⟩ := List.mem_flatMap.mp hsp
    have := h4 t ht
    have := covers_of_mem_cut hsp
    exact this.2.2.2.2 (by omega)
  · intro c hc sp hsp
    obtain ⟨t, ht, hsp⟩ := List.mem_flatMap.mp hsp
    have h6 := h5 c (mem_dropCells.mp hc).1 t ht
    have := covers_of_mem_cut hsp
    simp only [Bool.and_eq_false_iff, decide_eq_false_iff_not] at h6 ⊢
    omega

theorem Memory.wf_write {m : Memory} (h : m.wf) (a : Nat) (b : Byte) : (m.write a b).wf := by
  have hd := Memory.wf_drop h (Nat.lt_succ_self a)
  unfold Memory.write
  split
  · exact hd
  · rename_i hb
    obtain ⟨h1, h2, h3, h4, h5⟩ := hd
    refine ⟨insertCell_rising h1 (fun c hc => ?_), fun c hc => ?_, h3, h4, fun c hc sp hsp => ?_⟩
    · have := (mem_dropCells.mp hc).2; omega
    · rcases mem_insertCell.mp hc with rfl | hc
      · exact hb
      · exact h2 c hc
    · rcases mem_insertCell.mp hc with rfl | hc
      · obtain ⟨t, _, hsp⟩ := List.mem_flatMap.mp hsp
        have := covers_of_mem_cut hsp
        simp only [Bool.and_eq_false_iff, decide_eq_false_iff_not]
        omega
      · exact h5 c hc sp hsp

theorem Memory.wf_clear {m : Memory} (h : m.wf) (lo n : Nat) : (m.clear lo n).wf := by
  unfold Memory.clear
  split
  · exact h
  · exact Memory.wf_drop h (by omega)

theorem Memory.wf_scramble {m : Memory} (h : m.wf) (lo n epoch : Nat) : (m.scramble lo n epoch).wf := by
  unfold Memory.scramble
  split
  · exact h
  · obtain ⟨h1, h2, h3, h4, h5⟩ := Memory.wf_drop h (show lo < lo + n by omega)
    refine ⟨h1, h2, insertSpan_rising (by simp only; omega) h3 h4 (fun t ht => ?_), ?_, ?_⟩
    · obtain ⟨u, _, ht⟩ := List.mem_flatMap.mp ht
      have := covers_of_mem_cut ht
      simp only; omega
    · intro t ht
      rcases mem_insertSpan.mp ht with rfl | ht
      · simp only; omega
      · exact h4 t ht
    · intro c hc t ht
      rcases mem_insertSpan.mp ht with rfl | ht
      · have := (mem_dropCells.mp hc).2
        simp only [Bool.and_eq_false_iff, decide_eq_false_iff_not]; omega
      · exact h5 c hc t ht

/-! ### What lies below an address stays below it -/

theorem Memory.below_empty (top : Nat) : Memory.empty.below top := by simp [Memory.empty, Memory.below]

/-- Taking a range out lists nothing new. -/
theorem Memory.below_drop {m : Memory} {top : Nat} (h : m.below top) (lo hi : Nat) :
    ({ cells := dropCells lo hi m.cells, free := cutSpans lo hi m.free } : Memory).below top := by
  refine ⟨fun c hc => h.1 c (mem_dropCells.mp hc).1, fun sp hsp => ?_⟩
  obtain ⟨t, ht, hsp⟩ := List.mem_flatMap.mp hsp
  have := h.2 t ht
  have := covers_of_mem_cut hsp
  omega

theorem Memory.below_write {m : Memory} {top a : Nat} (h : m.below top) (ha : a < top) (b : Byte) :
    (m.write a b).below top := by
  have hd := Memory.below_drop h a (a + 1)
  refine ⟨fun c hc => ?_, hd.2⟩
  simp only [Memory.write] at hc
  split at hc
  · exact hd.1 c hc
  · rcases mem_insertCell.mp hc with rfl | hc
    · exact ha
    · exact hd.1 c hc

theorem Memory.below_clear {m : Memory} {top : Nat} (h : m.below top) (lo n : Nat) : (m.clear lo n).below top := by
  unfold Memory.clear
  split
  · exact h
  · exact Memory.below_drop h lo (lo + n)

theorem Memory.below_scramble {m : Memory} {top lo n : Nat} (h : m.below top) (hn : lo + n ≤ top) (epoch : Nat) :
    (m.scramble lo n epoch).below top := by
  unfold Memory.scramble
  split
  · exact h
  · have hd := Memory.below_drop h lo (lo + n)
    refine ⟨hd.1, fun t ht => ?_⟩
    rcases mem_insertSpan.mp ht with rfl | ht
    · exact hn
    · exact hd.2 t ht

/-! ### Several bytes -/

@[simp] theorem Memory.length_readBytes (m : Memory) (a n : Nat) : (m.readBytes a n).length = n := by
  induction n generalizing a with
  | zero => rfl
  | succ n ih => simp [Memory.readBytes, ih]

theorem Memory.getElem_readBytes (m : Memory) (a n i : Nat) (h : i < (m.readBytes a n).length) :
    (m.readBytes a n)[i] = m.read (a + i) := by
  induction n generalizing a i with
  | zero => simp at h
  | succ n ih =>
    cases i with
    | zero => rfl
    | succ i =>
      simp only [Memory.readBytes, List.getElem_cons_succ]
      rw [ih]; congr 1; omega

theorem Memory.readBytes_congr {m m' : Memory} {a a' n : Nat} (h : ∀ i < n, m.read (a + i) = m'.read (a' + i)) :
    m.readBytes a n = m'.readBytes a' n := by
  refine List.ext_getElem (by simp) fun i h1 h2 => ?_
  rw [Memory.getElem_readBytes, Memory.getElem_readBytes]
  exact h i (by simpa using h1)

/-- A byte after `writeBytes`: one of those stored in the range, the old one elsewhere. -/
theorem Memory.read_writeBytes (m : Memory) (a : Nat) (bs : List Byte) (x : Nat) :
    (m.writeBytes a bs).read x = if h : a ≤ x ∧ x < a + bs.length then bs[x - a]'(by omega) else m.read x := by
  induction bs generalizing m a with
  | nil =>
    rw [dif_neg (by simp only [List.length_nil]; omega)]; rfl
  | cons b bs ih =>
    rw [Memory.writeBytes, ih]
    by_cases h1 : a + 1 ≤ x ∧ x < a + 1 + bs.length
    · rw [dif_pos h1, dif_pos (by simp; omega)]
      have : x - a = x - (a + 1) + 1 := by omega
      simp [this]
    · rw [dif_neg h1, Memory.read_write]
      by_cases hx : x = a
      · subst hx; simp
      · rw [if_neg hx, dif_neg (by simp; omega)]

theorem Memory.read_writeBytes_outside (m : Memory) {a x : Nat} (bs : List Byte) (h : x < a ∨ a + bs.length ≤ x) :
    (m.writeBytes a bs).read x = m.read x := by
  rw [Memory.read_writeBytes, dif_neg (by omega)]

theorem Memory.wf_writeBytes {m : Memory} (h : m.wf) (a : Nat) (bs : List Byte) : (m.writeBytes a bs).wf := by
  induction bs generalizing m a with
  | nil => exact h
  | cons b bs ih => exact ih (Memory.wf_write h a b) (a + 1)

theorem Memory.below_writeBytes {m : Memory} {top a : Nat} {bs : List Byte} (h : m.below top)
    (ha : a + bs.length ≤ top) : (m.writeBytes a bs).below top := by
  induction bs generalizing m a with
  | nil => exact h
  | cons b bs ih =>
    simp only [List.length_cons] at ha
    exact ih (Memory.below_write h (by omega) b) (by omega)

/-- `copyForward` changes only its destination range. -/
theorem Memory.read_copyForward_outside (m : Memory) {src dst n x : Nat} (h : x < dst ∨ dst + n ≤ x) :
    (m.copyForward src dst n).read x = m.read x := by
  induction n generalizing m src dst with
  | zero => rfl
  | succ n ih =>
    rw [Memory.copyForward, ih _ (by omega), Memory.read_write_ne _ _ (by omega)]

/-- The byte-by-byte law of R122: each destination byte is the source byte as the copy leaves it, whenever the
source lies below the destination or the ranges are disjoint. -/
theorem Memory.read_copyForward (m : Memory) {src dst n i : Nat} (hi : i < n) (h : src < dst ∨ dst + n ≤ src) :
    (m.copyForward src dst n).read (dst + i) = (m.copyForward src dst n).read (src + i) := by
  induction n generalizing m src dst i with
  | zero => omega
  | succ n ih =>
    rw [Memory.copyForward]
    cases i with
    | zero =>
      simp only [Nat.add_zero]
      rw [Memory.read_copyForward_outside _ (by omega : dst < dst + 1 ∨ dst + 1 + n ≤ dst), Memory.read_write_self,
        Memory.read_copyForward_outside _ (by omega), Memory.read_write_ne _ _ (by omega)]
    | succ i =>
      have := ih (m.write dst (m.read src)) (src := src + 1) (dst := dst + 1) (i := i) (by omega) (by omega)
      rw [show dst + (i + 1) = dst + 1 + i by omega, show src + (i + 1) = src + 1 + i by omega]
      exact this

theorem Memory.wf_copyForward {m : Memory} (h : m.wf) (src dst n : Nat) : (m.copyForward src dst n).wf := by
  induction n generalizing m src dst with
  | zero => exact h
  | succ n ih => exact ih (Memory.wf_write h dst _) (src + 1) (dst + 1)

theorem Memory.below_copyForward {m : Memory} {top src dst n : Nat} (h : m.below top) (hd : dst + n ≤ top) :
    (m.copyForward src dst n).below top := by
  induction n generalizing m src dst with
  | zero => exact h
  | succ n ih => exact ih (Memory.below_write h (by omega) _) (by omega)

/-- `tile` changes only its destination range. -/
theorem Memory.read_tile_outside (m : Memory) {dst i n x : Nat} (pat : List Byte) (h : x < dst ∨ dst + n ≤ x) :
    (m.tile dst pat i n).read x = m.read x := by
  induction n generalizing m dst i with
  | zero => rfl
  | succ n ih => rw [Memory.tile, ih _ (by omega), Memory.read_write_ne _ _ (by omega)]

/-- The bytes of `tile` (R124). -/
theorem Memory.read_tile (m : Memory) {dst i n k : Nat} (pat : List Byte) (hk : k < n) :
    (m.tile dst pat i n).read (dst + k) = pat.getD ((i + k) % Config.patternBytes) 0#8 := by
  induction n generalizing m dst i k with
  | zero => omega
  | succ n ih =>
    rw [Memory.tile]
    cases k with
    | zero =>
      simp only [Nat.add_zero]
      rw [Memory.read_tile_outside _ _ (by omega : dst < dst + 1 ∨ dst + 1 + n ≤ dst), Memory.read_write_self]
    | succ k =>
      have := ih (m.write dst (pat.getD (i % Config.patternBytes) 0#8)) (dst := dst + 1) (i := i + 1) (k := k)
        (by omega)
      rw [show dst + (k + 1) = dst + 1 + k by omega, this, show i + 1 + k = i + (k + 1) by omega]

theorem Memory.wf_tile {m : Memory} (h : m.wf) (dst : Nat) (pat : List Byte) (i n : Nat) :
    (m.tile dst pat i n).wf := by
  induction n generalizing m dst i with
  | zero => exact h
  | succ n ih => exact ih (Memory.wf_write h dst _) (dst + 1) (i + 1)

theorem Memory.below_tile {m : Memory} {top dst i n : Nat} (pat : List Byte) (h : m.below top)
    (hd : dst + n ≤ top) : (m.tile dst pat i n).below top := by
  induction n generalizing m dst i with
  | zero => exact h
  | succ n ih => exact ih (Memory.below_write h (by omega) _) (by omega)

/-! ### Little-endian values (R52) -/

@[simp] theorem length_leBytes (v n : Nat) : (leBytes v n).length = n := by
  induction n generalizing v with
  | zero => rfl
  | succ n ih => simp [leBytes, ih]

theorem leValue_leBytes (v n : Nat) : leValue (leBytes v n) = v % 256 ^ n := by
  induction n generalizing v with
  | zero => simp [leBytes, leValue, Nat.mod_one]
  | succ n ih =>
    simp only [leBytes, leValue, ih, BitVec.toNat_ofNat]
    rw [show (256 : Nat) ^ (n + 1) = 256 * 256 ^ n by ring, Nat.mod_mul]

theorem Memory.readLE_congr {m m' : Memory} {a n : Nat} (h : ∀ i < n, m.read (a + i) = m'.read (a + i)) :
    m.readLE a n = m'.readLE a n := by
  unfold Memory.readLE
  rw [Memory.readBytes_congr h]

/-- A value stored reads back, cut to the bytes stored. -/
theorem Memory.readLE_writeLE (m : Memory) (a n v : Nat) : (m.writeLE a n v).readLE a n = v % 256 ^ n := by
  unfold Memory.readLE Memory.writeLE
  have : (m.writeBytes a (leBytes v n)).readBytes a n = leBytes v n := by
    refine List.ext_getElem (by simp) fun i h1 h2 => ?_
    rw [Memory.getElem_readBytes, Memory.read_writeBytes, dif_pos (by simp at h2; simp; omega)]
    simp
  rw [this, leValue_leBytes]

theorem Memory.readLE_writeLE_outside (m : Memory) {a n v x k : Nat} (h : x + k ≤ a ∨ a + n ≤ x) :
    (m.writeLE a n v).readLE x k = m.readLE x k := by
  refine Memory.readLE_congr fun i hi => ?_
  exact Memory.read_writeBytes_outside _ _ (by simp; omega)

end Sys2Proof.Machine
end

