-- ==== Sys2Proof/Laws/State.lean ====
section
/-! SUPPORT. One lemma per field per named update of State, so that no proof unfolds an update; and what the ways
a command ends do to memory. -/

namespace Sys2Proof.Machine

/-! ### raise -/

@[simp] theorem State.raise_run (cfg : Config) (s : State) (st : Status) : (s.raise cfg st).run = .idle := rfl
@[simp] theorem State.raise_desc (cfg : Config) (s : State) (st : Status) : (s.raise cfg st).desc = s.desc := rfl
@[simp] theorem State.raise_result (cfg : Config) (s : State) (st : Status) : (s.raise cfg st).result = st.code cfg := rfl
@[simp] theorem State.raise_resultValid (cfg : Config) (s : State) (st : Status) : (s.raise cfg st).resultValid = true := rfl
@[simp] theorem State.raise_enc (cfg : Config) (s : State) (st : Status) : (s.raise cfg st).enc = s.enc := rfl
@[simp] theorem State.raise_dec (cfg : Config) (s : State) (st : Status) : (s.raise cfg st).dec = s.dec := rfl
@[simp] theorem State.raise_mem (cfg : Config) (s : State) (st : Status) : (s.raise cfg st).mem = s.mem := rfl
@[simp] theorem State.raise_host (cfg : Config) (s : State) (st : Status) : (s.raise cfg st).host = s.host := rfl
@[simp] theorem State.raise_rdata (cfg : Config) (s : State) (st : Status) : (s.raise cfg st).rdata = s.rdata := rfl
@[simp] theorem State.raise_duty (cfg : Config) (s : State) (st : Status) : (s.raise cfg st).duty = s.duty := rfl
@[simp] theorem State.raise_freeCtr (cfg : Config) (s : State) (st : Status) : (s.raise cfg st).freeCtr = s.freeCtr := rfl

/-! ### finish -/

@[simp] theorem State.finish_run (s : State) (n : Nat) : (s.finish n).run = .idle := rfl
@[simp] theorem State.finish_desc (s : State) (n : Nat) : (s.finish n).desc = s.desc := rfl
@[simp] theorem State.finish_result (s : State) (n : Nat) : (s.finish n).result = countWord n := rfl
@[simp] theorem State.finish_resultValid (s : State) (n : Nat) : (s.finish n).resultValid = true := rfl
@[simp] theorem State.finish_enc (s : State) (n : Nat) : (s.finish n).enc = s.enc := rfl
@[simp] theorem State.finish_dec (s : State) (n : Nat) : (s.finish n).dec = s.dec := rfl
@[simp] theorem State.finish_mem (s : State) (n : Nat) : (s.finish n).mem = s.mem := rfl
@[simp] theorem State.finish_host (s : State) (n : Nat) : (s.finish n).host = s.host := rfl
@[simp] theorem State.finish_rdata (s : State) (n : Nat) : (s.finish n).rdata = s.rdata := rfl
@[simp] theorem State.finish_duty (s : State) (n : Nat) : (s.finish n).duty = s.duty := rfl
@[simp] theorem State.finish_freeCtr (s : State) (n : Nat) : (s.finish n).freeCtr = s.freeCtr := rfl

/-! ### scramble -/

@[simp] theorem State.scramble_run (s : State) (lo n : Nat) : (s.scramble lo n).run = s.run := rfl
@[simp] theorem State.scramble_desc (s : State) (lo n : Nat) : (s.scramble lo n).desc = s.desc := rfl
@[simp] theorem State.scramble_result (s : State) (lo n : Nat) : (s.scramble lo n).result = s.result := rfl
@[simp] theorem State.scramble_resultValid (s : State) (lo n : Nat) : (s.scramble lo n).resultValid = s.resultValid := rfl
@[simp] theorem State.scramble_enc (s : State) (lo n : Nat) : (s.scramble lo n).enc = s.enc := rfl
@[simp] theorem State.scramble_dec (s : State) (lo n : Nat) : (s.scramble lo n).dec = s.dec := rfl
@[simp] theorem State.scramble_mem (s : State) (lo n : Nat) : (s.scramble lo n).mem = s.mem.scramble lo n s.freeCtr := rfl
@[simp] theorem State.scramble_host (s : State) (lo n : Nat) : (s.scramble lo n).host = s.host := rfl
@[simp] theorem State.scramble_rdata (s : State) (lo n : Nat) : (s.scramble lo n).rdata = s.rdata := rfl
@[simp] theorem State.scramble_duty (s : State) (lo n : Nat) : (s.scramble lo n).duty = s.duty := rfl
@[simp] theorem State.scramble_freeCtr (s : State) (lo n : Nat) : (s.scramble lo n).freeCtr = s.freeCtr + 1 := rfl

/-! ### scrambleOut -/

@[simp] theorem State.scrambleOut_run (s : State) (k : Nat) : (s.scrambleOut k).run = s.run := rfl
@[simp] theorem State.scrambleOut_desc (s : State) (k : Nat) : (s.scrambleOut k).desc = s.desc := rfl
@[simp] theorem State.scrambleOut_result (s : State) (k : Nat) : (s.scrambleOut k).result = s.result := rfl
@[simp] theorem State.scrambleOut_resultValid (s : State) (k : Nat) : (s.scrambleOut k).resultValid = s.resultValid := rfl
@[simp] theorem State.scrambleOut_enc (s : State) (k : Nat) : (s.scrambleOut k).enc = s.enc := rfl
@[simp] theorem State.scrambleOut_dec (s : State) (k : Nat) : (s.scrambleOut k).dec = s.dec := rfl
@[simp] theorem State.scrambleOut_mem (s : State) (k : Nat) : (s.scrambleOut k).mem = s.mem.scramble (s.desc.outBase + k) (s.desc.outCap.toNat - k) s.freeCtr := rfl
@[simp] theorem State.scrambleOut_host (s : State) (k : Nat) : (s.scrambleOut k).host = s.host := rfl
@[simp] theorem State.scrambleOut_rdata (s : State) (k : Nat) : (s.scrambleOut k).rdata = s.rdata := rfl
@[simp] theorem State.scrambleOut_duty (s : State) (k : Nat) : (s.scrambleOut k).duty = s.duty := rfl
@[simp] theorem State.scrambleOut_freeCtr (s : State) (k : Nat) : (s.scrambleOut k).freeCtr = s.freeCtr + 1 := rfl

/-! ### scrambleScratch -/

@[simp] theorem State.scrambleScratch_run (s : State) : (s.scrambleScratch).run = s.run := rfl
@[simp] theorem State.scrambleScratch_desc (s : State) : (s.scrambleScratch).desc = s.desc := rfl
@[simp] theorem State.scrambleScratch_result (s : State) : (s.scrambleScratch).result = s.result := rfl
@[simp] theorem State.scrambleScratch_resultValid (s : State) : (s.scrambleScratch).resultValid = s.resultValid := rfl
@[simp] theorem State.scrambleScratch_enc (s : State) : (s.scrambleScratch).enc = s.enc := rfl
@[simp] theorem State.scrambleScratch_dec (s : State) : (s.scrambleScratch).dec = s.dec := rfl
@[simp] theorem State.scrambleScratch_mem (s : State) : (s.scrambleScratch).mem = s.mem.scramble s.desc.stateBase Config.scratchBytes s.freeCtr := rfl
@[simp] theorem State.scrambleScratch_host (s : State) : (s.scrambleScratch).host = s.host := rfl
@[simp] theorem State.scrambleScratch_rdata (s : State) : (s.scrambleScratch).rdata = s.rdata := rfl
@[simp] theorem State.scrambleScratch_duty (s : State) : (s.scrambleScratch).duty = s.duty := rfl
@[simp] theorem State.scrambleScratch_freeCtr (s : State) : (s.scrambleScratch).freeCtr = s.freeCtr + 1 := rfl

/-! ### failDecode -/

@[simp] theorem State.failDecode_run (cfg : Config) (s : State) (st : Status) : (s.failDecode cfg st).run = .idle := rfl
@[simp] theorem State.failDecode_desc (cfg : Config) (s : State) (st : Status) : (s.failDecode cfg st).desc = s.desc := rfl
@[simp] theorem State.failDecode_result (cfg : Config) (s : State) (st : Status) : (s.failDecode cfg st).result = st.code cfg := rfl
@[simp] theorem State.failDecode_resultValid (cfg : Config) (s : State) (st : Status) : (s.failDecode cfg st).resultValid = true := rfl
@[simp] theorem State.failDecode_enc (cfg : Config) (s : State) (st : Status) : (s.failDecode cfg st).enc = s.enc := rfl
@[simp] theorem State.failDecode_dec (cfg : Config) (s : State) (st : Status) : (s.failDecode cfg st).dec = s.dec := rfl
@[simp] theorem State.failDecode_mem (cfg : Config) (s : State) (st : Status) : (s.failDecode cfg st).mem = (s.scrambleOut 0).mem := rfl
@[simp] theorem State.failDecode_host (cfg : Config) (s : State) (st : Status) : (s.failDecode cfg st).host = s.host := rfl
@[simp] theorem State.failDecode_rdata (cfg : Config) (s : State) (st : Status) : (s.failDecode cfg st).rdata = s.rdata := rfl
@[simp] theorem State.failDecode_duty (cfg : Config) (s : State) (st : Status) : (s.failDecode cfg st).duty = s.duty := rfl
@[simp] theorem State.failDecode_freeCtr (cfg : Config) (s : State) (st : Status) : (s.failDecode cfg st).freeCtr = s.freeCtr + 1 := rfl

/-! ### finishDecode -/

@[simp] theorem State.finishDecode_run (s : State) (n : Nat) : (s.finishDecode n).run = .idle := rfl
@[simp] theorem State.finishDecode_desc (s : State) (n : Nat) : (s.finishDecode n).desc = s.desc := rfl
@[simp] theorem State.finishDecode_result (s : State) (n : Nat) : (s.finishDecode n).result = countWord n := rfl
@[simp] theorem State.finishDecode_resultValid (s : State) (n : Nat) : (s.finishDecode n).resultValid = true := rfl
@[simp] theorem State.finishDecode_enc (s : State) (n : Nat) : (s.finishDecode n).enc = s.enc := rfl
@[simp] theorem State.finishDecode_dec (s : State) (n : Nat) : (s.finishDecode n).dec = s.dec := rfl
@[simp] theorem State.finishDecode_mem (s : State) (n : Nat) : (s.finishDecode n).mem = (s.scrambleOut n).mem := rfl
@[simp] theorem State.finishDecode_host (s : State) (n : Nat) : (s.finishDecode n).host = s.host := rfl
@[simp] theorem State.finishDecode_rdata (s : State) (n : Nat) : (s.finishDecode n).rdata = s.rdata := rfl
@[simp] theorem State.finishDecode_duty (s : State) (n : Nat) : (s.finishDecode n).duty = s.duty := rfl
@[simp] theorem State.finishDecode_freeCtr (s : State) (n : Nat) : (s.finishDecode n).freeCtr = s.freeCtr + 1 := rfl

/-! ### finishEncode -/

@[simp] theorem State.finishEncode_run (s : State) (n : Nat) : (s.finishEncode n).run = .idle := rfl
@[simp] theorem State.finishEncode_desc (s : State) (n : Nat) : (s.finishEncode n).desc = s.desc := rfl
@[simp] theorem State.finishEncode_result (s : State) (n : Nat) : (s.finishEncode n).result = countWord n := rfl
@[simp] theorem State.finishEncode_resultValid (s : State) (n : Nat) : (s.finishEncode n).resultValid = true := rfl
@[simp] theorem State.finishEncode_enc (s : State) (n : Nat) : (s.finishEncode n).enc = s.enc := rfl
@[simp] theorem State.finishEncode_dec (s : State) (n : Nat) : (s.finishEncode n).dec = s.dec := rfl
@[simp] theorem State.finishEncode_mem (s : State) (n : Nat) : (s.finishEncode n).mem = (s.scrambleOut n).scrambleScratch.mem := rfl
@[simp] theorem State.finishEncode_host (s : State) (n : Nat) : (s.finishEncode n).host = s.host := rfl
@[simp] theorem State.finishEncode_rdata (s : State) (n : Nat) : (s.finishEncode n).rdata = s.rdata := rfl
@[simp] theorem State.finishEncode_duty (s : State) (n : Nat) : (s.finishEncode n).duty = s.duty := rfl
@[simp] theorem State.finishEncode_freeCtr (s : State) (n : Nat) : (s.finishEncode n).freeCtr = s.freeCtr + 2 := rfl

/-! ### giveUpEncode -/

@[simp] theorem State.giveUpEncode_run (s : State) : (s.giveUpEncode).run = .idle := rfl
@[simp] theorem State.giveUpEncode_desc (s : State) : (s.giveUpEncode).desc = s.desc := rfl
@[simp] theorem State.giveUpEncode_result (s : State) : (s.giveUpEncode).result = countWord 0 := rfl
@[simp] theorem State.giveUpEncode_resultValid (s : State) : (s.giveUpEncode).resultValid = true := rfl
@[simp] theorem State.giveUpEncode_enc (s : State) : (s.giveUpEncode).enc = s.enc := rfl
@[simp] theorem State.giveUpEncode_dec (s : State) : (s.giveUpEncode).dec = s.dec := rfl
@[simp] theorem State.giveUpEncode_mem (s : State) : (s.giveUpEncode).mem = (s.scrambleOut 0).scrambleScratch.mem := rfl
@[simp] theorem State.giveUpEncode_host (s : State) : (s.giveUpEncode).host = s.host := rfl
@[simp] theorem State.giveUpEncode_rdata (s : State) : (s.giveUpEncode).rdata = s.rdata := rfl
@[simp] theorem State.giveUpEncode_duty (s : State) : (s.giveUpEncode).duty = s.duty := rfl
@[simp] theorem State.giveUpEncode_freeCtr (s : State) : (s.giveUpEncode).freeCtr = s.freeCtr + 2 := rfl

/-! ### checkStart -/

@[simp] theorem State.checkStart_run (s : State) (used : List RegName) : (s.checkStart used).run = s.run := rfl
@[simp] theorem State.checkStart_desc (s : State) (used : List RegName) : (s.checkStart used).desc = s.desc := rfl
@[simp] theorem State.checkStart_result (s : State) (used : List RegName) : (s.checkStart used).result = s.result := rfl
@[simp] theorem State.checkStart_resultValid (s : State) (used : List RegName) : (s.checkStart used).resultValid = s.resultValid := rfl
@[simp] theorem State.checkStart_enc (s : State) (used : List RegName) : (s.checkStart used).enc = s.enc := rfl
@[simp] theorem State.checkStart_dec (s : State) (used : List RegName) : (s.checkStart used).dec = s.dec := rfl
@[simp] theorem State.checkStart_mem (s : State) (used : List RegName) : (s.checkStart used).mem = s.mem := rfl
@[simp] theorem State.checkStart_host (s : State) (used : List RegName) : (s.checkStart used).host = s.host := rfl
@[simp] theorem State.checkStart_rdata (s : State) (used : List RegName) : (s.checkStart used).rdata = s.rdata := rfl
@[simp] theorem State.checkStart_freeCtr (s : State) (used : List RegName) : (s.checkStart used).freeCtr = s.freeCtr := rfl
@[simp] theorem State.checkStart_duty (s : State) (used : List RegName) : (s.checkStart used).duty = s.duty.check used := rfl

/-! ### readReg -/

@[simp] theorem State.readReg_run (s : State) (r : RegName) : (s.readReg r).run = s.run := by
  unfold State.readReg; split <;> rfl
@[simp] theorem State.readReg_desc (s : State) (r : RegName) : (s.readReg r).desc = s.desc := by
  unfold State.readReg; split <;> rfl
@[simp] theorem State.readReg_result (s : State) (r : RegName) : (s.readReg r).result = s.result := by
  unfold State.readReg; split <;> rfl
@[simp] theorem State.readReg_resultValid (s : State) (r : RegName) : (s.readReg r).resultValid = s.resultValid := by
  unfold State.readReg; split <;> rfl
@[simp] theorem State.readReg_enc (s : State) (r : RegName) : (s.readReg r).enc = s.enc := by
  unfold State.readReg; split <;> rfl
@[simp] theorem State.readReg_dec (s : State) (r : RegName) : (s.readReg r).dec = s.dec := by
  unfold State.readReg; split <;> rfl
@[simp] theorem State.readReg_mem (s : State) (r : RegName) : (s.readReg r).mem = s.mem := by
  unfold State.readReg; split <;> rfl
@[simp] theorem State.readReg_host (s : State) (r : RegName) : (s.readReg r).host = s.host := by
  unfold State.readReg; split <;> rfl

/-- Everything a read of a register can do beside the fields it leaves (R24, R35; log 14). -/
theorem State.readReg_cases (s : State) (r : RegName) :
    (r = .result ∧ s.resultValid = false ∧ (s.readReg r).rdata = (Config.freeRead s.freeCtr).toInt ∧
      (s.readReg r).duty = { s.duty with broken := true } ∧ (s.readReg r).freeCtr = s.freeCtr + 1) ∨
    ((r = .result → s.resultValid = true) ∧ (s.readReg r).rdata = s.regValue r ∧
      (s.readReg r).duty = s.duty.check [r] ∧ (s.readReg r).freeCtr = s.freeCtr) := by
  unfold State.readReg
  split
  · next h => exact .inl ⟨h.1, h.2, rfl, rfl, rfl⟩
  · next h => exact .inr ⟨fun hr => by simpa [hr] using h, rfl, rfl, rfl⟩

/-! ### resetEngine -/

@[simp] theorem State.resetEngine_run (s : State) : (s.resetEngine).run = .idle := rfl
@[simp] theorem State.resetEngine_desc (s : State) : (s.resetEngine).desc = .reset := rfl
@[simp] theorem State.resetEngine_result (s : State) : (s.resetEngine).result = 0 := rfl
@[simp] theorem State.resetEngine_resultValid (s : State) : (s.resetEngine).resultValid = false := rfl
@[simp] theorem State.resetEngine_enc (s : State) : (s.resetEngine).enc = .reset := rfl
@[simp] theorem State.resetEngine_dec (s : State) : (s.resetEngine).dec = .reset := rfl
@[simp] theorem State.resetEngine_mem (s : State) : (s.resetEngine).mem = s.abandon.mem := rfl
@[simp] theorem State.resetEngine_host (s : State) : (s.resetEngine).host = s.host := rfl
@[simp] theorem State.resetEngine_rdata (s : State) : (s.resetEngine).rdata = s.rdata := rfl
@[simp] theorem State.resetEngine_duty (s : State) : (s.resetEngine).duty = { HostDuty.reset with broken := s.duty.broken } := rfl
@[simp] theorem State.resetEngine_freeCtr (s : State) : (s.resetEngine).freeCtr = s.abandon.freeCtr := rfl

/-! ### The host's duty (R35, R301; log 23) -/

@[simp] theorem HostDuty.mark_broken (d : HostDuty) (r : RegName) : (d.mark r).broken = d.broken := rfl
@[simp] theorem HostDuty.check_unwritten (d : HostDuty) (used : List RegName) :
    (d.check used).unwritten = d.unwritten := rfl

/-- A host write takes its register, and no other, out of the unwritten ones. -/
theorem HostDuty.mem_mark {d : HostDuty} {r r' : RegName} :
    r' ∈ (d.mark r).unwritten ↔ r' ∈ d.unwritten ∧ r' ≠ r := by simp [HostDuty.mark]

/-- A check breaks the duty exactly when a register used is unwritten. -/
theorem HostDuty.check_broken {d : HostDuty} {used : List RegName} :
    (d.check used).broken = true ↔ d.broken = true ∨ ∃ r ∈ used, r ∈ d.unwritten := by simp [HostDuty.check]

/-! ### Bytes after a command's end -/

/-- Unspecified bytes from `OUT[k]` to the end of OUT; every other byte as before (U1, U2). -/
theorem State.read_scrambleOut (s : State) (k a : Nat) :
    (s.scrambleOut k).mem.read a =
      if s.outAddr k ≤ a ∧ a < s.outAddr k + (s.desc.outCap.toNat - k) then Config.freeByte s.freeCtr a
      else s.mem.read a := Memory.read_scramble ..

/-- Unspecified bytes of STATE; every other byte as before (U3). -/
theorem State.read_scrambleScratch (s : State) (a : Nat) :
    s.scrambleScratch.mem.read a =
      if s.scratchRegion.covers a then Config.freeByte s.freeCtr a else s.mem.read a := by
  rw [State.scrambleScratch_mem, Memory.read_scramble]
  simp [State.scratchRegion]

/-- Outside OUT nothing changes when OUT's end becomes unspecified. -/
theorem State.read_scrambleOut_outside (s : State) (k : Nat) {a : Nat} (h : s.outRegion.covers a = false) :
    (s.scrambleOut k).mem.read a = s.mem.read a := by
  rw [State.read_scrambleOut, if_neg]
  simp only [State.outRegion, Bool.and_eq_false_iff, decide_eq_false_iff_not] at h
  unfold State.outAddr
  omega

/-- Below `OUT[k]` nothing changes when OUT becomes unspecified from `k` on. -/
theorem State.outByte_scrambleOut_below (s : State) {k i : Nat} (h : i < k) :
    (s.scrambleOut k).outByte i = s.outByte i := by
  unfold State.outByte
  rw [show (s.scrambleOut k).outAddr i = s.outAddr i from rfl, State.read_scrambleOut, if_neg]
  unfold State.outAddr
  omega

/-- From `OUT[k]` on, the bytes of OUT are free values. -/
theorem State.outByte_scrambleOut_from (s : State) {k i : Nat} (h : k ≤ i) (hi : i < s.desc.outCap.toNat) :
    (s.scrambleOut k).outByte i = Config.freeByte s.freeCtr (s.outAddr i) := by
  unfold State.outByte
  rw [show (s.scrambleOut k).outAddr i = s.outAddr i from rfl, State.read_scrambleOut, if_pos]
  unfold State.outAddr
  omega

/-- A byte count below `2^31` is the signed value of `RESULT` (R24). -/
theorem toInt_countWord {n : Nat} (h : n < 2 ^ 31) : (countWord n).toInt = n := by
  unfold countWord
  rw [if_pos h, BitVec.toInt_eq_toNat_of_lt]
  · simp; omega
  · simp; omega

/-- INCOMPRESSIBLE is the count 0 (R14, R16). -/
@[simp] theorem countWord_zero : countWord 0 = 0 := rfl

end Sys2Proof.Machine
end

