-- ==== Sys2Proof/Laws/Slots.lean ====
section
/-! SUPPORT. Regions and hash slots: what the region checks say of addresses, and that a slot write changes that
slot and nothing outside its two bytes. -/

namespace Sys2Proof.Machine

/-- R51, R50: what DECODE's region check says. -/
theorem decodeRegionsOk_iff (cfg : Config) (s : State) : s.decodeRegionsOk cfg = true ↔
    s.desc.inBase + s.desc.inLen.toNat ≤ 2 ^ cfg.addrBits ∧
    s.desc.outBase + s.desc.outCap.toNat ≤ 2 ^ cfg.addrBits ∧
    (s.desc.inBase + s.desc.inLen.toNat ≤ s.desc.outBase ∨
      s.desc.outBase + s.desc.outCap.toNat ≤ s.desc.inBase) := by
  unfold State.decodeRegionsOk
  rw [Bool.and_eq_true, Bool.and_eq_true, Bool.or_eq_true, and_assoc]
  exact Iff.and decide_eq_true_iff (Iff.and decide_eq_true_iff (Iff.or decide_eq_true_iff decide_eq_true_iff))

/-- R51, R50: what ENCODE's region check says besides. -/
theorem encodeRegionsOk_iff (cfg : Config) (s : State) : s.encodeRegionsOk cfg = true ↔
    s.decodeRegionsOk cfg = true ∧ s.desc.stateBase + Config.scratchBytes ≤ 2 ^ cfg.addrBits ∧
    (s.desc.stateBase + Config.scratchBytes ≤ s.desc.inBase ∨
      s.desc.inBase + s.desc.inLen.toNat ≤ s.desc.stateBase) ∧
    (s.desc.stateBase + Config.scratchBytes ≤ s.desc.outBase ∨
      s.desc.outBase + s.desc.outCap.toNat ≤ s.desc.stateBase) := by
  unfold State.encodeRegionsOk
  rw [Bool.and_eq_true, Bool.and_eq_true, Bool.and_eq_true, Bool.or_eq_true, Bool.or_eq_true, and_assoc, and_assoc]
  exact Iff.and Iff.rfl (Iff.and decide_eq_true_iff (Iff.and (Iff.or decide_eq_true_iff decide_eq_true_iff)
    (Iff.or decide_eq_true_iff decide_eq_true_iff)))

/-- The two bytes of a slot lie in STATE (R56). -/
theorem slotAddr_bounds (s : State) (k : SlotIx) :
    s.desc.stateBase ≤ s.slotAddr k ∧ s.slotAddr k + 2 ≤ s.desc.stateBase + Config.scratchBytes := by
  have := k.isLt
  simp only [State.slotAddr, Config.scratchBytes]
  omega

/-- A slot write changes only the slot's two bytes. -/
theorem read_withSlot_outside (s : State) (k : SlotIx) (v : Nat) {a : Nat}
    (h : a < s.slotAddr k ∨ s.slotAddr k + 2 ≤ a) : (s.withSlot k v).read a = s.mem.read a :=
  Memory.read_writeBytes_outside _ _ (by simpa using h)

/-- A slot write leaves everything outside STATE alone. -/
theorem read_withSlot_outside_scratch (s : State) (k : SlotIx) (v : Nat) {a : Nat}
    (h : s.scratchRegion.covers a = false) : (s.withSlot k v).read a = s.mem.read a := by
  refine read_withSlot_outside s k v ?_
  have := slotAddr_bounds s k
  simp only [State.scratchRegion, Bool.and_eq_false_iff, decide_eq_false_iff_not] at h
  omega

/-- The canonical form is kept by a slot write. -/
theorem wf_withSlot {s : State} (h : s.mem.wf) (k : SlotIx) (v : Nat) : (s.withSlot k v).wf :=
  Memory.wf_writeBytes h _ _

/-- A slot write lists nothing above STATE's end. -/
theorem below_withSlot {s : State} {top : Nat} (h : s.mem.below top) (k : SlotIx) (v : Nat)
    (hs : s.desc.stateBase + Config.scratchBytes ≤ top) : (s.withSlot k v).below top := by
  have := slotAddr_bounds s k
  exact Memory.below_writeBytes h (by simp; omega)

end Sys2Proof.Machine
end

