-- ==== Sys2Proof/Laws/Encoder.lean ====
section
/-! SUPPORT. Match extension, what reads of IN and of slots depend on, and what a write of OUT leaves. -/

namespace Sys2Proof.Machine

/-- R119, everything the forward loop can do: it stops at the first mismatch or after `n` indices. -/
theorem extendFrom_spec (s : State) (off j n : Nat) :
    j ≤ s.extendFrom off j n ∧ s.extendFrom off j n ≤ j + n ∧
    (∀ i, j ≤ i → i < s.extendFrom off j n → s.inByte i = s.inByte (i - off)) ∧
    (s.extendFrom off j n = j + n ∨
      s.inByte (s.extendFrom off j n) ≠ s.inByte (s.extendFrom off j n - off)) := by
  induction n generalizing j with
  | zero =>
    simp only [State.extendFrom]
    exact ⟨Nat.le_refl _, Nat.le_refl _, fun i h1 h2 => absurd h2 (by omega), .inl rfl⟩
  | succ n ih =>
    simp only [State.extendFrom]
    split
    · next h =>
      obtain ⟨a, b, c, d⟩ := ih (j + 1)
      refine ⟨by omega, by omega, fun i h1 h2 => ?_, d.imp (fun d => by omega) id⟩
      by_cases hij : i = j
      · exact hij ▸ h
      · exact c i (by omega) h2
    · next h => exact ⟨Nat.le_refl _, by omega, fun i h1 h2 => absurd h2 (by omega), .inr h⟩

/-- R120, everything the backward loop can do: it stops at the first mismatch below or after `n` bytes. -/
theorem agreeBelow_spec (s : State) {a c n : Nat} (ha : n ≤ a) (hc : n ≤ c) :
    s.agreeBelow a c n ≤ n ∧
    (∀ j, 1 ≤ j → j ≤ s.agreeBelow a c n → s.inByte (a - j) = s.inByte (c - j)) ∧
    (s.agreeBelow a c n = n ∨
      s.inByte (a - (s.agreeBelow a c n + 1)) ≠ s.inByte (c - (s.agreeBelow a c n + 1))) := by
  induction n generalizing a c with
  | zero =>
    simp only [State.agreeBelow]
    exact ⟨Nat.le_refl _, fun j h1 h2 => absurd h2 (by omega), .inl trivial⟩
  | succ n ih =>
    simp only [State.agreeBelow]
    split
    · next h =>
      obtain ⟨x, y, z⟩ := ih (a := a - 1) (c := c - 1) (by omega) (by omega)
      refine ⟨by omega, fun j h1 h2 => ?_, z.imp (fun z => by omega) fun z => ?_⟩
      · by_cases hj : j = 1
        · exact hj ▸ h
        · have := y (j - 1) (by omega) (by omega)
          rwa [show a - 1 - (j - 1) = a - j by omega, show c - 1 - (j - 1) = c - j by omega] at this
      · rwa [show a - 1 - (s.agreeBelow (a - 1) (c - 1) n + 1) = a - (s.agreeBelow (a - 1) (c - 1) n + 1 + 1) by omega,
          show c - 1 - (s.agreeBelow (a - 1) (c - 1) n + 1) = c - (s.agreeBelow (a - 1) (c - 1) n + 1 + 1) by omega] at z
    · next h => exact ⟨by omega, fun j h1 h2 => absurd h2 (by omega), .inr h⟩

/-- A slot depends on the bytes of STATE only (R56). -/
theorem slot_congr {s t : State} (hd : t.desc = s.desc)
    (h : ∀ a, s.scratchRegion.covers a = true → t.mem.read a = s.mem.read a) (k : SlotIx) : t.slot k = s.slot k := by
  unfold State.slot State.slotAddr
  rw [hd]
  refine Memory.readLE_congr fun i hi => h _ ?_
  have := slotAddr_bounds s k
  unfold State.slotAddr at this
  simp only [State.scratchRegion, Bool.and_eq_true, decide_eq_true_eq]
  omega

/-- A byte of the input depends on the bytes of IN only (R33). -/
theorem inByte_congr {s t : State} (hd : t.desc = s.desc)
    (h : ∀ a, s.inRegion.covers a = true → t.mem.read a = s.mem.read a) {i : Nat} (hi : i < s.desc.inLen.toNat) :
    t.inByte i = s.inByte i := by
  unfold State.inByte State.inAddr
  rw [hd]
  refine h _ ?_
  simp only [State.inRegion, Bool.and_eq_true, decide_eq_true_eq]
  omega

/-- Bytes stored inside OUT leave IN and STATE alone, when the regions are valid (R51, R58). -/
theorem read_withOutBytes_outside {cfg : Config} {s : State} (hr : s.encodeRegionsOk cfg = true) {i : Nat} {bs : List Byte}
    (hb : i + bs.length ≤ s.desc.outCap.toNat) {a : Nat}
    (ha : s.inRegion.covers a = true ∨ s.scratchRegion.covers a = true) :
    (s.withOutBytes i bs).read a = s.mem.read a := by
  have h1 := (encodeRegionsOk_iff cfg s).1 hr
  have h2 := (decodeRegionsOk_iff cfg s).1 h1.1
  refine Memory.read_writeBytes_outside _ _ ?_
  simp only [State.inRegion, State.scratchRegion, Bool.and_eq_true, decide_eq_true_eq] at ha
  unfold State.outAddr
  omega

/-- R146, R172: the bytes EMIT writes are as many as the cost it tested. -/
theorem length_matchToken (e : Enc) {lit : List Byte} (h : lit.length = e.litLen) :
    (encodeToken (matchToken e) lit).length = tokenCost e.litLen (e.repLen - Config.repeatMin) := by
  unfold encodeToken matchToken tokenCost
  split
  · next h0 => simp [encode, h, h0, escapeCost_of_lt (show 0 < Config.nrMax by decide)]
  · simp [encode, h]

end Sys2Proof.Machine
end

