-- ==== Sys2Proof/Laws/Exec.lean ====
section
/-! SUPPORT. `exec` is the meaning for any configuration at this engine's; and what the registers a command uses are. -/

namespace Sys2Proof.Machine

/-- This engine's meanings are those of its configuration. -/
theorem exec_eq (i : Instr) (s : State) : exec i s = execWith engineConfig i s := by cases i <;> rfl

/-- The start of a command that decodes: the meaning on the state with the host's duty checked (R240, R35). -/
theorem startCommand_ok (cfg : Config) {s : State} {i : Instr} {rest : List Byte}
    (h : decode .command [s.desc.cmd] = .ok i rest) :
    startCommand cfg s = execWith cfg i (s.checkStart (registersUsed i)) := by simp [startCommand, h]

/-- Every command uses `CMD`, and none uses `RESULT`, which the host cannot write (R24, R240). -/
theorem registersUsed_command {i : Instr} (h : i.form = .command) :
    RegName.cmd ∈ registersUsed i ∧ RegName.result ∉ registersUsed i := by
  cases i <;> first | exact (Form.noConfusion h) | decide

end Sys2Proof.Machine
end

