-- ==== Sys2Proof/Laws/PerInstr.lean ====
section
/-! SUPPORT. Statements about every instruction as syntax, one lemma per constructor. -/

namespace Sys2Proof.Laws.EncodedSize

/-- The encoder gives as many bytes as the cost formula of R91 and R146 says (less the literals). -/
def Statement (i : Instr) : Prop := (encode i).length = encodedSize i

theorem eob (litLen repLen : Nat) : Statement (.eob litLen repLen) := by
  simp [Statement, encode, encodedSize]

theorem rep (off repLen : Nat) : Statement (.rep off repLen) := by
  simp [Statement, encode, encodedSize, escapeCost_of_lt (show 0 < Config.nrMax by decide)]

theorem tuple (off litLen repLen : Nat) : Statement (.tuple off litLen repLen) := by
  simp [Statement, encode, encodedSize]

theorem pattern (bytes : List Byte) : Statement (.pattern bytes) := rfl

theorem encodeCmd : Statement .encodeCmd := rfl

theorem decodeCmd : Statement .decodeCmd := rfl

theorem scratchMin : Statement .scratchMin := rfl

end Sys2Proof.Laws.EncodedSize
end

