-- ==== Sys2Proof/Laws/Spans.lean ====
section
/-! SUPPORT. The spans of unspecified bytes: every operation of memory keeps "drawn before", and the ends of the
commands keep `State.memoryOk`. -/

namespace Sys2Proof.Machine

/-- Taking a range out of spans draws no new ones. -/
theorem epoch_cutSpans {lo hi n : Nat} {sps : List Span} (h : ∀ sp ∈ sps, sp.epoch < n) :
    ∀ sp ∈ cutSpans lo hi sps, sp.epoch < n := by
  intro sp hsp
  obtain ⟨t, ht, hs⟩ := List.mem_flatMap.1 hsp
  have := h t ht
  unfold Span.cut at hs
  rw [List.mem_append] at hs
  rcases hs with hs | hs <;> split at hs <;> first
    | exact absurd hs List.not_mem_nil
    | (rw [List.mem_singleton.1 hs]; exact this)

theorem epoch_writeBytes {m : Memory} {n a : Nat} {bs : List Byte} (h : ∀ sp ∈ m.free, sp.epoch < n) :
    ∀ sp ∈ (m.writeBytes a bs).free, sp.epoch < n := by
  induction bs generalizing m a with
  | nil => exact h
  | cons b bs ih => exact ih (epoch_cutSpans h)

theorem epoch_copyForward {m : Memory} {n a b k : Nat} (h : ∀ sp ∈ m.free, sp.epoch < n) :
    ∀ sp ∈ (m.copyForward a b k).free, sp.epoch < n := by
  induction k generalizing m a b with
  | zero => exact h
  | succ k ih => exact ih (epoch_cutSpans h)

theorem epoch_tile {m : Memory} {n a i k : Nat} {pat : List Byte} (h : ∀ sp ∈ m.free, sp.epoch < n) :
    ∀ sp ∈ (m.tile a pat i k).free, sp.epoch < n := by
  induction k generalizing m a i with
  | zero => exact h
  | succ k ih => exact ih (epoch_cutSpans h)

theorem epoch_clear {m : Memory} {n a k : Nat} (h : ∀ sp ∈ m.free, sp.epoch < n) :
    ∀ sp ∈ (m.clear a k).free, sp.epoch < n := by
  unfold Memory.clear
  split
  · exact h
  · exact epoch_cutSpans h

/-- A draw takes the next epoch. -/
theorem epoch_scramble {m : Memory} {n a k : Nat} (h : ∀ sp ∈ m.free, sp.epoch < n) :
    ∀ sp ∈ (m.scramble a k n).free, sp.epoch < n + 1 := by
  intro sp hs
  unfold Memory.scramble at hs
  split at hs
  · have := h sp hs
    omega
  · simp only [mem_insertSpan] at hs
    rcases hs with rfl | hs
    · exact Nat.lt_succ_self n
    · have := epoch_cutSpans h sp hs
      omega

/-- OUT made unspecified from `k` on, with valid regions. -/
theorem memoryOk_scrambleOut {cfg : Config} {s : State} (h : s.memoryOk cfg) (hr : s.decodeRegionsOk cfg = true)
    {k : Nat} (hk : k ≤ s.desc.outCap.toNat) : (s.scrambleOut k).memoryOk cfg := by
  have := (decodeRegionsOk_iff cfg s).1 hr
  exact ⟨Memory.wf_scramble h.1 _ _ _, Memory.below_scramble h.2.1 (by omega) _, epoch_scramble h.2.2⟩

/-- STATE made unspecified, with valid regions. -/
theorem memoryOk_scrambleScratch {cfg : Config} {s : State} (h : s.memoryOk cfg) (hr : s.encodeRegionsOk cfg = true) :
    s.scrambleScratch.memoryOk cfg :=
  ⟨Memory.wf_scramble h.1 _ _ _, Memory.below_scramble h.2.1 ((encodeRegionsOk_iff cfg s).1 hr).2.1 _,
    epoch_scramble h.2.2⟩

end Sys2Proof.Machine
end

