-- ==== Sys2Proof/Laws/Step.lean ====
section
/-! SUPPORT. What one step can be, and runs of several steps. -/

namespace Sys2Proof.Machine

/-- Whose turn it can be, guards included. -/
theorem turn_cases (cfg : Config) (s : State) :
    (s.turn cfg = .rest ∧ s.run = .idle ∧ s.host = []) ∨
    (∃ ev rest, s.host = ev :: rest ∧ s.turn cfg = .host ev.move rest ∧
      (s.run = .idle ∨ (s.run ≠ .idle ∧ ev.move.whileBusy cfg s = true ∧ ev.after = 0))) ∨
    (∃ q, s.turn cfg = .engine q ∧ s.run ≠ .idle) := by
  unfold State.turn
  cases hh : s.host with
  | nil => by_cases hr : s.run = .idle <;> simp [hr]
  | cons ev rest =>
    by_cases hr : s.run = .idle
    · simp [hr]
    · by_cases hb : ev.move.whileBusy cfg s = true <;> by_cases ha : ev.after = 0 <;> simp [hr, hb, ha]

/-- With no host move pending, an IDLE engine rests. -/
theorem turn_idle (cfg : Config) {s : State} (hh : s.host = []) (hr : s.run = .idle) : s.turn cfg = .rest := by
  simp [State.turn, hh, hr]

/-- With no host move pending, a BUSY engine moves. -/
theorem turn_busy (cfg : Config) {s : State} (hh : s.host = []) (hr : s.run ≠ .idle) : s.turn cfg = .engine [] := by
  simp [State.turn, hh, hr]

/-- With no host move pending, a step of a BUSY engine is the engine's step on the state itself. -/
theorem stepWith_busy (cfg : Config) {s : State} (hh : s.host = []) (hr : s.run ≠ .idle) :
    stepWith cfg s = engineStep cfg s := by
  have h : { s with host := [] } = s := by rw [← hh]
  simp only [stepWith, turn_busy cfg hh hr, h]

/-- With no host move pending, an IDLE machine stays as it is. -/
theorem stepWith_idle (cfg : Config) {s : State} (hh : s.host = []) (hr : s.run = .idle) :
    stepWith cfg s = .next s := by simp [stepWith, turn_idle cfg hh hr]

/-- One more step in front. -/
theorem runWith_succ (cfg : Config) (n : Nat) {s t : State} (h : stepWith cfg s = .next t) :
    runWith cfg (n + 1) s = runWith cfg n t := by simp [runWith, h]

/-- A run in two parts. -/
theorem runWith_add (cfg : Config) (m n : Nat) {s t : State} (h : runWith cfg m s = .next t) :
    runWith cfg (m + n) s = runWith cfg n t := by
  induction m generalizing s with
  | zero => simp only [runWith, Host.Outcome.next.injEq] at h; simp [h]
  | succ m ih =>
    rw [Nat.succ_add]
    cases hs : stepWith cfg s with
    | next u => rw [runWith_succ cfg _ hs] at h ⊢; exact ih h
    | fault f => simp [runWith, hs] at h
    | refused r => simp [runWith, hs] at h

/-- A machine at rest stays as it is however long it runs. -/
theorem runWith_idle (cfg : Config) (n : Nat) {s : State} (hh : s.host = []) (hr : s.run = .idle) :
    runWith cfg n s = .next s := by
  induction n with
  | zero => rfl
  | succ n ih => rw [runWith_succ cfg n (stepWith_idle cfg hh hr), ih]

end Sys2Proof.Machine
end

