-- ==== Sys2Proof/Laws/Tokens.lean ====
section
/-! SUPPORT. What the shared operations of the token instructions can do, guards included. -/

namespace Sys2Proof.Machine

/-- R207: the literal copy either meets both bounds and copies, or answers nothing. -/
theorem literalRun_cases (litLen : Nat) (s : State) :
    (s.dec.ip + litLen ≤ s.dec.inLen ∧ s.dec.op + litLen ≤ s.dec.outCap ∧
      literalRun litLen s = some { s with mem := s.copyLiteral s.dec.ip s.dec.op litLen,
                                          dec := { s.dec with ip := s.dec.ip + litLen, op := s.dec.op + litLen } }) ∨
    ((s.dec.inLen < s.dec.ip + litLen ∨ s.dec.outCap < s.dec.op + litLen) ∧ literalRun litLen s = none) := by
  unfold literalRun
  split
  · exact .inr ⟨by omega, rfl⟩
  · split
    · exact .inr ⟨by omega, rfl⟩
    · exact .inl ⟨by omega, by omega, rfl⟩

/-- R212, R213: the back-reference either meets both bounds and copies, or answers nothing. -/
theorem backReference_cases (off repLen : Nat) (s : State) :
    (off ≤ s.dec.op ∧ s.dec.op + repLen ≤ s.dec.outCap ∧
      backReference off repLen s = some { s with mem := s.copyRepeat s.dec.op off repLen,
                                                 dec := { s.dec with op := s.dec.op + repLen } }) ∨
    ((s.dec.op < off ∨ s.dec.outCap < s.dec.op + repLen) ∧ backReference off repLen s = none) := by
  unfold backReference
  split
  · exact .inr ⟨by omega, rfl⟩
  · split
    · exact .inr ⟨by omega, rfl⟩
    · exact .inl ⟨by omega, by omega, rfl⟩

/-- R121: the literal copy writes `OUT[dst .. dst+n-1]` only. -/
theorem read_copyLiteral_outside (s : State) {src dst n a : Nat} (h : a < s.outAddr dst ∨ s.outAddr dst + n ≤ a) :
    (s.copyLiteral src dst n).read a = s.mem.read a := Memory.read_copyForward_outside _ h

/-- R122: the repeat copy writes `OUT[dst .. dst+n-1]` only. -/
theorem read_copyRepeat_outside (s : State) {dst off n a : Nat} (h : a < s.outAddr dst ∨ s.outAddr dst + n ≤ a) :
    (s.copyRepeat dst off n).read a = s.mem.read a := Memory.read_copyForward_outside _ h

/-- R121: the literal copy's bytes, when IN and OUT are disjoint (R51). -/
theorem read_copyLiteral (s : State) {src dst n i : Nat} (hi : i < n)
    (h : s.inAddr src + n ≤ s.outAddr dst ∨ s.outAddr dst + n ≤ s.inAddr src) :
    (s.copyLiteral src dst n).read (s.outAddr dst + i) = s.mem.read (s.inAddr src + i) := by
  unfold State.copyLiteral
  rw [Memory.read_copyForward _ hi (by omega), Memory.read_copyForward_outside _ (by omega)]

/-- R122: each byte of the repeat is the byte `off` before it, as the copy leaves it. -/
theorem read_copyRepeat (s : State) {dst off n i : Nat} (hi : i < n) (h1 : 1 ≤ off) (h2 : off ≤ dst) :
    (s.copyRepeat dst off n).read (s.outAddr (dst + i)) = (s.copyRepeat dst off n).read (s.outAddr (dst + i - off)) := by
  have h := Memory.read_copyForward s.mem (src := s.outAddr (dst - off)) (dst := s.outAddr dst) hi
    (by unfold State.outAddr; omega)
  rw [show s.outAddr dst + i = s.outAddr (dst + i) by unfold State.outAddr; omega,
    show s.outAddr (dst - off) + i = s.outAddr (dst + i - off) by unfold State.outAddr; omega] at h
  exact h

end Sys2Proof.Machine
end

