-- ==== Sys2Proof/Tests/Slice0.lean ====
section
/-! SUPPORT. Tests: expected results come from the spec's tables, vectors and rules, named in each comment; and one
state and operands that meet the hypotheses of each statement. -/

namespace Sys2Proof.Machine.Tests

open Sys2Proof Sys2Proof.Machine

set_option Elab.async false

/-! ### Helpers -/

/-- Bytes from numbers. -/
def bytes (ns : List Nat) : List Byte := ns.map (BitVec.ofNat 8)

/-- Memory with bytes from an address on. -/
def memAt (a : Nat) (ns : List Nat) : Memory := Memory.empty.writeBytes a (bytes ns)

/-- An IDLE machine with IN at 0x1000, OUT at 0x3000, STATE at 0x8000 (the addresses of program P1). -/
def ready (cmd : Nat) (input : List Nat) (cap soft : Nat) : State :=
  { State.reset with
    mem := memAt 0x1000 input
    desc := { cmd := BitVec.ofNat 8 cmd, stateBase := 0x8000, inBase := 0x1000,
              inLen := BitVec.ofNat 32 input.length, outBase := 0x3000, outCap := BitVec.ofNat 32 cap,
              softLimit := BitVec.ofNat 32 soft } }

/-- The state an answer goes on with, reset if it stops. -/
def after : Out → State
  | .next t => t
  | .fault _ => State.reset
  | .refused _ => State.reset

/-- The answer goes on. -/
def goesOn : Out → Bool
  | .next _ => true
  | .fault _ => false
  | .refused _ => false

theorem eq_next {o : Out} (h : goesOn o = true) : o = .next (after o) := by
  cases o with
  | next t => rfl
  | fault f => cases h
  | refused r => cases h

/-- A DECODE started on a block. -/
def walking (block : List Nat) (cap : Nat) : State := after (exec .decodeCmd (ready 2 block cap 0))

/-- The state with the host's coming moves. -/
def withHost (s : State) (moves : List HostMove) : State := { s with host := moves.map (HostEvent.mk 0) }

/-- An ENCODE just started. -/
def encoding (input : List Nat) (cap soft : Nat) : State := after (exec .encodeCmd (ready 1 input cap soft))

/-- The state in another state of the encoder. -/
def inState (s : State) (st : EncState) (enc : Enc) : State := { s with run := .encoding st, enc := enc }

/-! ### WellFormed refuses, one ill-formed term for each check -/

theorem test_wf_eob_repeat_short : WellFormed (.eob 1 3) = false := by decide
theorem test_wf_rep_offset_zero : WellFormed (.rep 0 4) = false := by decide
theorem test_wf_rep_offset_large : WellFormed (.rep 4096 4) = false := by decide
theorem test_wf_rep_repeat_short : WellFormed (.rep 1 3) = false := by decide
theorem test_wf_tuple_offset_zero : WellFormed (.tuple 0 1 4) = false := by decide
theorem test_wf_tuple_offset_large : WellFormed (.tuple 4096 1 4) = false := by decide
theorem test_wf_tuple_no_literals : WellFormed (.tuple 1 0 4) = false := by decide
theorem test_wf_tuple_repeat_short : WellFormed (.tuple 1 1 3) = false := by decide
theorem test_wf_pattern_length : WellFormed (.pattern (bytes [1, 2, 3, 4, 5, 6, 7])) = false := by decide
theorem test_wf_boundary : WellFormed (.tuple 4095 1 4) = true ∧ WellFormed (.rep 1 4) = true := by decide

/-! ### Decoding is right: words written out from 30_encoding R84, R85 and the tables K and M of 95_test_vectors -/

/-- M2: `EOB L=1`, tag 0x040000. -/
theorem test_decode_eob : decode .token (bytes [0x00, 0x00, 0x04]) = .ok (.eob 1 4) [] := by decide
/-- M8: `EOB L=319`, escape `FF 01`. -/
theorem test_decode_eob_escape :
    decode .token (bytes [0x00, 0x00, 0xFC, 0xFF, 0x01, 0x41]) = .ok (.eob 319 4) (bytes [0x41]) := by decide
/-- K14: `off = 0` with `r_f = 1` decodes (R92) and is rejected by R209. -/
theorem test_decode_eob_illegal : decode .token (bytes [0x00, 0x10, 0x00]) = .ok (.eob 0 5) [] := by decide
/-- M21: `REPEAT rl=70 off=100`. -/
theorem test_decode_rep : decode .token (bytes [0x64, 0xF0, 0x03, 0x03]) = .ok (.rep 100 70) [] := by decide
/-- K12: every field different: `off = 291`, `nr_f = 21`, `r_f = 42`. -/
theorem test_decode_tuple : decode .token (bytes [0x23, 0xA1, 0x56]) = .ok (.tuple 291 21 46) [] := by decide
/-- M17: both escapes, the literal-length escape first. -/
theorem test_decode_tuple_escapes :
    decode .token (bytes [0x49, 0xF0, 0xFF, 0xC1, 0x00]) = .ok (.tuple 73 256 67) [] := by decide
/-- P4's block. -/
theorem test_decode_pattern : decode .block (bytes [0xDE, 0xAD, 0xBE, 0xEF, 1, 2, 3, 4]) =
    .ok (.pattern (bytes [0xDE, 0xAD, 0xBE, 0xEF, 1, 2, 3, 4])) [] := by decide
/-- R98. -/
theorem test_decode_commands : decode .command (bytes [1]) = .ok .encodeCmd [] ∧
    decode .command (bytes [2]) = .ok .decodeCmd [] ∧ decode .command (bytes [3]) = .ok .scratchMin [] ∧
    decode .command (bytes [0]) = .reject .reservedCommand ∧
    decode .command (bytes [4]) = .reject .reservedCommand := by decide
/-- R202, R204: the two ways a token does not decode. -/
theorem test_decode_rejects : decode .token (bytes [0x00, 0x00]) = .reject .tagShort ∧
    decode .token (bytes [0x00, 0x00, 0xFC, 0xFF, 0xFF]) = .reject .escapeUnterminated ∧
    decode .block (bytes [1, 2, 3]) = .reject .wrongLength := by decide
/-- M5, M10, M18, M19, M21: the encoder's bytes. -/
theorem test_encode : encode (.eob 64 4) = bytes [0x00, 0x00, 0xFC, 0x01] ∧
    encode (.tuple 1 1 4) = bytes [0x01, 0x00, 0x04] ∧ encode (.tuple 73 63 67) = bytes [0x49, 0xF0, 0xFF, 0, 0] ∧
    encode (.rep 4095 4) = bytes [0xFF, 0x0F, 0x00] ∧ encode (.rep 100 70) = bytes [0x64, 0xF0, 0x03, 0x03] := by decide
/-- R146's worked examples. -/
theorem test_token_cost : tokenCost 1 4091 = 20 ∧ tokenCost 63 0 = 67 ∧ tokenCost 4096 0 = 4115 ∧
    tokenCost 0 0 = 3 := by decide
/-- The opcode table's words: priority EOB, REPEAT, TUPLE (R90). -/
theorem test_table_words : decodeTableWord 24 0x040000 = some (.eob 1 4) ∧
    decodeTableWord 24 0x00000D = some (.rep 13 4) ∧ decodeTableWord 24 0x0C6003 = some (.tuple 3 3 10) ∧
    decodeTableWord 8 1 = some .encodeCmd ∧ decodeTableWord 8 7 = none := by decide
theorem test_table_word_block : decodeTableWord 64 0x0807060504030201 =
    some (.pattern (bytes [1, 2, 3, 4, 5, 6, 7, 8])) := by decide

/-! ### The hash and the statuses -/

/-- The HASH table of 95_test_vectors section 2. -/
theorem test_hash : hash32 0x41414141 = 398 ∧ hash32 0x64636261 = 1584 ∧ hash32 0x6C6B6A69 = 1633 ∧
    hash32 0x03020100 = 989 ∧ hash32 0xFFFFFFFF = 1564 ∧ hash32 0x2D484746 = 4043 := by decide
/-- R14. -/
theorem test_status_codes : Status.failed.code engineConfig = 0xFFFFFFFF ∧ Status.readError.code engineConfig = 0xFFFFFFFE ∧
    Status.invalidArgument.code engineConfig = 0xFFFFFFFD ∧ Status.incompressible.code engineConfig = 0 := by decide

/-! ### Tokens: one step each -/

/-- V1: `EOB L=1` returns 1 with `41`; the byte after it is unspecified. -/
theorem test_eob_returns : (after (step (walking [0, 0, 0, 4, 0x41] 4096))).result = 1 ∧
    (after (step (walking [0, 0, 0, 4, 0x41] 4096))).outByte 0 = 0x41 ∧
    (after (step (walking [0, 0, 0, 4, 0x41] 4096))).mem.free = [⟨0x3001, 4095, 0⟩] := by decide +kernel
/-- V8b: `off = 0`, `r_f = 63`, escape present: FAILED. -/
theorem test_eob_repeat_field_fails :
    (after (step (walking [0, 0, 0xF0, 7, 0, 0x41] 4096))).result = Status.failed.code engineConfig := by decide +kernel
/-- V4: `TUPLE L=3 rl=10 off=3`: overlapping copy; `ip = 7`, `op = 13`. -/
theorem test_tuple_overlaps :
    (after (step (walking [0, 3, 0x60, 0x0C, 0x61, 0x62, 0x63, 0, 0, 0] 4096))).mem.readBytes 0x3000 13 =
      bytes [0x61, 0x62, 0x63, 0x61, 0x62, 0x63, 0x61, 0x62, 0x63, 0x61, 0x62, 0x63, 0x61] ∧
    (after (step (walking [0, 3, 0x60, 0x0C, 0x61, 0x62, 0x63, 0, 0, 0] 4096))).dec.ip = 7 ∧
    (after (step (walking [0, 3, 0x60, 0x0C, 0x61, 0x62, 0x63, 0, 0, 0] 4096))).dec.op = 13 := by decide +kernel
/-- V5: offset before the start: FAILED. -/
theorem test_tuple_offset_fails :
    (after (step (walking [0, 2, 0, 4, 0x41, 0, 0, 4, 0x42] 4096))).result = Status.failed.code engineConfig := by decide +kernel
/-- R211's worked example: `03 60 00` at `op = 3`. -/
theorem test_rep : (after (exec (.rep 3 10)
      { walking [0, 3, 0x60, 0, 0] 64 with mem := memAt 0x3000 [0x61, 0x62, 0x63],
                                           dec := { Dec.reset with inLen := 5, outCap := 64, ip := 4, op := 3 } })).mem.readBytes
        0x3003 10 = bytes [0x61, 0x62, 0x63, 0x61, 0x62, 0x63, 0x61, 0x62, 0x63, 0x61] := by decide +kernel
/-- V5b: a REPEAT as the first token: FAILED. -/
theorem test_rep_first_fails :
    (after (step (walking [0, 1, 0, 0, 0, 0, 4, 0x42, 0x43] 4096))).result = Status.failed.code engineConfig := by decide +kernel
/-- V6, V6d: unterminated escapes: READ_ERROR, also with `off = 0`. -/
theorem test_read_error :
    (after (step (walking [0, 0, 0, 0xFC, 0xFF, 0xFF] 4096))).result = Status.readError.code engineConfig ∧
    (after (step (walking [0, 0, 0xF0, 7, 0xFF, 0xFF] 4096))).result = Status.readError.code engineConfig := by decide +kernel
/-- T4: 16 bytes tiled. -/
theorem test_pattern : (after (step (walking [1, 2, 3, 4, 5, 6, 7, 8] 16))).mem.readBytes 0x3000 17 =
      bytes [1, 2, 3, 4, 5, 6, 7, 8, 1, 2, 3, 4, 5, 6, 7, 8, 0] ∧
    (after (step (walking [1, 2, 3, 4, 5, 6, 7, 8] 16))).result = 16 := by decide +kernel
/-- T7 and R276: 20 is no multiple of 8: FAILED, and OUT is unspecified. -/
theorem test_pattern_odd :
    (after (step (walking [1, 2, 3, 4, 5, 6, 7, 8] 20))).result = Status.failed.code engineConfig ∧
    (after (step (walking [1, 2, 3, 4, 5, 6, 7, 8] 20))).mem.free = [⟨0x3000, 20, 0⟩] ∧
    (after (step (walking [1, 2, 3, 4, 5, 6, 7, 8] 20))).mem.cells = (memAt 0x1000 [1, 2, 3, 4, 5, 6, 7, 8]).cells := by
  decide +kernel

/-! ### Commands -/

/-- A15. -/
theorem test_scratch_min : (after (exec .scratchMin State.reset)).result = 8192 := by decide +kernel
/-- E6.c64 and E6.c65: the capacity threshold; A4. -/
theorem test_encode_arguments : (after (exec .encodeCmd (ready 1 [1] 64 0))).result = Status.invalidArgument.code engineConfig ∧
    (after (exec .encodeCmd (ready 1 [1] 65 0))).run = .encoding .search ∧
    (after (exec .encodeCmd (ready 1 [] 65 0))).result = Status.invalidArgument.code engineConfig := by decide +kernel
/-- A8's limit, `min(IN_LEN, 65)`, and a soft limit above the capacity (R244). -/
theorem test_encode_limit : (encoding [1, 2, 3] 65 0).enc.limit = 3 ∧ (encoding [1, 2, 3] 65 99).enc.limit = 65 ∧
    (encoding [1, 2, 3] 65 0).outByte 0 = 0 := by decide +kernel
/-- A13, A14: 4 bytes are too short; `STATE_BASE` is not examined. -/
theorem test_decode_arguments : (walking [0, 0, 0, 0] 64).result = Status.invalidArgument.code engineConfig ∧
    (walking [0, 0, 0, 0, 0] 0).result = Status.invalidArgument.code engineConfig ∧
    (walking [0, 0, 0, 4, 0x41] 64).run = .decoding ∧ (walking [1, 2, 3, 4, 5, 6, 7, 8] 64).run = .pattern := by
  decide +kernel
/-- A16, A17: reserved codes. -/
theorem test_reserved_command :
    (after (step (withHost (ready 0 [1] 64 0) [.start]))).result = Status.invalidArgument.code engineConfig ∧
    (after (step (withHost (ready 4 [1] 64 0) [.start]))).result = Status.invalidArgument.code engineConfig := by decide +kernel
/-- R51: IN and OUT overlap. -/
theorem test_overlap_refused :
    goesOn (exec .decodeCmd { ready 2 [0, 0, 0, 4, 0x41] 64 0 with
      desc := { (ready 2 [0, 0, 0, 4, 0x41] 64 0).desc with outBase := 0x1004 } }) = false := by decide +kernel

/-! ### The encoder's states -/

/-- The 20 equal bytes of the tests below. -/
def equalBytes : List Nat := List.replicate 20 0x41

/-- SEARCH done: PROBE at 1. -/
def probing : State := after (step (encoding equalBytes 65 65))

/-- P3 steps 3 and 4 on a shorter page: slot 398 gets 1, candidate 0 matches. -/
theorem test_probe : (after (step probing)).run = .encoding .matching ∧ (after (step probing)).enc.q = 0 ∧
    (after (step probing)).enc.h = 398 ∧ (after (step probing)).slot 398 = 1 := by decide +kernel
/-- P3 step 4: `off = 1`, `s = 1`, `e` the end of the input. -/
theorem test_match : (after (step (after (step probing)))).enc.off = 1 ∧
    (after (step (after (step probing)))).enc.s = 1 ∧ (after (step (after (step probing)))).enc.e = 20 ∧
    (after (step (after (step probing)))).enc.litLen = 1 ∧
    (after (step (after (step probing)))).enc.repLen = 19 := by decide +kernel
/-- R166: a failed probe (`IN[i] = i`): `p = 2`, `step = 33`. -/
theorem test_failed_probe :
    (after (step (after (step (encoding (List.range 17) 65 65))))).enc.p = 2 ∧
    (after (step (after (step (encoding (List.range 17) 65 65))))).enc.step = 33 := by decide +kernel
/-- R163: 16 bytes are never probed. -/
theorem test_near_end : (after (step (after (step (encoding (List.range 16) 65 65))))).run = .encoding .tail := by
  decide +kernel
/-- EMIT of R210's first token: `TUPLE L=1 rl=5 off=1 lit=41` is `01 10 04 41`. -/
theorem test_emit :
    (after (step (inState (encoding equalBytes 65 65) .emit
      { Enc.reset with inLen := 20, limit := 65, o := 1, p := 1, off := 1, s := 1, e := 6, litLen := 1,
                       repLen := 5 }))).mem.readBytes 0x3001 4 = bytes [0x01, 0x10, 0x04, 0x41] := by decide +kernel
/-- R173: `e + 16 <= in_len` inserts `e - 1`. -/
theorem test_advance :
    (after (step (inState (encoding (List.replicate 30 0x41) 65 65) .advance
      { Enc.reset with inLen := 30, limit := 65, o := 8, p := 1, e := 6 }))).slot 398 = 5 ∧
    (after (step (inState (encoding (List.replicate 30 0x41) 65 65) .advance
      { Enc.reset with inLen := 30, limit := 65, o := 8, p := 1, e := 6 }))).enc.nr0 = 6 := by decide +kernel
/-- E1c: TAIL writes `00 00 04 41` after the header; E3: a block of 8 bytes is given up. -/
theorem test_tail :
    (after (step (inState (encoding [0x41] 65 5) .tail (encoding [0x41] 65 5).enc))).mem.readBytes 0x3000 5 =
      bytes [0, 0, 0, 4, 0x41] := by decide +kernel
theorem test_done : (after (step (inState (encoding [0x41] 65 65) .done { Enc.reset with o := 8 }))).result = 0 ∧
    (after (step (inState (encoding [0x41] 65 65) .done { Enc.reset with o := 5 }))).result = 5 := by decide +kernel

/-! ### The host -/

/-- R21: a register reads back as written. -/
theorem test_register_reads_back :
    (after (step (after (step (withHost State.reset [.writeReg .outCap 0x1_0000_1000, .readReg .outCap]))))).rdata =
      0x1000 := by decide +kernel
/-- R35, R301, U8: a start right after reset breaks the host's duty, and so does a read of a register then; a start of
SCRATCH_MIN after a write of `CMD` does not. -/
theorem test_duty : (after (step (withHost State.reset [.start]))).duty.broken = true ∧
    (after (step (withHost State.reset [.readReg .inLen]))).duty.broken = true ∧
    (after (step (after (step (withHost State.reset [.writeReg .cmd 3, .start]))))).duty.broken = false ∧
    (after (step (after (step (withHost State.reset [.writeReg .cmd 3, .start]))))).result = 8192 := by decide +kernel
/-- R35, U8: `RESULT` read right after reset is the host's fault; after SCRATCH_MIN it is 8192 and none. -/
theorem test_read_result : (after (step (withHost State.reset [.readReg .result]))).duty.broken = true ∧
    (after (step (after (step (after (step
      (withHost State.reset [.writeReg .cmd 3, .start, .readReg .result]))))))).rdata = 8192 ∧
    (after (step (after (step (after (step
      (withHost State.reset [.writeReg .cmd 3, .start, .readReg .result]))))))).duty.broken = false := by decide +kernel
/-- R36: a reset during DECODE leaves OUT unspecified and the engine IDLE. -/
theorem test_reset_while_busy :
    (after (step (withHost (walking [0, 0, 0, 4, 0x41] 64) [.reset]))).run = .idle ∧
    (after (step (withHost (walking [0, 0, 0, 4, 0x41] 64) [.reset]))).mem.free = [⟨0x3000, 64, 0⟩] := by decide +kernel
/-- R63: a host write to IN waits while the engine is BUSY. -/
theorem test_host_waits :
    (withHost (walking [0, 0, 0, 4, 0x41] 64) [.writeMem 0x1004 0]).turn engineConfig =
      .engine [⟨0, .writeMem 0x1004 0⟩] := by decide +kernel
/-- The placed words run at once from reset. -/
theorem test_placed_words : goesOn (step (State.reset.withFetchWord 8 3)) = true ∧
    (after (step (State.reset.withFetchWord 8 3))).result = 8192 ∧
    (after (step (State.reset.withFetchWord 24 0))).dec.ip = 12 ∧
    (after (step (State.reset.withFetchWord 24 0x07F001))).dec.repLen = 67 ∧
    goesOn (step (State.reset.withFetchWord 64 0x0807060504030201)) = true := by decide +kernel

/-! ### Witnesses: for each statement with hypotheses, a state and operands that meet them together, at a boundary
of each clause. The name is the statement's. -/

/-- The state with another descriptor. -/
def withDesc (s : State) (d : Desc) : State := { s with desc := d }

/-- Where nothing is listed in STATE, every slot reads 0. -/
theorem slot_blank {s : State} (hc : ∀ c ∈ s.mem.cells, c.1 < s.desc.stateBase) (hf : s.mem.free = [])
    (k : SlotIx) : s.slot k = 0 := by
  have h : ∀ a, s.desc.stateBase ≤ a → s.mem.read a = 0#8 := fun a ha => by
    have hn : cellAt s.mem.cells a = none := cellAt_eq_none_iff.2 fun c hm he => by
      have := hc c hm
      omega
    rw [Memory.read_eq, hn, hf]
    rfl
  have hb := (slotAddr_bounds s k).1
  simp [State.slot, Memory.readLE, Memory.readBytes, leValue, h _ hb, h _ (Nat.le_succ_of_le hb)]

/-- Where nothing is listed in STATE, the hash table is below every bound but 0. -/
theorem tableBelow_blank {s : State} {b : Nat}
    (h : (∀ c ∈ s.mem.cells, c.1 < s.desc.stateBase) ∧ s.mem.free = [] ∧ 0 < b) : s.tableBelow b :=
  fun k => by rw [slot_blank h.1 h.2.1 k]; exact h.2.2

/-- R10, R14, R166: this engine's configuration is one the spec allows. -/
theorem engineConfig_lawful : engineConfig.Lawful where
  stride_pos n hn := Nat.div_pos hn (by decide)
  window_ge := by decide
  window_le := by decide
  failed_neg := by decide
  readError_neg := by decide
  invalidArgument_neg := by decide
  statuses_distinct := by decide

/-! #### The host -/

theorem wit_IdleEngineWaitsForTheHost : State.reset.run = .idle ∧ State.reset.host = [] := by decide
theorem wit_ResetAbandonsTheCommand :
    (withHost State.reset [.reset]).turn engineConfig = .host .reset [] ∧
    (withHost (walking [0, 0, 0, 4, 0x41] 64) [.reset]).turn engineConfig = .host .reset [] ∧
    (walking [0, 0, 0, 4, 0x41] 64).outRegion.covers 0x3000 = true ∧
    (walking [0, 0, 0, 4, 0x41] 64).outRegion.covers 0x303F = true ∧
    (walking [0, 0, 0, 4, 0x41] 64).outRegion.covers 0x3040 = false ∧
    (withHost (encoding [0x41] 65 0) [.reset]).turn engineConfig = .host .reset [] ∧
    (encoding [0x41] 65 0).run = .encoding .search ∧
    (encoding [0x41] 65 0).scratchRegion.covers 0x9FFF = true ∧
    (encoding [0x41] 65 0).scratchRegion.covers 0xA000 = false := by decide +kernel
theorem wit_RegisterReadsBackAsWritten : RegName.cmd ≠ .result ∧
    (withHost State.reset [.writeReg .cmd 0xFF, .readReg .cmd]).run = .idle ∧
    (withHost State.reset [.writeReg .cmd 0xFF, .readReg .cmd]).host =
      [⟨0, .writeReg .cmd 0xFF⟩, ⟨0, .readReg .cmd⟩] := by decide
theorem wit_HostCannotWriteResult : (withHost State.reset [.writeReg .result 1]).run = .idle ∧
    (withHost State.reset [.writeReg .result 1]).host = [⟨0, .writeReg .result 1⟩] := by decide
theorem wit_ResultHasAValueAfterACommand :
    (withHost State.reset [.readReg .result]).host = [⟨0, .readReg .result⟩] ∧
    (withHost State.reset [.readReg .result]).run = .idle ∧
    (withHost State.reset [.readReg .result]).resultValid = false ∧
    (withHost (after (exec .scratchMin State.reset)) [.readReg .result]).host = [⟨0, .readReg .result⟩] ∧
    (withHost (after (exec .scratchMin State.reset)) [.readReg .result]).run = .idle ∧
    (withHost (after (exec .scratchMin State.reset)) [.readReg .result]).resultValid = true := by decide +kernel
theorem wit_HostKeepsOffHeldMemory : (walking [0, 0, 0, 4, 0x41] 64).run ≠ .idle ∧
    (walking [0, 0, 0, 4, 0x41] 64).inRegion.covers 0x1004 = true ∧
    (withHost (walking [0, 0, 0, 4, 0x41] 64) [.reset]).turn engineConfig = .host .reset [] ∧
    (withHost (walking [0, 0, 0, 4, 0x41] 64) [.writeMem 0x3040 1]).turn engineConfig = .host (.writeMem 0x3040 1) [] ∧
    (withHost (walking [0, 0, 0, 4, 0x41] 64) [.writeMem 0x303F 1]).turn engineConfig = .engine [⟨0, .writeMem 0x303F 1⟩] ∧
    (withHost (walking [0, 0, 0, 4, 0x41] 64) [.readMem 0x1004]).turn engineConfig = .host (.readMem 0x1004) [] ∧
    (withHost (walking [0, 0, 0, 4, 0x41] 64) [.readMem 0x1005]).turn engineConfig = .host (.readMem 0x1005) [] ∧
    (withHost (encoding [0x41] 65 0) [.readMem 0xA000]).turn engineConfig = .host (.readMem 0xA000) [] ∧
    (withHost (encoding [0x41] 65 0) [.readMem 0x9FFF]).turn engineConfig = .engine [⟨0, .readMem 0x9FFF⟩] := by decide +kernel
theorem wit_HostMemoryWriteIsRead :
    (withHost State.reset [.writeMem 0xFFFFFFFFFFFFFFFF 7, .readMem 0xFFFFFFFFFFFFFFFF]).run = .idle ∧
    (withHost State.reset [.writeMem 0xFFFFFFFFFFFFFFFF 7, .readMem 0xFFFFFFFFFFFFFFFF]).host =
      [⟨0, .writeMem 0xFFFFFFFFFFFFFFFF 7⟩, ⟨0, .readMem 0xFFFFFFFFFFFFFFFF⟩] := by decide

/-! #### Encoding -/

theorem wit_DecodeInvertsEncode : WellFormed (.tuple 4095 63 67) = true ∧ (Instr.tuple 4095 63 67).form ≠ .block ∧
    WellFormed (.eob 0 4) = true ∧ WellFormed (.rep 1 4) = true ∧
    WellFormed (.pattern (bytes [0, 0, 0, 0, 0, 0, 0, 0])) = true := by decide
theorem wit_EncodeInvertsDecode : decode .token (bytes [1, 0, 4, 9]) = .ok (.tuple 1 1 4) (bytes [9]) ∧
    decode .block (bytes [0, 0, 0, 0, 0, 0, 0, 0]) = .ok (.pattern (bytes [0, 0, 0, 0, 0, 0, 0, 0])) [] ∧
    decode .command (bytes [3, 1]) = .ok .scratchMin (bytes [1]) := by decide
theorem wit_TagFieldsInvertPackTag : 4095 ≤ Config.offMax ∧ 63 ≤ Config.nrMax ∧ 63 ≤ Config.rMax := by decide
theorem wit_OverlappedTagReadIsTheTag : 1 ≤ 1 := Nat.le_refl 1
theorem wit_EscapesAreReadAsWritten : escDecode (bytes [0xFF, 0x00, 9]) = some ⟨255, 2, 0, bytes [9]⟩ ∧
    escDecode (bytes [0xFF, 0xFF]) = none := by decide
theorem wit_TokenCostIsTheTokensLength : (List.replicate 63 (0x41#8)).length = 63 ∧
    ((Instr.eob 63 4 = .eob 63 4 ∧ 0 = 0) ∨ (∃ off, Instr.eob 63 4 = .rep off (0 + 4) ∧ 63 = 0) ∨
      ∃ off, Instr.eob 63 4 = .tuple off 63 (0 + 4)) ∧
    (∃ off, Instr.rep 1 67 = .rep off (63 + 4) ∧ 0 = 0) ∧ (∃ off, Instr.tuple 1 63 67 = .tuple off 63 (63 + 4)) :=
  ⟨by decide, .inl ⟨rfl, rfl⟩, ⟨1, rfl, rfl⟩, ⟨1, rfl⟩⟩

/-! #### Steps -/

theorem wit_StepRunsTheDecodedInstruction :
    (withHost (ready 2 [0, 0, 0, 4, 0x41] 64 0) [.start]).turn engineConfig = .host .start [] ∧
    decode .command [(ready 2 [0, 0, 0, 4, 0x41] 64 0).desc.cmd] = .ok .decodeCmd [] ∧
    (walking [1, 2, 3, 4, 5, 6, 7, 8] 64).turn engineConfig = .engine [] ∧ (walking [1, 2, 3, 4, 5, 6, 7, 8] 64).run = .pattern ∧
    (walking [0, 0, 0, 4, 0x41] 64).turn engineConfig = .engine [] ∧ (walking [0, 0, 0, 4, 0x41] 64).run = .decoding ∧
    decode .token ((walking [0, 0, 0, 4, 0x41] 64).inBytes 1 4) = .ok (.eob 1 4) (bytes [0x41]) ∧
    (walking [0, 0, 0, 4, 0x41] 64).dec.ip = 1 ∧ (walking [0, 0, 0, 4, 0x41] 64).dec.inLen = 5 ∧
    (encoding [0x41] 65 0).turn engineConfig = .engine [] ∧ (encoding [0x41] 65 0).run = .encoding .search := by decide +kernel

/-- The fetch reads a token. -/
def fetches : FieldsRead → Bool
  | .ok _ => true
  | .reject _ => false

theorem exists_fields {r : FieldsRead} (h : fetches r = true) : ∃ f, r = .ok f := by
  cases r with
  | ok f => exact ⟨f, rfl⟩
  | reject r => cases h

theorem wit_FetchLatchesTheToken : (∃ f, (walking [0, 0, 0, 4, 0x41] 64).fetchToken = .ok f) ∧
    (∃ f, (walking [0, 0x49, 0xF0, 0xFF, 0xC1, 0x00] 64).fetchToken = .ok f) ∧
    (∃ f, (walking [0, 1, 0, 0, 0] 64).fetchToken = .ok f) := by
  refine ⟨exists_fields ?_, exists_fields ?_, exists_fields ?_⟩ <;> decide +kernel
/-- M17's escapes end in `00`; the tag is latched, and without an escape `b` stays. -/
theorem test_fetch_latches :
    (after (step (walking [0, 0x49, 0xF0, 0xFF, 0xC1, 0x00] 64))).dec.tag = 0xFFF049 ∧
    (after (step (walking [0, 0, 0, 0xFC, 0x02, 0x00] 64))).dec.b = 0x02 ∧
    (after (step (walking [0, 0, 0, 4, 0x41] 64))).dec.b = 0x00 := by decide +kernel
theorem wit_ShortTagIsFailed :
    { walking [0, 0, 0, 4, 0x41] 64 with dec := { Dec.reset with inLen := 5, ip := 3 } }.turn engineConfig = .engine [] ∧
    { walking [0, 0, 0, 4, 0x41] 64 with dec := { Dec.reset with inLen := 5, ip := 3 } }.run = .decoding ∧
    3 + 3 > 5 := by decide +kernel

/-- The hypotheses of the statement on unterminated escapes but for the last, at `k`. -/
def onlyFFFrom (s : State) (k : Nat) : Prop :=
  s.turn engineConfig = .engine [] ∧ s.run = .decoding ∧ s.dec.ip + 3 ≤ k ∧ k ≤ s.dec.inLen ∧
  ∀ j, j < s.dec.inLen → k ≤ j → s.inByte j = 0xFF#8

theorem wit_UnterminatedEscapeIsReadError_1 : onlyFFFrom (walking [0, 0, 0, 0xFC, 0xFF, 0xFF] 64) 4 ∧
    tagNrF (tagOfBytes ((walking [0, 0, 0, 0xFC, 0xFF, 0xFF] 64).inByte 1)
      ((walking [0, 0, 0, 0xFC, 0xFF, 0xFF] 64).inByte 2) ((walking [0, 0, 0, 0xFC, 0xFF, 0xFF] 64).inByte 3)) = 63 := by
  unfold onlyFFFrom
  decide +kernel
theorem wit_UnterminatedEscapeIsReadError_2 : onlyFFFrom (walking [0, 1, 0xF0, 0x07, 0xFF] 64) 4 ∧
    tagNrF (tagOfBytes ((walking [0, 1, 0xF0, 0x07, 0xFF] 64).inByte 1)
      ((walking [0, 1, 0xF0, 0x07, 0xFF] 64).inByte 2) ((walking [0, 1, 0xF0, 0x07, 0xFF] 64).inByte 3)) = 1 ∧
    tagRF (tagOfBytes ((walking [0, 1, 0xF0, 0x07, 0xFF] 64).inByte 1)
      ((walking [0, 1, 0xF0, 0x07, 0xFF] 64).inByte 2) ((walking [0, 1, 0xF0, 0x07, 0xFF] 64).inByte 3)) = 63 := by
  unfold onlyFFFrom
  decide +kernel
theorem wit_UnterminatedEscapeIsReadError_3 : onlyFFFrom (walking [0, 1, 0xF0, 0xFF, 0x00] 64) 5 ∧
    tagNrF (tagOfBytes ((walking [0, 1, 0xF0, 0xFF, 0x00] 64).inByte 1)
      ((walking [0, 1, 0xF0, 0xFF, 0x00] 64).inByte 2) ((walking [0, 1, 0xF0, 0xFF, 0x00] 64).inByte 3)) = 63 ∧
    tagRF (tagOfBytes ((walking [0, 1, 0xF0, 0xFF, 0x00] 64).inByte 1)
      ((walking [0, 1, 0xF0, 0xFF, 0x00] 64).inByte 2) ((walking [0, 1, 0xF0, 0xFF, 0x00] 64).inByte 3)) = 63 ∧
    (walking [0, 1, 0xF0, 0xFF, 0x00] 64).dec.ip + 3 < 5 ∧
    (walking [0, 1, 0xF0, 0xFF, 0x00] 64).inByte 4 ≠ 0xFF#8 := by
  unfold onlyFFFrom
  decide +kernel
theorem wit_EngineKeepsTheDescriptor : exec .scratchMin State.reset = .next (after (exec .scratchMin State.reset)) ∧
    step (walking [0, 0, 0, 4, 0x41] 64) = .next (after (step (walking [0, 0, 0, 4, 0x41] 64))) ∧
    (walking [0, 0, 0, 4, 0x41] 64).turn engineConfig = .engine [] ∧
    (after (step (walking [0, 0, 0, 4, 0x41] 64))).run = .idle ∧
    (encoding [0x41] 65 0).turn engineConfig = .engine [] ∧ (after (step (encoding [0x41] 65 0))).run ≠ .idle :=
  ⟨eq_next (by decide +kernel), eq_next (by decide +kernel), by decide +kernel⟩

/-! #### Tokens -/

/-- DECODE in the middle of a block of 40 bytes, with 5 bytes of output. -/
def midway : State :=
  { walking (List.replicate 40 0) 64 with
    dec := { Dec.reset with inLen := 40, outCap := 64, ip := 10, op := 5 } }

theorem midway_decoderOk : midway.decoderOk engineConfig := by
  unfold State.decoderOk
  decide +kernel

theorem wit_EobReturnsTheOutput : midway.decoderOk engineConfig ∧ midway.dec.ip + 30 = midway.dec.inLen ∧
    midway.dec.op + 30 ≤ midway.dec.outCap ∧ midway.dec.op + 30 < 2 ^ 31 :=
  ⟨midway_decoderOk, by decide +kernel⟩
theorem wit_EobOutOfShapeIsFailed : midway.decoderOk engineConfig ∧ midway.dec.ip + 29 ≠ midway.dec.inLen ∧
    midway.dec.ip + 31 ≠ midway.dec.inLen ∧ midway.dec.op + 60 > midway.dec.outCap ∧ 5 ≠ 4 ∧ 4 ≤ 5 :=
  ⟨midway_decoderOk, by decide +kernel⟩
theorem wit_BackReferenceTokensAppend : midway.decoderOk engineConfig ∧ 1 ≤ 35 ∧ midway.dec.ip + 30 ≤ midway.dec.inLen ∧
    35 ≤ midway.dec.op + 30 ∧ midway.dec.op + 30 + 29 ≤ midway.dec.outCap ∧
    5 ≤ midway.dec.op + 0 ∧ midway.dec.op + 0 + 59 ≤ midway.dec.outCap :=
  ⟨midway_decoderOk, by decide +kernel⟩
theorem wit_BackReferenceOutOfBoundsIsFailed : midway.decoderOk engineConfig ∧ midway.dec.ip + 31 > midway.dec.inLen ∧
    midway.dec.op + 60 > midway.dec.outCap ∧ 6 > midway.dec.op + 0 ∧ midway.dec.op + 0 + 60 > midway.dec.outCap :=
  ⟨midway_decoderOk, by decide +kernel⟩
theorem wit_RepeatCopyIsPeriodic : 1 ≤ 3 ∧ 3 ≤ 3 ∧ 9 < 10 := by decide
theorem wit_FillIsTheRepeatAtDistanceOne : 1 ≤ 1 := Nat.le_refl 1
theorem wit_PatternTilesTheOutput : (walking [1, 2, 3, 4, 5, 6, 7, 8] 8).patternOk engineConfig ∧
    min (walking [1, 2, 3, 4, 5, 6, 7, 8] 8).dec.outCap 4096 % 8 = 0 ∧
    (walking [1, 2, 3, 4, 5, 6, 7, 8] 4097).patternOk engineConfig ∧
    min (walking [1, 2, 3, 4, 5, 6, 7, 8] 4097).dec.outCap 4096 % 8 = 0 ∧
    (bytes [1, 2, 3, 4, 5, 6, 7, 8]).length = 8 := by
  unfold State.patternOk
  decide +kernel
theorem wit_PatternOfOddSizeIsFailed : min (walking [1, 2, 3, 4, 5, 6, 7, 8] 7).dec.outCap 4096 % 8 ≠ 0 ∧
    min (walking [1, 2, 3, 4, 5, 6, 7, 8] 4095).dec.outCap 4096 % 8 ≠ 0 := by decide +kernel

/-! #### Commands -/

theorem wit_EncodeRejectsBadArguments : (ready 1 [] 65 0).desc.inLen.toNat = 0 ∧
    (withDesc State.reset { Desc.reset with inLen := 4097 }).desc.inLen.toNat > 4096 ∧
    State.reset.desc.stateBase = 0 ∧ State.reset.desc.inBase = 0 ∧ State.reset.desc.outBase = 0 ∧
    (ready 1 [1] 64 0).desc.outCap.toNat ≤
      max 64 (min (ready 1 [1] 64 0).desc.inLen.toNat (ready 1 [1] 64 0).desc.outCap.toNat / 64) := by decide
theorem wit_DecodeRejectsBadArguments : (ready 2 [] 65 0).desc.inLen.toNat = 0 ∧
    State.reset.desc.inBase = 0 ∧ State.reset.desc.outBase = 0 ∧ (ready 2 [0, 0, 0, 4, 0x41] 0 0).desc.outCap.toNat = 0 ∧
    (ready 2 [0, 0, 0, 4] 64 0).desc.inLen.toNat ≤ 4 := by decide
theorem wit_ReservedCommandIsInvalidArgument : (withHost (ready 4 [1] 64 0) [.start]).turn engineConfig = .host .start [] ∧
    (ready 4 [1] 64 0).desc.cmd ≠ 1 ∧ (ready 4 [1] 64 0).desc.cmd ≠ 2 ∧ (ready 4 [1] 64 0).desc.cmd ≠ 3 := by decide +kernel

/-- A descriptor by its regions; its lengths are good. -/
def regionsAt (st inB outB : Nat) : State :=
  withDesc State.reset { Desc.reset with stateBase := st, inBase := inB, inLen := 5, outBase := outB, outCap := 65 }

theorem wit_InvalidRegionsAreRefused_decode : (regionsAt 0x8000 0xFFFFFFFFFFFFFFFC 0x3000).decodeArgsBad = false ∧
    (regionsAt 0x8000 0xFFFFFFFFFFFFFFFC 0x3000).inRegion.base +
      (regionsAt 0x8000 0xFFFFFFFFFFFFFFFC 0x3000).inRegion.size > 2 ^ 64 ∧
    (regionsAt 0x8000 0x1000 0xFFFFFFFFFFFFFFC0).decodeArgsBad = false ∧
    (regionsAt 0x8000 0x1000 0xFFFFFFFFFFFFFFC0).outRegion.base +
      (regionsAt 0x8000 0x1000 0xFFFFFFFFFFFFFFC0).outRegion.size > 2 ^ 64 ∧
    (regionsAt 0x8000 0x1000 0x1004).decodeArgsBad = false ∧
    (regionsAt 0x8000 0x1000 0x1004).inRegion.covers 0x1004 = true ∧
    (regionsAt 0x8000 0x1000 0x1004).outRegion.covers 0x1004 = true := by decide +kernel
theorem wit_InvalidRegionsAreRefused_encode : (regionsAt 0xFFFFFFFFFFFFE001 0x1000 0x3000).encodeArgsBad = false ∧
    (regionsAt 0xFFFFFFFFFFFFE001 0x1000 0x3000).scratchRegion.base +
      (regionsAt 0xFFFFFFFFFFFFE001 0x1000 0x3000).scratchRegion.size > 2 ^ 64 ∧
    (regionsAt 0x8000 0x9FFF 0x3000).encodeArgsBad = false ∧
    (regionsAt 0x8000 0x9FFF 0x3000).scratchRegion.covers 0x9FFF = true ∧
    (regionsAt 0x8000 0x9FFF 0x3000).inRegion.covers 0x9FFF = true ∧
    (regionsAt 0x8000 0x1000 0x7FC0).encodeArgsBad = false ∧
    (regionsAt 0x8000 0x1000 0x7FC0).scratchRegion.covers 0x8000 = true ∧
    (regionsAt 0x8000 0x1000 0x7FC0).outRegion.covers 0x8000 = true := by decide +kernel
theorem wit_EncodePerformsInit : (regionsAt 0xFFFFFFFFFFFFE000 0x1000 0x1005).encodeArgsBad = false ∧
    (regionsAt 0xFFFFFFFFFFFFE000 0x1000 0x1005).encodeRegionsOk engineConfig = true := by decide +kernel
theorem wit_DecodeDispatchesOnTheLength : (ready 2 [0, 0, 0, 4, 0x41] 1 0).decodeArgsBad = false ∧
    (ready 2 [0, 0, 0, 4, 0x41] 1 0).decodeRegionsOk engineConfig = true ∧ (ready 2 [0, 0, 0, 4, 0x41] 1 0).desc.inLen.toNat ≠ 8 ∧
    (ready 2 [1, 2, 3, 4, 5, 6, 7, 8] 1 0).decodeArgsBad = false ∧
    (ready 2 [1, 2, 3, 4, 5, 6, 7, 8] 1 0).decodeRegionsOk engineConfig = true ∧
    (ready 2 [1, 2, 3, 4, 5, 6, 7, 8] 1 0).desc.inLen.toNat = 8 := by decide +kernel
theorem wit_NoResultIsSticky : Instr.scratchMin.form = .command ∧
    exec .scratchMin State.reset = .next (after (exec .scratchMin State.reset)) ∧
    exec .encodeCmd (ready 1 [1] 65 0) = .next (encoding [1] 65 0) ∧
    (after (exec .scratchMin State.reset)).run = .idle :=
  ⟨rfl, eq_next (by decide +kernel), eq_next (by decide +kernel), by decide +kernel⟩
theorem wit_StatusesAreToldApart : Status.failed ≠ .incompressible ∧ Status.failed.code engineConfig = Status.failed.code engineConfig := by decide

/-! #### The encoder's states -/

/-- A state of ENCODE. -/
def encState (input : List Nat) (soft : Nat) (st : EncState) (enc : Enc) : State :=
  inState (encoding input 65 soft) st
    { enc with inLen := input.length, limit := (encoding input 65 soft).enc.limit }

/-- ENCODE about to probe at `p`. -/
def probeAt (input : List Nat) (p : Nat) : State :=
  encState input 65 .probe { Enc.reset with o := 1, p := p, step := 32 }

theorem wit_ProbeFollowsItsRules_match :
    (probeAt equalBytes 4).encoderBase engineConfig ∧ (probeAt equalBytes 4).encoderAt engineConfig .probe ∧
    (probeAt equalBytes 4).run = .encoding .probe ∧ (probeAt equalBytes 4).enc.p + 16 ≤ (probeAt equalBytes 4).enc.inLen ∧ engineConfig.hashWindow = 4 ∧
    (∀ j, j < 4 → (probeAt equalBytes 4).inByte (0 + j) = (probeAt equalBytes 4).inByte (4 + j)) ∧
    (probeAt equalBytes 4).slot ((probeAt equalBytes 4).hashAt engineConfig 4) = 0 := by
  have ht : (probeAt equalBytes 4).tableBelow (min (probeAt equalBytes 4).enc.p Config.blockMax) := tableBelow_blank (by decide +kernel)
  unfold State.encoderBase State.encoderAt
  rw [eq_true ht]
  decide +kernel
theorem wit_ProbeFollowsItsRules_fail :
    (probeAt (List.range 17) 1).encoderBase engineConfig ∧ (probeAt (List.range 17) 1).encoderAt engineConfig .probe ∧
    (probeAt (List.range 17) 1).run = .encoding .probe ∧ (probeAt (List.range 17) 1).enc.p + 16 ≤ (probeAt (List.range 17) 1).enc.inLen ∧
    (probeAt (List.range 17) 1).inByte 0 ≠ (probeAt (List.range 17) 1).inByte 1 := by
  have ht : (probeAt (List.range 17) 1).tableBelow (min (probeAt (List.range 17) 1).enc.p Config.blockMax) := tableBelow_blank (by decide +kernel)
  unfold State.encoderBase State.encoderAt
  rw [eq_true ht]
  decide +kernel
theorem wit_ProbeFollowsItsRules_near_end :
    (probeAt equalBytes 5).encoderBase engineConfig ∧ (probeAt equalBytes 5).encoderAt engineConfig .probe ∧
    (probeAt equalBytes 5).run = .encoding .probe ∧ (probeAt equalBytes 5).enc.p + 16 > (probeAt equalBytes 5).enc.inLen := by
  have ht : (probeAt equalBytes 5).tableBelow (min (probeAt equalBytes 5).enc.p Config.blockMax) := tableBelow_blank (by decide +kernel)
  unfold State.encoderBase State.encoderAt
  rw [eq_true ht]
  decide +kernel

/-- ENCODE with a match of position 4 against position 0. -/
def matchAt : State := encState equalBytes 65 .matching { Enc.reset with o := 1, p := 4, q := 0 }

theorem wit_MatchExtendsBothWays :
    matchAt.encoderBase engineConfig ∧ matchAt.encoderAt engineConfig .matching ∧
    matchAt.run = .encoding .matching := by
  have ht : matchAt.tableBelow (matchAt.enc.p + 1) := tableBelow_blank (by decide +kernel)
  unfold State.encoderBase State.encoderAt
  rw [eq_true ht]
  decide +kernel

/-- ENCODE about to write `TUPLE L=1 rl=5 off=1` with a limit. -/
def emitAt (soft : Nat) : State :=
  encState equalBytes soft .emit
    { Enc.reset with o := 1, p := 1, off := 1, s := 1, e := 6, litLen := 1, repLen := 5 }

theorem wit_EmitWritesTheToken_fits :
    (emitAt 5).encoderBase engineConfig ∧ (emitAt 5).encoderAt engineConfig .emit ∧
    (emitAt 5).run = .encoding .emit ∧
    (emitAt 5).enc.o + tokenCost (emitAt 5).enc.litLen ((emitAt 5).enc.repLen - 4) ≤ (emitAt 5).enc.limit := by
  have ht : (emitAt 5).tableBelow ((emitAt 5).enc.p + 1) := tableBelow_blank (by decide +kernel)
  unfold State.encoderBase State.encoderAt
  rw [eq_true ht]
  decide +kernel
theorem wit_EmitWritesTheToken_gives_up :
    (emitAt 4).encoderBase engineConfig ∧ (emitAt 4).encoderAt engineConfig .emit ∧
    (emitAt 4).run = .encoding .emit ∧
    (emitAt 4).enc.o + tokenCost (emitAt 4).enc.litLen ((emitAt 4).enc.repLen - 4) > (emitAt 4).enc.limit := by
  have ht : (emitAt 4).tableBelow ((emitAt 4).enc.p + 1) := tableBelow_blank (by decide +kernel)
  unfold State.encoderBase State.encoderAt
  rw [eq_true ht]
  decide +kernel

/-- ENCODE after a match that ends at `e`. -/
def advanceAt (e : Nat) : State :=
  encState (List.replicate 21 0x41) 65 .advance { Enc.reset with o := 8, p := 1, e := e }

theorem wit_AdvanceInsertsTheMatchEnd_inserts :
    (advanceAt 5).encoderBase engineConfig ∧ (advanceAt 5).encoderAt engineConfig .advance ∧
    (advanceAt 5).run = .encoding .advance ∧ (advanceAt 5).enc.e + 16 ≤ (advanceAt 5).enc.inLen := by
  have ht : (advanceAt 5).tableBelow ((advanceAt 5).enc.p + 1) := tableBelow_blank (by decide +kernel)
  unfold State.encoderBase State.encoderAt
  rw [eq_true ht]
  decide +kernel
theorem wit_AdvanceInsertsTheMatchEnd_leaves :
    (advanceAt 6).encoderBase engineConfig ∧ (advanceAt 6).encoderAt engineConfig .advance ∧
    (advanceAt 6).run = .encoding .advance ∧ (advanceAt 6).enc.e + 16 > (advanceAt 6).enc.inLen := by
  have ht : (advanceAt 6).tableBelow ((advanceAt 6).enc.p + 1) := tableBelow_blank (by decide +kernel)
  unfold State.encoderBase State.encoderAt
  rw [eq_true ht]
  decide +kernel

/-- ENCODE of one byte in one of its last states. -/
def endAt (soft o : Nat) (st : EncState) : State := encState [0x41] soft st { Enc.reset with o := o, p := 1 }

theorem wit_TailAndDoneEndTheBlock : (endAt 5 1 .tail).encoderBase engineConfig ∧ (endAt 5 1 .tail).run = .encoding .tail ∧
    (endAt 5 1 .tail).enc.o + tokenCost 1 0 ≤ (endAt 5 1 .tail).enc.limit ∧
    (endAt 4 1 .tail).encoderBase engineConfig ∧ (endAt 4 1 .tail).run = .encoding .tail ∧
    (endAt 4 1 .tail).enc.o + tokenCost 1 0 > (endAt 4 1 .tail).enc.limit ∧
    (endAt 8 8 .done).encoderBase engineConfig ∧ (endAt 8 8 .done).run = .encoding .done ∧ (endAt 8 8 .done).enc.o = 8 ∧
    (endAt 8 5 .done).encoderBase engineConfig ∧ (endAt 8 5 .done).run = .encoding .done ∧ (endAt 8 5 .done).enc.o ≠ 8 := by
  unfold State.encoderBase
  decide +kernel
theorem wit_SlotsAreLittleEndianWords : 65535 < 2 ^ 16 := by decide
theorem wit_WordwiseExtensionIsTheExtension : 1 ≤ 1 ∧ 1 ≤ 5 ∧ 5 ≤ 40 := by decide

/-! #### The whole machine -/

theorem wit_StepKeepsTheInvariant_decode : (walking [0, 0, 0, 4, 0x41] 64).Inv engineConfig ∧
    (walking [0, 0, 0, 4, 0x41] 64).scanOk ∧ (walking [0, 0, 0, 4, 0x41] 64).turn engineConfig = .engine [] ∧
    step (walking [0, 0, 0, 4, 0x41] 64) = .next (after (step (walking [0, 0, 0, 4, 0x41] 64))) := by
  have hr : (walking [0, 0, 0, 4, 0x41] 64).run = .decoding := by decide +kernel
  refine ⟨?_, ?_, by decide +kernel, eq_next (by decide +kernel)⟩
  · unfold State.Inv State.memoryOk State.basesOk State.runOk
    rw [hr]
    unfold State.decoderOk
    decide +kernel
  · unfold State.scanOk
    decide +kernel
theorem wit_StepKeepsTheInvariant_encode : (probeAt equalBytes 4).Inv engineConfig ∧ (probeAt equalBytes 4).scanOk ∧
    (probeAt equalBytes 4).turn engineConfig = .engine [] ∧
    step (probeAt equalBytes 4) = .next (after (step (probeAt equalBytes 4))) := by
  have hr : (probeAt equalBytes 4).run = .encoding .probe := by decide +kernel
  refine ⟨⟨?_, ?_, ?_⟩, ?_, by decide +kernel, eq_next (by decide +kernel)⟩
  · unfold State.memoryOk
    decide +kernel
  · unfold State.basesOk
    decide +kernel
  · unfold State.runOk
    rw [hr]
    exact ⟨wit_ProbeFollowsItsRules_match.1, wit_ProbeFollowsItsRules_match.2.1⟩
  · unfold State.scanOk
    decide +kernel

theorem wit_ScanPositionStaysNearTheInput : (probeAt equalBytes 4).Inv engineConfig ∧ (probeAt equalBytes 4).scanOk :=
  ⟨wit_StepKeepsTheInvariant_encode.1, wit_StepKeepsTheInvariant_encode.2.1⟩
theorem wit_EngineStaysInItsRegions : (probeAt equalBytes 4).Inv engineConfig ∧
    (probeAt equalBytes 4).turn engineConfig = .engine [] ∧
    step (probeAt equalBytes 4) = .next (after (step (probeAt equalBytes 4))) ∧
    (after (step (probeAt equalBytes 4))).run ≠ .idle :=
  ⟨wit_StepKeepsTheInvariant_encode.1, wit_StepKeepsTheInvariant_encode.2.2.1,
    wit_StepKeepsTheInvariant_encode.2.2.2, by decide +kernel⟩

/-- ENCODE of one byte that may grow to 5. -/
def encodeOne : State := ready 1 [0x41] 65 5

/-- Four steps later: SEARCH, PROBE, TAIL, DONE. -/
def encodedOne : State := after (runWith engineConfig 4 (after (exec .encodeCmd encodeOne)))

/-- DECODE of the block, and its end one step later. -/
def decodeOne : State := ready 2 [0, 0, 0, 4, 0x41] 1 0
def decodedOne : State := after (runWith engineConfig 1 (after (exec .decodeCmd decodeOne)))

/-- DECODE of a pattern block with a capacity of `2^31` bytes. -/
def decodeEight : State := ready 2 [1, 2, 3, 4, 5, 6, 7, 8] (2 ^ 31) 0

theorem wit_EncodeRunsToItsEnd : engineConfig.Lawful ∧
    execWith engineConfig .encodeCmd encodeOne = .next (after (exec .encodeCmd encodeOne)) ∧
    runWith engineConfig 4 (after (exec .encodeCmd encodeOne)) = .next encodedOne ∧
    encodeOne.host = [] ∧ encodeOne.encodeArgsBad = false ∧ encodeOne.encodeRegionsOk engineConfig = true ∧
    encodedOne.run = .idle ∧ 0 < encodedOne.result.toInt :=
  ⟨engineConfig_lawful, eq_next (by decide +kernel), eq_next (by decide +kernel), by decide +kernel⟩
theorem wit_DecodeRunsToItsEnd :
    execWith engineConfig .decodeCmd decodeOne = .next (after (exec .decodeCmd decodeOne)) ∧
    runWith engineConfig 1 (after (exec .decodeCmd decodeOne)) = .next decodedOne ∧
    decodeOne.host = [] ∧ decodeOne.decodeArgsBad = false ∧ decodeOne.decodeRegionsOk engineConfig = true ∧
    decodeOne.desc.inLen.toNat ≠ 8 ∧ decodedOne.run = .idle ∧ 0 < decodedOne.result.toInt ∧
    decodeOne.desc.outCap.toNat < 2 ^ 31 ∧ decodedOne.result ≠ Status.failed.code engineConfig ∧
    decodedOne.result ≠ Status.readError.code engineConfig :=
  ⟨eq_next (by decide +kernel), eq_next (by decide +kernel), by decide +kernel⟩
/-- The pattern path of the same statements, with a capacity that does not fit `RESULT`. -/
theorem wit_DecodeRunsToItsEnd_pattern :
    execWith engineConfig .decodeCmd decodeEight = .next (after (exec .decodeCmd decodeEight)) ∧
    runWith engineConfig 1 (after (exec .decodeCmd decodeEight)) =
      .next (after (runWith engineConfig 1 (after (exec .decodeCmd decodeEight)))) ∧
    decodeEight.host = [] ∧ decodeEight.decodeArgsBad = false ∧ decodeEight.decodeRegionsOk engineConfig = true ∧
    decodeEight.desc.inLen.toNat = 8 ∧ 2 ^ 31 ≤ decodeEight.desc.outCap.toNat ∧
    (after (runWith engineConfig 1 (after (exec .decodeCmd decodeEight)))).run = .idle ∧
    (after (runWith engineConfig 1 (after (exec .decodeCmd decodeEight)))).result = 4096 :=
  ⟨eq_next (by decide +kernel), eq_next (by decide +kernel), by decide +kernel⟩

/-- The same input elsewhere, with bytes already in OUT and STATE: the two states of the function statements. -/
def elsewhere (s : State) : State :=
  { s with mem := ((s.mem.writeBytes 0x21000 (s.mem.readBytes 0x1000 8)).write 0x23000 0x55#8).write 0x28000 0x55#8,
           desc := { s.desc with inBase := 0x21000, outBase := 0x23000, stateBase := 0x28000 } }

theorem wit_DecodeIsAFunctionOfItsInput :
    execWith engineConfig .decodeCmd (elsewhere decodeOne) = .next (after (exec .decodeCmd (elsewhere decodeOne))) ∧
    runWith engineConfig 1 (after (exec .decodeCmd (elsewhere decodeOne))) =
      .next (after (runWith engineConfig 1 (after (exec .decodeCmd (elsewhere decodeOne))))) ∧
    (after (runWith engineConfig 1 (after (exec .decodeCmd (elsewhere decodeOne))))).run = .idle ∧
    (elsewhere decodeOne).host = [] ∧
    (elsewhere decodeOne).decodeArgsBad = false ∧ decodeOne.desc.inLen = (elsewhere decodeOne).desc.inLen ∧
    decodeOne.desc.outCap = (elsewhere decodeOne).desc.outCap ∧
    (∀ j, j < decodeOne.desc.inLen.toNat → decodeOne.inByte j = (elsewhere decodeOne).inByte j) :=
  ⟨eq_next (by decide +kernel), eq_next (by decide +kernel), by decide +kernel⟩
theorem wit_EncodeIsAFunctionOfItsInput :
    execWith engineConfig .encodeCmd (elsewhere encodeOne) = .next (after (exec .encodeCmd (elsewhere encodeOne))) ∧
    runWith engineConfig 4 (after (exec .encodeCmd (elsewhere encodeOne))) =
      .next (after (runWith engineConfig 4 (after (exec .encodeCmd (elsewhere encodeOne))))) ∧
    (after (runWith engineConfig 4 (after (exec .encodeCmd (elsewhere encodeOne))))).run = .idle ∧
    (elsewhere encodeOne).host = [] ∧
    (elsewhere encodeOne).encodeArgsBad = false ∧ encodeOne.desc.inLen = (elsewhere encodeOne).desc.inLen ∧
    encodeOne.desc.outCap = (elsewhere encodeOne).desc.outCap ∧
    encodeOne.desc.softLimit = (elsewhere encodeOne).desc.softLimit ∧
    (∀ j, j < encodeOne.desc.inLen.toNat → encodeOne.inByte j = (elsewhere encodeOne).inByte j) :=
  ⟨eq_next (by decide +kernel), eq_next (by decide +kernel), by decide +kernel⟩
/-- Beside `wit_EncodeRunsToItsEnd`, the hypotheses on the decoding side. -/
theorem wit_DecodeOfEncodeIsTheInput : decodeOne.host = [] ∧ decodeOne.decodeArgsBad = false ∧
    decodeOne.decodeRegionsOk engineConfig = true ∧ decodeOne.desc.inLen = encodedOne.result ∧
    encodeOne.desc.inLen.toNat ≤ decodeOne.desc.outCap.toNat ∧
    (∀ j, j < encodedOne.result.toNat → decodeOne.inByte j = encodedOne.outByte j) := by decide +kernel

/-! #### The host's duty -/

theorem wit_StartChecksTheHostsDuty : RegName.cmd ≠ .result ∧
    (withHost State.reset [.writeReg .cmd 3]).turn engineConfig = .host (.writeReg .cmd 3) [] ∧
    (withHost (ready 2 [0, 0, 0, 4, 0x41] 64 0) [.start]).turn engineConfig = .host .start [] ∧
    decode .command [(ready 2 [0, 0, 0, 4, 0x41] 64 0).desc.cmd] = .ok .decodeCmd [] ∧
    goesOn (step (withHost State.reset [.writeReg .cmd 3])) = true ∧
    (withHost State.reset [.readReg .cmd]).turn engineConfig = .host (.readReg .cmd) [] ∧
    goesOn (step (withHost State.reset [.readReg .cmd])) = true ∧
    (withHost State.reset [.readReg .result]).turn engineConfig = .host (.readReg .result) [] ∧
    goesOn (step (withHost State.reset [.readReg .result])) = true ∧
    goesOn (step (withHost (ready 2 [0, 0, 0, 4, 0x41] 64 0) [.start])) = true := by decide +kernel

end Sys2Proof.Machine.Tests
end

section
/-! PROOF. The configuration's obligations (00_scope): the statuses (R14, R270), the start of a search (R10, R162) and
the hash (R10, R118). -/

namespace Sys2Proof.Machine

/-! ### The statuses -/

theorem Status.code_neg {cfg : Config} (h : cfg.Lawful) {st : Status} (hst : st ≠ .incompressible) :
    (st.code cfg).toInt < 0 := by
  cases st with
  | incompressible => exact absurd rfl hst
  | failed => exact h.failed_neg
  | readError => exact h.readError_neg
  | invalidArgument => exact h.invalidArgument_neg

/-- The sign tells INCOMPRESSIBLE from the others. -/
theorem Status.code_eq_incompressibleCode {cfg : Config} (h : cfg.Lawful) {st : Status} :
    st.code cfg = Config.incompressibleCode ↔ st = .incompressible := by
  constructor
  · intro hc
    by_contra hst
    have hneg := Status.code_neg h hst
    rw [hc] at hneg
    exact absurd hneg (by decide)
  · rintro rfl
    rfl

theorem Status.code_injective {cfg : Config} (h : cfg.Lawful) : Function.Injective (Status.code cfg) := by
  intro st st' heq
  obtain ⟨hfr, hfi, hri⟩ := h.statuses_distinct
  match st, st', heq with
  | .incompressible, _, heq => exact ((Status.code_eq_incompressibleCode h).1 heq.symm).symm
  | _, .incompressible, heq => exact (Status.code_eq_incompressibleCode h).1 heq
  | .failed, .failed, _ | .readError, .readError, _ | .invalidArgument, .invalidArgument, _ => rfl
  | .failed, .readError, heq => exact absurd heq hfr
  | .readError, .failed, heq => exact absurd heq.symm hfr
  | .failed, .invalidArgument, heq => exact absurd heq hfi
  | .invalidArgument, .failed, heq => exact absurd heq.symm hfi
  | .readError, .invalidArgument, heq => exact absurd heq hri
  | .invalidArgument, .readError, heq => exact absurd heq.symm hri

/-- Settles O37: the negative sign separates INCOMPRESSIBLE, and a lawful configuration keeps the others distinct. -/
theorem statusesAreToldApart : Obligations.StatusesAreToldApart := by
  unfold Obligations.StatusesAreToldApart
  refine ⟨fun cfg h => ⟨rfl, fun _ => Status.code_neg h, fun _ _ heq => Status.code_injective h heq⟩,
    Tests.engineConfig_lawful, ?_⟩
  decide

/-! ### The start of a search -/

/-- SEARCH in every configuration (R162). -/
theorem encoderStep_search (cfg : Config) (s : State) :
    encoderStep cfg .search s = { s with run := .encoding .probe, enc := { s.enc with step := cfg.stepInit } } := rfl

theorem engineConfig_stepInit : engineConfig.stepInit = 32 := rfl

/-- Settles O38: SEARCH at the schedule's first value, which is 32 for this engine. -/
theorem searchStartsTheProbes : Obligations.SearchStartsTheProbes := by
  unfold Obligations.SearchStartsTheProbes
  refine ⟨fun s => ?_, encoderStep_search⟩
  rw [encoderStep_search, engineConfig_stepInit]

/-! ### The hash -/

/-- Keeping 12 bits from bit 20 on is a division, since the product is below `2^32` (R118). -/
theorem toNat_hash32 (w : Window) : (hash32 w).toNat = w.toNat * 2654435761 % 2 ^ 32 / 2 ^ 20 := by
  have hlt : w.toNat * 2654435761 % 2 ^ 32 / 2 ^ 20 < 2 ^ 12 := by omega
  rw [hash32, BitVec.extractLsb'_toNat, BitVec.toNat_mul, Nat.shiftRight_eq_div_pow,
    show (0x9E3779B1#32).toNat = 2654435761 by decide, Nat.mod_eq_of_lt hlt]

theorem engineConfig_hash_toNat (w : Window) : engineConfig.hash w.toNat = hash32 w :=
  congrArg hash32 (BitVec.ofNat_toNat 32 w |>.trans (BitVec.setWidth_eq w))

theorem hashAt_engineConfig (s : State) (i : Nat) : s.hashAt engineConfig i = hash32 (s.read4 i) := rfl

/-- Settles O44: the top 12 bits by arithmetic, and the hashed bytes are those of `Read4`. -/
theorem hashIsTheTopOfTheProduct : Obligations.HashIsTheTopOfTheProduct := by
  unfold Obligations.HashIsTheTopOfTheProduct
  refine ⟨fun w => ?_, fun s i => ?_⟩
  · rw [engineConfig_hash_toNat, toNat_hash32]
  · rw [engineConfig_hash_toNat, hashAt_engineConfig]

end Sys2Proof.Machine
end

section
/-! PROOF. The laws of a host move: when it comes to its turn, what it leaves, and the host's obligations
(10_state; R20 to R25, R35, R36, R60 to R63). -/

namespace Sys2Proof.Machine

/-! ### Whose turn it is -/

theorem guard_of_turn_host {cfg : Config} {s : State} {m : HostMove} {rest : List HostEvent}
    (h : s.turn cfg = .host m rest) : s.run = .idle ∨ m.whileBusy cfg s = true := by
  rcases turn_cases cfg s with ⟨ht, -, -⟩ | ⟨ev, rest', -, ht, hg⟩ | ⟨q, ht, -⟩
  · simp [ht] at h
  · rw [h] at ht
    injection ht with hm
    exact hm ▸ hg.imp id fun hb => hb.2.1
  · simp [ht] at h

theorem idle_of_turn_host {cfg : Config} {s : State} {m : HostMove} {rest : List HostEvent}
    (h : s.turn cfg = .host m rest) (hm : m.whileBusy cfg s = false) : s.run = .idle :=
  (guard_of_turn_host h).resolve_right (by simp [hm])

theorem busy_of_turn_engine {cfg : Config} {s : State} {q : List HostEvent} (h : s.turn cfg = .engine q) :
    s.run ≠ .idle := by
  rcases turn_cases cfg s with ⟨ht, -, -⟩ | ⟨ev, rest, -, ht, -⟩ | ⟨q', -, hb⟩
  · simp [ht] at h
  · simp [ht] at h
  · exact hb

theorem stepWith_of_turn_host {cfg : Config} {s : State} {m : HostMove} {rest : List HostEvent}
    (h : s.turn cfg = .host m rest) : stepWith cfg s = hostStep cfg m { s with host := rest } := by
  simp only [stepWith, h]

theorem stepWith_of_turn_engine {cfg : Config} {s : State} {q : List HostEvent} (h : s.turn cfg = .engine q) :
    stepWith cfg s = engineStep cfg { s with host := q } := by
  simp only [stepWith, h]

/-- An IDLE engine leaves every turn to the host (R35). -/
theorem stepWith_idle_host (cfg : Config) {s : State} {ev : HostEvent} {rest : List HostEvent} (hr : s.run = .idle)
    (hh : s.host = ev :: rest) : stepWith cfg s = hostStep cfg ev.move { s with host := rest } :=
  stepWith_of_turn_host (by simp [State.turn, hh, hr])

/-! ### The moves -/

/-- The state after the host's write of a descriptor register. -/
def State.withReg (cfg : Config) (s : State) (r : RegName) (v : Nat) : State :=
  { s with desc := s.desc.write cfg r v, duty := s.duty.mark r }

theorem hostStep_writeReg (cfg : Config) (s : State) {r : RegName} (v : Nat) (hr : r ≠ .result) :
    hostStep cfg (.writeReg r v) s = .next (s.withReg cfg r v) := by
  simp only [hostStep, hostAct, hr, if_false, State.withReg]

@[simp] theorem hostStep_writeReg_result (cfg : Config) (s : State) (v : Nat) :
    hostStep cfg (.writeReg .result v) s = .next s := rfl

@[simp] theorem hostStep_readReg (cfg : Config) (s : State) (r : RegName) :
    hostStep cfg (.readReg r) s = .next (s.readReg r) := rfl

@[simp] theorem hostStep_writeMem (cfg : Config) (s : State) (a : Nat) (b : Byte) :
    hostStep cfg (.writeMem a b) s = .next { s with mem := s.mem.write (busAddr cfg a) b } := rfl

@[simp] theorem hostStep_readMem (cfg : Config) (s : State) (a : Nat) :
    hostStep cfg (.readMem a) s = .next { s with rdata := (s.mem.read (busAddr cfg a)).toNat } := rfl

@[simp] theorem hostStep_reset (cfg : Config) (s : State) : hostStep cfg .reset s = .next s.resetEngine := rfl

@[simp] theorem hostStep_start (cfg : Config) (s : State) : hostStep cfg .start s = startCommand cfg s := rfl

/-! ### Registers -/

/-- A register takes the low bits of what is written to it, as many as it is wide (R21, R22, R23; log 15). -/
theorem regValue_withReg_self (cfg : Config) (s : State) {r : RegName} (v : Nat) (hr : r ≠ .result) :
    (s.withReg cfg r v).regValue r = (v % 2 ^ r.width cfg : Nat) := by
  cases r with
  | result => exact absurd rfl hr
  | cmd | inLen | outCap | softLimit => simp [State.regValue, State.withReg, Desc.write, RegName.width]
  | stateBase | inBase | outBase => rfl

/-- A write of one register leaves every other as it was. -/
theorem regValue_withReg_ne (cfg : Config) (s : State) {r r' : RegName} (v : Nat) (h : r' ≠ r) :
    (s.withReg cfg r v).regValue r' = s.regValue r' := by
  cases r <;> cases r' <;> first | exact absurd rfl h | rfl

/-- A register just written passes the check of a read. -/
theorem HostDuty.check_mark_self (d : HostDuty) (r : RegName) : (d.mark r).check [r] = d.mark r := by
  simp [HostDuty.check, HostDuty.mark]

theorem readReg_of_ne_result (s : State) {r : RegName} (hr : r ≠ .result) :
    (s.readReg r).rdata = s.regValue r ∧ (s.readReg r).duty = s.duty.check [r] := by
  rcases s.readReg_cases r with ⟨h, -⟩ | ⟨-, hd, hu, -⟩
  · exact absurd h hr
  · exact ⟨hd, hu⟩

/-- Settles O1: the reset state is IDLE, and an IDLE engine with no coming host move rests. -/
theorem idleEngineWaitsForTheHost : Obligations.IdleEngineWaitsForTheHost := by
  unfold Obligations.IdleEngineWaitsForTheHost
  exact ⟨rfl, fun cfg _ hr hh => stepWith_idle cfg hh hr⟩

/-- Settles O3: the write and the read are two host turns, and the register holds the low bits written. -/
theorem registerReadsBackAsWritten : Obligations.RegisterReadsBackAsWritten := by
  unfold Obligations.RegisterReadsBackAsWritten
  intro cfg s r v n m rest hr hrun hhost
  let t : State := ({ s with host := { after := m, move := .readReg r } :: rest } : State).withReg cfg r v
  have hread := readReg_of_ne_result { t with host := rest } hr
  refine ⟨t, _, (stepWith_idle_host cfg hrun hhost).trans (hostStep_writeReg cfg _ v hr),
    stepWith_idle_host cfg (s := t) hrun rfl, hread.1.trans (regValue_withReg_self cfg s v hr),
    fun r' h => regValue_withReg_ne cfg s v h, rfl, rfl, rfl, hrun, rfl, rfl, by rw [hhost]; rfl, rfl, ?_, ?_, ?_, ?_,
    hread.2.trans (HostDuty.check_mark_self s.duty r), ?_⟩
  · exact State.readReg_desc ..
  · exact State.readReg_mem ..
  · exact (State.readReg_run ..).trans hrun
  · exact State.readReg_result ..
  · exact State.readReg_host ..

/-- Settles O4: the write is a turn of the host that has no effect. -/
theorem hostCannotWriteResult : Obligations.HostCannotWriteResult := by
  unfold Obligations.HostCannotWriteResult
  intro cfg s v n rest hrun hhost
  rw [stepWith_idle_host cfg hrun hhost, hostStep_writeReg_result]

/-- Settles O5: the two cases of a read of `RESULT` are those of `State.readReg_cases`. -/
theorem resultHasAValueAfterACommand : Obligations.ResultHasAValueAfterACommand := by
  unfold Obligations.ResultHasAValueAfterACommand
  intro cfg s n rest hrun hhost
  refine ⟨_, stepWith_idle_host cfg hrun hhost, by simpa using hrun, by simp, by simp, by simp, by simp, by simp,
    by simp, by simp, ?_⟩
  rcases ({ s with host := rest } : State).readReg_cases .result with ⟨-, hv, hd, hu, -⟩ | ⟨hv, hd, hu, -⟩
  · rw [hd, hu]
    exact ⟨rfl, fun _ => ⟨rfl, _, rfl⟩, fun h => absurd (hv.symm.trans h) (by decide)⟩
  · have hv : s.resultValid = true := hv rfl
    rw [hd, hu]
    refine ⟨rfl, fun h => absurd (h.symm.trans hv) (by decide), fun _ => ⟨rfl, ?_⟩⟩
    simp [HostDuty.check_broken]

/-! ### Memory -/

/-- Settles O7: the byte written reads back at its bus address, and every other address reads as before. -/
theorem hostMemoryWriteIsRead : Obligations.HostMemoryWriteIsRead := by
  unfold Obligations.HostMemoryWriteIsRead
  intro cfg s a b n m rest hrun hhost
  let t : State := { s with host := { after := m, move := .readMem a } :: rest, mem := s.mem.write (busAddr cfg a) b }
  have hwrite : stepWith cfg s = .next t := (stepWith_idle_host cfg hrun hhost).trans (hostStep_writeMem ..)
  have hread := (stepWith_idle_host cfg (s := t) hrun rfl).trans (hostStep_readMem ..)
  refine ⟨t, _, hwrite, hread, ?_, Memory.read_write_self _ (busAddr cfg a) b,
    fun x hx => Memory.read_write_ne _ _ hx, rfl, rfl, rfl, rfl, hrun, hrun, rfl, rfl, rfl⟩
  exact congrArg (fun c : Byte => (c.toNat : Int)) (Memory.read_write_self _ (busAddr cfg a) b)

/-- What the engine does not hold while BUSY lies in no region of the running command (R63). -/
theorem not_covered_of_not_held {s : State} {a : Nat} (hb : s.run ≠ .idle) (h : s.heldByEngine a = false) :
    s.inRegion.covers a = false ∧ s.outRegion.covers a = false ∧
      (∀ st, s.run = .encoding st → s.scratchRegion.covers a = false) := by
  unfold State.heldByEngine at h
  cases hr : s.run with
  | idle => exact absurd hr hb
  | encoding st =>
    simp only [hr, Bool.or_eq_false_iff] at h
    exact ⟨h.1.1, h.1.2, fun _ _ => h.2⟩
  | pattern | decoding =>
    simp only [hr, Bool.or_eq_false_iff] at h
    exact ⟨h.1, h.2, nofun⟩

theorem not_held_of_writeMem {cfg : Config} {s : State} {a : Nat} {b : Byte} {rest : List HostEvent}
    (hb : s.run ≠ .idle) (h : s.turn cfg = .host (.writeMem a b) rest) : s.heldByEngine (busAddr cfg a) = false := by
  simpa [HostMove.whileBusy] using (guard_of_turn_host h).resolve_left hb

/-- Settles O6: a move of the host while BUSY passed `HostMove.whileBusy`, and a read of IN always does. -/
theorem hostKeepsOffHeldMemory : Obligations.HostKeepsOffHeldMemory := by
  unfold Obligations.HostKeepsOffHeldMemory
  refine ⟨fun cfg s m rest hb h => ?_, fun cfg s a rest hb hin hhost => ?_⟩
  · refine ⟨?_, ?_, ?_, ?_, ?_⟩
    · rintro r v rfl
      exact hb (idle_of_turn_host h rfl)
    · rintro r rfl
      exact hb (idle_of_turn_host h rfl)
    · rintro rfl
      exact hb (idle_of_turn_host h rfl)
    · rintro a b rfl
      exact not_covered_of_not_held hb (not_held_of_writeMem hb h)
    · rintro a rfl hin
      have hw := (guard_of_turn_host h).resolve_left hb
      have hheld : s.heldByEngine (busAddr cfg a) = false := by
        simpa only [HostMove.whileBusy, hin, Bool.false_or, Bool.not_eq_true'] using hw
      exact (not_covered_of_not_held hb hheld).2
  · have hw : HostMove.whileBusy cfg (.readMem a) s = true := by
      simp only [HostMove.whileBusy, hin, Bool.true_or]
    simp only [State.turn, hhost, hb, hw, if_true, if_false]

/-! ### Reset -/

/-- Everything an abandoned command leaves behind (R35, R36; log 17). -/
theorem State.abandon_cases (s : State) :
    (s.run = .idle ∧ s.abandon = s) ∨
    (∃ st, s.run = .encoding st ∧ s.abandon = (s.scrambleOut 0).scrambleScratch) ∨
    ((s.run = .pattern ∨ s.run = .decoding) ∧ s.abandon = s.scrambleOut 0) := by
  unfold State.abandon
  cases hr : s.run <;> simp

theorem State.abandon_of_idle (s : State) (hr : s.run = .idle) : s.abandon = s := by simp only [State.abandon, hr]

/-- All of OUT made unspecified, by the region (U2). -/
theorem State.read_scrambleOut_zero (s : State) (a : Nat) :
    (s.scrambleOut 0).mem.read a =
      if s.outRegion.covers a then Config.freeByte s.freeCtr a else s.mem.read a := by
  rw [State.read_scrambleOut]
  simp [State.outRegion, State.outAddr]

/-- OUT and STATE made unspecified (U2, U3). -/
theorem State.read_scrambleOut_scrambleScratch (s : State) (a : Nat) :
    (s.scrambleOut 0).scrambleScratch.mem.read a =
      if s.scratchRegion.covers a then Config.freeByte (s.freeCtr + 1) a
      else if s.outRegion.covers a then Config.freeByte s.freeCtr a else s.mem.read a := by
  rw [State.read_scrambleScratch, State.read_scrambleOut_zero]
  rfl

theorem State.read_abandon_outside (s : State) {a : Nat} (ho : s.outRegion.covers a = false)
    (hs : s.scratchRegion.covers a = false ∨ ∀ st, s.run ≠ .encoding st) : s.abandon.mem.read a = s.mem.read a := by
  rcases s.abandon_cases with ⟨-, h⟩ | ⟨st, hr, h⟩ | ⟨-, h⟩
  · rw [h]
  · have hs := hs.resolve_right fun hn => hn st hr
    rw [h, State.read_scrambleOut_scrambleScratch, if_neg (by simp [hs]), if_neg (by simp [ho])]
  · rw [h, State.read_scrambleOut_zero, if_neg (by simp [ho])]

theorem State.read_abandon_out (s : State) {a : Nat} (hb : s.run ≠ .idle) (ho : s.outRegion.covers a = true) :
    ∃ epoch, s.abandon.mem.read a = Config.freeByte epoch a := by
  rcases s.abandon_cases with ⟨hr, -⟩ | ⟨st, -, h⟩ | ⟨-, h⟩
  · exact absurd hr hb
  · rw [h, State.read_scrambleOut_scrambleScratch, if_pos ho]
    split
    · exact ⟨_, rfl⟩
    · exact ⟨_, rfl⟩
  · exact ⟨_, by rw [h, State.read_scrambleOut_zero, if_pos ho]⟩

theorem State.read_abandon_scratch (s : State) {a : Nat} {st : EncState} (hr : s.run = .encoding st)
    (hs : s.scratchRegion.covers a = true) : ∃ epoch, s.abandon.mem.read a = Config.freeByte epoch a := by
  rcases s.abandon_cases with ⟨hr', -⟩ | ⟨st, -, h⟩ | ⟨hr', -⟩
  · simp [hr] at hr'
  · exact ⟨_, by rw [h, State.read_scrambleOut_scrambleScratch, if_pos hs]⟩
  · simp [hr] at hr'

/-- Settles O2: the turn is `State.resetEngine`, whose memory is that of the abandoned command. -/
theorem resetAbandonsTheCommand : Obligations.ResetAbandonsTheCommand := by
  unfold Obligations.ResetAbandonsTheCommand
  intro cfg s rest h
  let s' : State := { s with host := rest }
  have hstep : stepWith cfg s = .next s'.resetEngine := (stepWith_of_turn_host h).trans (hostStep_reset ..)
  refine ⟨_, hstep, rfl, rfl, rfl, rfl, fun hr a => ?_, fun a => s'.read_abandon_outside,
    fun hb a => s'.read_abandon_out hb, fun st hr a => s'.read_abandon_scratch hr⟩
  change s'.abandon.mem.read a = s'.mem.read a
  rw [s'.abandon_of_idle hr]

end Sys2Proof.Machine
end

section
/-! PROOF. Everything one step of the engine can change, said once for DECODE, for ENCODE and for a start; from it, that
the engine keeps the descriptor (R25) and that a start checks the host's duty (R35, R301; log 23). -/

namespace Sys2Proof.Machine

/-! ### A step of DECODE -/

/-- What a step of DECODE can do: it changes memory and the decoder's registers, and where it ends the command also
`RUN`, `RESULT` and the count of draws (R16, R276). -/
inductive DecodeStep (s : State) : State → Prop
  | goesOn (m : Memory) (d : Dec) : DecodeStep s { s with mem := m, dec := d }
  | ends (r : Word32) (m : Memory) (d : Dec) (c : Nat) :
    DecodeStep s { s with run := .idle, result := r, resultValid := true, mem := m, dec := d, freeCtr := c }

namespace DecodeStep

variable {s t : State}

theorem sameHostSide (h : DecodeStep s t) : sameHostSide s t := by
  cases h with
  | goesOn m d => exact ⟨rfl, rfl, rfl, rfl⟩
  | ends r m d c => exact ⟨rfl, rfl, rfl, rfl⟩

theorem enc (h : DecodeStep s t) : t.enc = s.enc := by
  cases h with
  | goesOn m d => rfl
  | ends r m d c => rfl

theorem run (h : DecodeStep s t) : t.run = s.run ∨ t.run = .idle := by
  cases h with
  | goesOn m d => exact .inl rfl
  | ends r m d c => exact .inr rfl

theorem result (h : DecodeStep s t) (hb : s.run ≠ .idle) :
    (t.run ≠ .idle → t.result = s.result ∧ t.resultValid = s.resultValid) ∧ (t.run = .idle → t.resultValid = true) := by
  cases h with
  | goesOn m d => exact ⟨fun _ => ⟨rfl, rfl⟩, fun hi => absurd hi hb⟩
  | ends r m d c => exact ⟨fun hn => absurd rfl hn, fun _ => rfl⟩

end DecodeStep

/-- The state after the literal copy of a token (R207). -/
def State.literalDone (s : State) (litLen : Nat) : State :=
  { s with mem := s.copyLiteral s.dec.ip s.dec.op litLen,
           dec := { s.dec with ip := s.dec.ip + litLen, op := s.dec.op + litLen } }

/-- The state after the back-reference of a token (R213). -/
def State.repeatDone (s : State) (off repLen : Nat) : State :=
  { s with mem := s.copyRepeat s.dec.op off repLen, dec := { s.dec with op := s.dec.op + repLen } }

theorem literalRun_eq_literalDone (litLen : Nat) (s : State) :
    (s.dec.ip + litLen ≤ s.dec.inLen ∧ s.dec.op + litLen ≤ s.dec.outCap ∧
      literalRun litLen s = some (s.literalDone litLen)) ∨ literalRun litLen s = none :=
  (literalRun_cases litLen s).imp id And.right

theorem backReference_eq_repeatDone (off repLen : Nat) (s : State) :
    (s.dec.op + repLen ≤ s.dec.outCap ∧ backReference off repLen s = some (s.repeatDone off repLen)) ∨
      backReference off repLen s = none :=
  (backReference_cases off repLen s).imp And.right And.right

/-- EOB ends the command at the literals, after them by its shape, or with the output (R209). -/
theorem eobWith_cases (cfg : Config) (litLen repLen : Nat) (s : State) :
    eobWith cfg litLen repLen s = .next (s.failDecode cfg .failed) ∨
    (s.dec.ip + litLen ≤ s.dec.inLen ∧ s.dec.op + litLen ≤ s.dec.outCap ∧
      (eobWith cfg litLen repLen s = .next ((s.literalDone litLen).failDecode cfg .failed) ∨
        eobWith cfg litLen repLen s = .next ((s.literalDone litLen).finishDecode (s.dec.op + litLen)))) := by
  unfold eobWith
  rcases literalRun_eq_literalDone litLen s with ⟨hip, hop, h⟩ | h
  · rw [h]
    refine .inr ⟨hip, hop, ?_⟩
    dsimp only
    split
    · exact .inr rfl
    · exact .inl rfl
  · rw [h]
    exact .inl rfl

/-- A token with a back-reference fails at its literals or after them, or goes on with both parts copied, each inside
its bounds (R206, R207, R212). -/
theorem tokenRun_cases (cfg : Config) (off litLen repLen : Nat) (s : State) :
    tokenRun cfg off litLen repLen s = s.failDecode cfg .failed ∨
    (s.dec.ip + litLen ≤ s.dec.inLen ∧ s.dec.op + litLen ≤ s.dec.outCap ∧
      (tokenRun cfg off litLen repLen s = (s.literalDone litLen).failDecode cfg .failed ∨
        (s.dec.op + litLen + repLen ≤ s.dec.outCap ∧
          tokenRun cfg off litLen repLen s = (s.literalDone litLen).repeatDone off repLen))) := by
  unfold tokenRun
  rcases literalRun_eq_literalDone litLen s with ⟨hip, hop, h⟩ | h
  · rw [h]
    refine .inr ⟨hip, hop, ?_⟩
    dsimp only
    rcases backReference_eq_repeatDone off repLen (s.literalDone litLen) with ⟨hr, h'⟩ | h'
    · rw [h']
      exact .inr ⟨hr, rfl⟩
    · rw [h']
      exact .inl rfl
  · rw [h]
    exact .inl rfl

/-- A pattern block fails, or ends with the output tiled inside its bound (R216). -/
theorem patternWith_cases (cfg : Config) (bytes : List Byte) (s : State) :
    patternWith cfg bytes s = .next (s.failDecode cfg .failed) ∨
    ∃ m ≤ s.dec.outCap, patternWith cfg bytes s =
      .next (({ s with mem := s.mem.tile (s.outAddr 0) bytes 0 m } : State).finish m) := by
  unfold patternWith
  dsimp only
  split
  · exact .inl rfl
  · exact .inr ⟨_, Nat.min_le_left .., rfl⟩

@[simp] theorem State.form_fetchBlock (s : State) : s.fetchBlock.form = .block := rfl

theorem tokenRun_decodeStep (cfg : Config) (off litLen repLen : Nat) (s : State) :
    DecodeStep s (tokenRun cfg off litLen repLen s) := by
  rcases tokenRun_cases cfg off litLen repLen s with h | ⟨-, -, h | ⟨-, h⟩⟩
  · rw [h]
    exact .ends ..
  · rw [h]
    exact .ends ..
  · rw [h]
    exact .goesOn ..

/-- The tokens and the pattern block are the steps of DECODE. -/
theorem execWith_decodeStep {cfg : Config} {i : Instr} {s t : State} (hi : i.form ≠ .command)
    (h : execWith cfg i s = .next t) : DecodeStep s t := by
  cases i with
  | eob litLen repLen =>
    rcases eobWith_cases cfg litLen repLen s with h' | ⟨-, -, h' | h'⟩
    · cases h'.symm.trans h
      exact .ends ..
    · cases h'.symm.trans h
      exact .ends ..
    · cases h'.symm.trans h
      exact .ends ..
  | rep off repLen =>
    cases h
    exact tokenRun_decodeStep ..
  | tuple off litLen repLen =>
    cases h
    exact tokenRun_decodeStep ..
  | pattern bytes =>
    rcases patternWith_cases cfg bytes s with h' | ⟨m, -, h'⟩
    · cases h'.symm.trans h
      exact .ends ..
    · cases h'.symm.trans h
      exact .ends ..
  | encodeCmd | decodeCmd | scratchMin => exact absurd rfl hi

@[simp] theorem form_fields_instr (f : Fields) : f.instr.form = .token := by
  unfold Fields.instr
  split
  · rfl
  · split
    · rfl
    · rfl

/-- A token step runs the latched token, or fails by the rejection's status (R202, R203). -/
theorem tokenStep_cases (cfg : Config) (s : State) :
    (∃ f, s.fetchToken = .ok f ∧ tokenStep cfg s = execWith cfg f.instr { s with dec := s.dec.latch f }) ∨
    (∃ st, tokenStep cfg s = .next (s.failDecode cfg st)) := by
  unfold tokenStep
  cases hf : s.fetchToken with
  | ok f => exact .inl ⟨f, rfl, rfl⟩
  | reject r => exact .inr ⟨_, rfl⟩

theorem tokenStep_decodeStep {cfg : Config} {s t : State} (h : tokenStep cfg s = .next t) : DecodeStep s t := by
  rcases tokenStep_cases cfg s with ⟨f, -, h'⟩ | ⟨st, h'⟩
  · have hstep := execWith_decodeStep (by simp) (h'.symm.trans h)
    cases hstep with
    | goesOn m d => exact .goesOn m d
    | ends r m d c => exact .ends r m d c
  · cases h'.symm.trans h
    exact .ends ..

/-! ### A step of ENCODE -/

/-- What a step of ENCODE can do: it changes memory, the encoder's registers and `RUN`, and where it ends the command
also `RESULT` and the count of draws (R16, R176). -/
inductive EncodeStep (s : State) : State → Prop
  | goesOn (r : Run) (m : Memory) (e : Enc) (hr : r ≠ .idle) : EncodeStep s { s with run := r, mem := m, enc := e }
  | ends (r : Word32) (m : Memory) (c : Nat) :
    EncodeStep s { s with run := .idle, result := r, resultValid := true, mem := m, freeCtr := c }

namespace EncodeStep

variable {s t : State}

theorem sameHostSide (h : EncodeStep s t) : sameHostSide s t := by
  cases h with
  | goesOn r m e hr => exact ⟨rfl, rfl, rfl, rfl⟩
  | ends r m c => exact ⟨rfl, rfl, rfl, rfl⟩

theorem result (h : EncodeStep s t) :
    (t.run ≠ .idle → t.result = s.result ∧ t.resultValid = s.resultValid) ∧ (t.run = .idle → t.resultValid = true) := by
  cases h with
  | goesOn r m e hr => exact ⟨fun _ => ⟨rfl, rfl⟩, fun hi => absurd hi hr⟩
  | ends r m c => exact ⟨fun hn => absurd rfl hn, fun _ => rfl⟩

end EncodeStep

/-- PROBE ends the search near the end of the input, finds a match, or moves on by the stride (R163 to R166). -/
theorem encProbeState_cases (cfg : Config) (s : State) :
    (s.enc.inLen < s.enc.p + Config.nearEnd ∧ encProbeState cfg s = { s with run := .encoding .tail }) ∨
    (s.enc.p + Config.nearEnd ≤ s.enc.inLen ∧
      ((encProbe cfg s).enc.q < s.enc.p ∧ (encProbe cfg s).equal4 (encProbe cfg s).enc.q s.enc.p = true ∧
          encProbeState cfg s = { encProbe cfg s with run := .encoding .matching } ∨
        encProbeState cfg s = { encProbe cfg s with
          enc := { (encProbe cfg s).enc with p := s.enc.p + cfg.stride s.enc.step, step := s.enc.step + 1 } })) := by
  unfold encProbeState
  split
  · next hend => exact .inl ⟨hend, rfl⟩
  · next hend =>
    refine .inr ⟨by omega, ?_⟩
    dsimp only
    split
    · next hmatch => exact .inl ⟨hmatch.1, hmatch.2, rfl⟩
    · exact .inr rfl

/-- EMIT gives up, or writes the token, which fits the limit (R172). -/
theorem encEmit_cases (s : State) :
    encEmit s = s.giveUpEncode ∨
    (s.enc.o + tokenCost s.enc.litLen (s.enc.repLen - Config.repeatMin) ≤ s.enc.limit ∧
      encEmit s = { s with
        run := .encoding .advance,
        mem := s.withOutBytes s.enc.o (encodeToken (matchToken s.enc) (s.inBytes s.enc.nr0 s.enc.litLen)),
        enc := { s.enc with o := s.enc.o + tokenCost s.enc.litLen (s.enc.repLen - Config.repeatMin) } }) := by
  unfold encEmit
  dsimp only
  split
  · exact .inl rfl
  · exact .inr ⟨by omega, rfl⟩

/-- TAIL gives up, or writes the EOB, which fits the limit (R174). -/
theorem encTail_cases (s : State) :
    encTail s = s.giveUpEncode ∨
    (s.enc.o + tokenCost (s.enc.inLen - s.enc.nr0) 0 ≤ s.enc.limit ∧
      encTail s = { s with
        run := .encoding .done,
        mem := s.withOutBytes s.enc.o (encodeToken (.eob (s.enc.inLen - s.enc.nr0) Config.repeatMin)
          (s.inBytes s.enc.nr0 (s.enc.inLen - s.enc.nr0))),
        enc := { s.enc with o := s.enc.o + tokenCost (s.enc.inLen - s.enc.nr0) 0,
                            litLen := s.enc.inLen - s.enc.nr0 } }) := by
  unfold encTail
  dsimp only
  split
  · exact .inl rfl
  · exact .inr ⟨by omega, rfl⟩

theorem encDone_cases (s : State) : encDone s = s.giveUpEncode ∨ encDone s = s.finishEncode s.enc.o := by
  unfold encDone
  split
  · exact .inl rfl
  · exact .inr rfl

theorem giveUpEncode_encodeStep (s : State) : EncodeStep s s.giveUpEncode := .ends ..

theorem encoderStep_encodeStep (cfg : Config) (st : EncState) {s : State} (hb : s.run ≠ .idle) :
    EncodeStep s (encoderStep cfg st s) := by
  cases st with
  | search => exact .goesOn _ _ _ nofun
  | probe =>
    simp only [encoderStep]
    rcases encProbeState_cases cfg s with ⟨-, h⟩ | ⟨-, ⟨-, -, h⟩ | h⟩
    · rw [h]
      exact .goesOn _ _ _ nofun
    · rw [h]
      exact .goesOn _ _ _ nofun
    · rw [h]
      exact .goesOn _ _ _ hb
  | matching => exact .goesOn _ _ _ nofun
  | emit =>
    simp only [encoderStep]
    rcases encEmit_cases s with h | ⟨-, h⟩
    · rw [h]
      exact giveUpEncode_encodeStep s
    · rw [h]
      exact .goesOn _ _ _ nofun
  | advance => exact .goesOn _ _ _ nofun
  | tail =>
    simp only [encoderStep]
    rcases encTail_cases s with h | ⟨-, h⟩
    · rw [h]
      exact giveUpEncode_encodeStep s
    · rw [h]
      exact .goesOn _ _ _ nofun
  | done =>
    simp only [encoderStep]
    rcases encDone_cases s with h | h
    · rw [h]
      exact giveUpEncode_encodeStep s
    · rw [h]
      exact .ends ..

/-! ### A step of a BUSY engine -/

/-- A BUSY engine takes a step of ENCODE or one of DECODE. -/
theorem engineStep_cases {cfg : Config} {s t : State} (hb : s.run ≠ .idle) (h : engineStep cfg s = .next t) :
    (∃ st, s.run = .encoding st ∧ t = encoderStep cfg st s) ∨
    (s.run = .pattern ∧ execWith cfg s.fetchBlock s = .next t) ∨
    (s.run = .decoding ∧ tokenStep cfg s = .next t) := by
  unfold engineStep at h
  cases hr : s.run with
  | idle => exact absurd hr hb
  | encoding st =>
    simp only [hr, Host.Outcome.next.injEq] at h
    exact .inl ⟨st, rfl, h.symm⟩
  | pattern =>
    simp only [hr] at h
    exact .inr (.inl ⟨rfl, h⟩)
  | decoding =>
    simp only [hr] at h
    exact .inr (.inr ⟨rfl, h⟩)

theorem engineStep_encodeStep_or_decodeStep {cfg : Config} {s t : State} (hb : s.run ≠ .idle)
    (h : engineStep cfg s = .next t) : EncodeStep s t ∨ (DecodeStep s t ∧ (s.run = .pattern ∨ s.run = .decoding)) := by
  rcases engineStep_cases hb h with ⟨st, -, rfl⟩ | ⟨hr, h⟩ | ⟨hr, h⟩
  · exact .inl (encoderStep_encodeStep cfg st hb)
  · exact .inr ⟨execWith_decodeStep (by simp) h, .inl hr⟩
  · exact .inr ⟨tokenStep_decodeStep h, .inr hr⟩

/-! ### A start -/

/-- ENCODE rejects its arguments or begins (R241, R161). -/
theorem encodeWith_cases {cfg : Config} {s t : State} (h : encodeWith cfg s = .next t) :
    t = s.raise cfg .invalidArgument ∨ (s.encodeArgsBad = false ∧ s.encodeRegionsOk cfg = true ∧ t = encInit s) := by
  unfold encodeWith at h
  split at h
  · exact .inl (by cases h; rfl)
  · next hargs =>
    split at h
    · next hregions => exact .inr ⟨by simpa using hargs, hregions, by cases h; rfl⟩
    · cases h

/-- DECODE rejects its arguments or begins (R250, R251). -/
theorem decodeWith_cases {cfg : Config} {s t : State} (h : decodeWith cfg s = .next t) :
    t = s.raise cfg .invalidArgument ∨ (s.decodeArgsBad = false ∧ s.decodeRegionsOk cfg = true ∧ t = decInit s) := by
  unfold decodeWith at h
  split at h
  · exact .inl (by cases h; rfl)
  · next hargs =>
    split at h
    · next hregions => exact .inr ⟨by simpa using hargs, hregions, by cases h; rfl⟩
    · cases h

/-- No instruction changes the descriptor or the host's side, in any configuration (R25). -/
theorem execWith_sameHostSide {cfg : Config} {i : Instr} {s t : State} (h : execWith cfg i s = .next t) :
    sameHostSide s t := by
  cases i with
  | encodeCmd =>
    rcases encodeWith_cases h with rfl | ⟨-, -, rfl⟩
    · exact ⟨rfl, rfl, rfl, rfl⟩
    · exact ⟨rfl, rfl, rfl, rfl⟩
  | decodeCmd =>
    rcases decodeWith_cases h with rfl | ⟨-, -, rfl⟩
    · exact ⟨rfl, rfl, rfl, rfl⟩
    · exact ⟨rfl, rfl, rfl, rfl⟩
  | scratchMin =>
    cases h
    exact ⟨rfl, rfl, rfl, rfl⟩
  | eob _ _ | rep _ _ | tuple _ _ _ | pattern _ => exact (execWith_decodeStep (by simp [Instr.form]) h).sameHostSide

/-- What a byte of `CMD` decodes to is a command (R98). -/
theorem form_of_decode_command {c : Byte} {i : Instr} {more : List Byte} (h : decode .command [c] = .ok i more) :
    i.form = .command := by
  simp only [decode] at h
  split at h
  · next j hj =>
    cases h
    unfold commandOf at hj
    split_ifs at hj <;> cases hj <;> rfl
  · cases h

/-- A start checks the host's duty, and then the command rejects its arguments, begins, or returns at once (R240). -/
theorem startCommand_cases {cfg : Config} {s t : State} (h : startCommand cfg s = .next t) :
    ∃ used, t = (s.checkStart used).raise cfg .invalidArgument ∨
      (s.encodeArgsBad = false ∧ s.encodeRegionsOk cfg = true ∧ t = encInit (s.checkStart used)) ∨
      (s.decodeArgsBad = false ∧ s.decodeRegionsOk cfg = true ∧ t = decInit (s.checkStart used)) ∨
      t = (s.checkStart used).finish Config.scratchBytes := by
  cases hd : decode .command [s.desc.cmd] with
  | reject r =>
    simp only [startCommand, hd, reservedCommand, Host.Outcome.next.injEq] at h
    exact ⟨_, .inl h.symm⟩
  | ok i more =>
    rw [startCommand_ok cfg hd] at h
    refine ⟨registersUsed i, ?_⟩
    cases i with
    | encodeCmd => exact (encodeWith_cases h).imp id .inl
    | decodeCmd => exact (decodeWith_cases h).imp id fun h => .inr (.inl h)
    | scratchMin =>
      cases h
      exact .inr (.inr (.inr rfl))
    | eob _ _ | rep _ _ | tuple _ _ _ | pattern _ => exact absurd (form_of_decode_command hd) nofun

/-! ### The obligations -/

/-- Settles O20: the instructions and the engine's steps by what they can change, the host's writes by their turn. -/
theorem engineKeepsTheDescriptor : Obligations.EngineKeepsTheDescriptor := by
  unfold Obligations.EngineKeepsTheDescriptor
  refine ⟨fun i s t h => execWith_sameHostSide (exec_eq i s ▸ h), fun cfg s t q hturn h => ?_, ?_⟩
  · have hb := busy_of_turn_engine hturn
    rw [stepWith_of_turn_engine hturn] at h
    rcases engineStep_encodeStep_or_decodeStep (s := { s with host := q }) hb h with he | ⟨hd, -⟩
    · obtain ⟨hdesc, hhost, hrdata, hduty⟩ := he.sameHostSide
      exact ⟨hdesc, hrdata, hduty, hhost, he.result⟩
    · obtain ⟨hdesc, hhost, hrdata, hduty⟩ := hd.sameHostSide
      exact ⟨hdesc, hrdata, hduty, hhost, hd.result hb⟩
  · rintro cfg s m rest r v hb hturn rfl
    exact hb (idle_of_turn_host hturn rfl)

/-- The registers a command uses, by exclusion (R20, R22, R23). -/
theorem mem_registersUsed {i : Instr} (hi : i.form = .command) (r : RegName) :
    r ∈ registersUsed i ↔
      r ≠ .result ∧ (r = .cmd ∨ i = .encodeCmd ∨ (i = .decodeCmd ∧ r ≠ .stateBase ∧ r ≠ .softLimit)) := by
  cases i with
  | encodeCmd | decodeCmd | scratchMin => cases r <;> decide
  | eob _ _ | rep _ _ | tuple _ _ _ | pattern _ => exact absurd hi nofun

/-- Settles O56: the marks and the checks are those of `HostDuty.mark` and `HostDuty.check`; a command keeps both. -/
theorem startChecksTheHostsDuty : Obligations.StartChecksTheHostsDuty := by
  unfold Obligations.StartChecksTheHostsDuty
  refine ⟨⟨rfl, fun r => ?_⟩, fun cfg s t r v rest hr hturn h => ?_, fun cfg s t i rest more hturn hd h => ?_,
    fun cfg s t r rest hturn h => ?_⟩
  · cases r <;> decide
  · rw [stepWith_of_turn_host hturn, hostStep_writeReg _ _ _ hr] at h
    cases h
    exact ⟨rfl, fun r' => HostDuty.mem_mark⟩
  · rw [stepWith_of_turn_host hturn, hostStep_start,
      startCommand_ok cfg (s := { s with host := rest }) hd] at h
    obtain ⟨-, -, -, hduty⟩ := execWith_sameHostSide h
    rw [hduty]
    refine ⟨rfl, HostDuty.check_broken.trans (or_congr_right (exists_congr fun r => ?_))⟩
    rw [mem_registersUsed (form_of_decode_command hd) r, and_comm]
  · rw [stepWith_of_turn_host hturn, hostStep_readReg] at h
    cases h
    rcases ({ s with host := rest } : State).readReg_cases r with ⟨hr, hv, -, hu, -⟩ | ⟨hv, -, hu, -⟩
    · rw [hu]
      exact ⟨rfl, fun _ => .inr (.inr ⟨hr, hv⟩), fun _ => rfl⟩
    · have hno : ¬ (r = .result ∧ s.resultValid = false) := fun h => absurd ((hv h.1).symm.trans h.2) nofun
      rw [hu]
      exact ⟨rfl, HostDuty.check_broken.trans (by simp [hno])⟩

end Sys2Proof.Machine
end

section
/-! PROOF. What the invariant rests on: memory inside the address space, hash slots and windows by their bytes, and
the length of a fetched token. -/

namespace Sys2Proof.Machine

/-! ### Memory inside the address space -/

/-- Memory is canonical, below an address, and its spans were drawn before the count `n`. -/
def Memory.okUnder (top n : Nat) (m : Memory) : Prop := m.wf ∧ m.below top ∧ ∀ sp ∈ m.free, sp.epoch < n

theorem memoryOk_iff {cfg : Config} {s : State} :
    s.memoryOk cfg ↔ s.mem.okUnder (2 ^ cfg.addrBits) s.freeCtr := Iff.rfl

namespace Memory.okUnder

variable {m : Memory} {top n : Nat} (h : m.okUnder top n)
include h

theorem write {a : Nat} (ha : a < top) (b : Byte) : (m.write a b).okUnder top n :=
  ⟨Memory.wf_write h.1 a b, Memory.below_write h.2.1 ha b, epoch_cutSpans h.2.2⟩

theorem clear (a k : Nat) : (m.clear a k).okUnder top n :=
  ⟨Memory.wf_clear h.1 a k, Memory.below_clear h.2.1 a k, epoch_clear h.2.2⟩

theorem writeBytes {a : Nat} {bs : List Byte} (ha : a + bs.length ≤ top) : (m.writeBytes a bs).okUnder top n :=
  ⟨Memory.wf_writeBytes h.1 a bs, Memory.below_writeBytes h.2.1 ha, epoch_writeBytes h.2.2⟩

theorem copyForward {src dst k : Nat} (hd : dst + k ≤ top) : (m.copyForward src dst k).okUnder top n :=
  ⟨Memory.wf_copyForward h.1 src dst k, Memory.below_copyForward h.2.1 hd, epoch_copyForward h.2.2⟩

theorem tile {dst i k : Nat} (bytes : List Byte) (hd : dst + k ≤ top) : (m.tile dst bytes i k).okUnder top n :=
  ⟨Memory.wf_tile h.1 dst bytes i k, Memory.below_tile bytes h.2.1 hd, epoch_tile h.2.2⟩

end Memory.okUnder

/-! ### Hash slots (R56, R178) -/

/-- A slot write changes its slot, to the low 16 bits, and no other slot. -/
theorem slot_withSlot {s t : State} {k : SlotIx} {v : Nat} (hd : t.desc = s.desc) (hm : t.mem = s.withSlot k v)
    (j : SlotIx) : t.slot j = if j = k then v % 2 ^ 16 else s.slot j := by
  have haddr : t.slotAddr j = s.slotAddr j := by simp only [State.slotAddr, hd]
  simp only [State.slot, haddr, hm, State.withSlot]
  split
  · next hjk =>
    subst hjk
    exact Memory.readLE_writeLE s.mem (s.slotAddr j) 2 v
  · next hjk =>
    refine Memory.readLE_writeLE_outside _ ?_
    have hne : j.toNat ≠ k.toNat := fun h => hjk (BitVec.eq_of_toNat_eq h)
    simp only [State.slotAddr]
    omega

theorem tableBelow_mono {s : State} {b b' : Nat} (h : s.tableBelow b) (hb : b ≤ b') : s.tableBelow b' :=
  fun k => (h k).trans_le hb

theorem tableBelow_congr {s t : State} {b : Nat} (h : s.tableBelow b) (hd : t.desc = s.desc)
    (hm : ∀ a, s.scratchRegion.covers a = true → t.mem.read a = s.mem.read a) : t.tableBelow b :=
  fun k => (slot_congr hd hm k).trans_lt (h k)

/-- A position written into the table keeps every bound above it (R178). -/
theorem tableBelow_withSlot {s t : State} {k : SlotIx} {v b b' : Nat} (h : s.tableBelow b) (hd : t.desc = s.desc)
    (hm : t.mem = s.withSlot k v) (hb : b ≤ b') (hv : v < b') : t.tableBelow b' := by
  intro j
  rw [slot_withSlot hd hm j]
  split
  · exact (Nat.mod_le _ _).trans_lt hv
  · exact (h j).trans_le hb

/-- Slots of zero bytes are 0 (R126). -/
theorem tableBelow_one_of_zero {s : State} (h : ∀ a, s.scratchRegion.covers a = true → s.mem.read a = 0#8) :
    s.tableBelow 1 := by
  intro k
  obtain ⟨hlo, hhi⟩ := slotAddr_bounds s k
  have hzero : ∀ i < 2, s.mem.read (s.slotAddr k + i) = 0#8 := fun i hi => h _ (by
    simp only [State.scratchRegion, Bool.and_eq_true, decide_eq_true_eq]
    omega)
  have h0 := hzero 0 (by decide)
  have h1 := hzero 1 (by decide)
  simp only [Nat.add_zero] at h0
  simp [State.slot, Memory.readLE, Memory.readBytes, leValue, h0, h1]

/-! ### Windows (R115, R117) -/

theorem leValue_lt (bs : List Byte) : leValue bs < 256 ^ bs.length := by
  induction bs with
  | nil => simp [leValue]
  | cons b bs ih =>
    have := b.isLt
    simp only [leValue, List.length_cons, pow_succ]
    omega

theorem leValue_injective {bs cs : List Byte} (hlen : bs.length = cs.length) (h : leValue bs = leValue cs) :
    bs = cs := by
  induction bs generalizing cs with
  | nil => exact (List.length_eq_zero_iff.1 hlen.symm).symm
  | cons b bs ih =>
    cases cs with
    | nil => simp at hlen
    | cons c cs =>
      have := b.isLt
      have := c.isLt
      simp only [leValue] at h
      have hhead : b = c := BitVec.eq_of_toNat_eq (by omega)
      rw [hhead, ih (by simpa using hlen) (by omega)]

/-- Equal windows are four equal bytes. -/
theorem inByte_eq_of_equal4 {s : State} {a b : Nat} (h : s.equal4 a b = true) {i : Nat} (hi : i < 4) :
    s.inByte (a + i) = s.inByte (b + i) := by
  have hlt : ∀ c, s.mem.readLE (s.inAddr c) 4 < 2 ^ 32 := fun c => by
    simpa [Memory.readLE] using leValue_lt (s.mem.readBytes (s.inAddr c) 4)
  have hval : s.mem.readLE (s.inAddr a) 4 = s.mem.readLE (s.inAddr b) 4 := by
    have := congrArg BitVec.toNat (of_decide_eq_true h)
    simpa only [State.read4, BitVec.toNat_ofNat, Nat.mod_eq_of_lt (hlt _)] using this
  have hbytes := leValue_injective (by simp) hval
  have hget : ∀ c, (s.mem.readBytes (s.inAddr c) 4)[i]'(by simpa using hi) = s.inByte (c + i) := fun c => by
    rw [Memory.getElem_readBytes]
    simp only [State.inByte, State.inAddr, Nat.add_assoc]
  rw [← hget a, ← hget b]
  simp only [hbytes]

/-- Whether windows agree depends on the bytes of IN only. -/
theorem equal4_congr {s t : State} (hd : t.desc = s.desc)
    (hm : ∀ a, s.inRegion.covers a = true → t.mem.read a = s.mem.read a) {a b : Nat}
    (ha : a + 4 ≤ s.desc.inLen.toNat) (hb : b + 4 ≤ s.desc.inLen.toNat) : t.equal4 a b = s.equal4 a b := by
  have hread : ∀ c, c + 4 ≤ s.desc.inLen.toNat → t.read4 c = s.read4 c := fun c hc => by
    have haddr : t.inAddr c = s.inAddr c := by simp only [State.inAddr, hd]
    simp only [State.read4, haddr]
    refine congrArg _ (Memory.readLE_congr fun i hi => hm _ ?_)
    simp only [State.inRegion, State.inAddr, Bool.and_eq_true, decide_eq_true_eq]
    omega
  simp only [State.equal4, hread a ha, hread b hb]

/-! ### Match extension by its bounds (R119, R120) -/

theorem extendBackward_le (s : State) (nr0 : Nat) {p q : Nat} (h : q ≤ p) :
    s.extendBackward nr0 p q ≤ p - nr0 ∧ s.extendBackward nr0 p q ≤ q :=
  have hle := (agreeBelow_spec s (a := p) (c := q) (n := min (p - nr0) q) (by omega) (by omega)).1
  ⟨hle.trans (Nat.min_le_left ..), hle.trans (Nat.min_le_right ..)⟩

theorem extendForward_range (s : State) (off : Nat) {e0 inLen : Nat} (h : e0 ≤ inLen) :
    e0 ≤ s.extendForward off e0 inLen ∧ s.extendForward off e0 inLen ≤ inLen := by
  obtain ⟨hlo, hhi, -, -⟩ := extendFrom_spec s off e0 (inLen - e0)
  exact ⟨hlo, hhi.trans (by omega)⟩

/-! ### The length of a fetched token (R203) -/

theorem fieldValue_length {f : Nat} {bs : List Byte} {e : Escape} (h : fieldValue f bs = some e) :
    e.size + e.rest.length = bs.length := by
  unfold fieldValue at h
  split at h
  · obtain ⟨e', he', rfl⟩ := Option.map_eq_some_iff.1 h
    obtain ⟨k, r, -, hbs, hval⟩ := escDecodeFrom_some he'
    have hsize : e'.size = 0 + k + 1 := congrArg Escape.size hval
    simp only [hbs, hsize, List.length_append, List.length_replicate, List.length_singleton]
    omega
  · cases h
    simp

/-- A token read off the front of the bytes takes no more than there are. -/
theorem decodeFields_length {bs : List Byte} {f : Fields} (h : decodeFields bs = .ok f) :
    f.size + f.rest.length = bs.length := by
  unfold decodeFields at h
  split at h
  · next b0 b1 b2 bs =>
    dsimp only at h
    split at h
    · cases h
    · next lit hlit =>
      split at h
      · cases h
      · next rp hrp =>
        cases h
        have := fieldValue_length hlit
        have := fieldValue_length hrp
        simp only [List.length_cons]
        omega
  · cases h

/-- The fetch stays inside the block (R202 to R205). -/
theorem fetchToken_size {s : State} {f : Fields} (h : s.fetchToken = .ok f) (hip : s.dec.ip ≤ s.dec.inLen) :
    s.dec.ip + f.size ≤ s.dec.inLen := by
  have := decodeFields_length h
  simp only [State.inBytes, Memory.length_readBytes] at this
  omega

end Sys2Proof.Machine
end

section
/-! PROOF. The invariant holds at reset and every step keeps it (R22, R26, R27, R33, R51, R178): the ends of the
commands, DECODE, each state of ENCODE, the starts and the host's moves, one lemma each. -/

namespace Sys2Proof.Machine

/-! ### The invariant by the run state -/

theorem inv_of_idle {cfg : Config} {s : State} (hm : s.memoryOk cfg) (hb : s.basesOk cfg) (hr : s.run = .idle) :
    s.Inv cfg := ⟨hm, hb, by simp only [State.runOk, hr]⟩

theorem runOk_of_encoding {cfg : Config} {s : State} {st : EncState} (hr : s.run = .encoding st)
    (hbase : s.encoderBase cfg) (hat : s.encoderAt cfg st) : s.runOk cfg := by
  simp only [State.runOk, hr]
  exact ⟨hbase, hat⟩

theorem encoder_of_runOk {cfg : Config} {s : State} {st : EncState} (h : s.runOk cfg) (hr : s.run = .encoding st) :
    s.encoderBase cfg ∧ s.encoderAt cfg st := by simpa only [State.runOk, hr] using h

theorem runOk_of_decoding {cfg : Config} {s : State} (hr : s.run = .decoding) (h : s.decoderOk cfg) : s.runOk cfg := by
  simpa only [State.runOk, hr] using h

theorem runOk_of_pattern {cfg : Config} {s : State} (hr : s.run = .pattern) (h : s.patternOk cfg) : s.runOk cfg := by
  simpa only [State.runOk, hr] using h

theorem decoder_of_runOk {cfg : Config} {s : State} (h : s.runOk cfg) (hr : s.run = .decoding) : s.decoderOk cfg := by
  simpa only [State.runOk, hr] using h

theorem pattern_of_runOk {cfg : Config} {s : State} (h : s.runOk cfg) (hr : s.run = .pattern) : s.patternOk cfg := by
  simpa only [State.runOk, hr] using h

/-- Settles O47: memory is empty, the bases are 0, and the engine is IDLE. -/
theorem resetMeetsTheInvariant : Obligations.ResetMeetsTheInvariant := by
  unfold Obligations.ResetMeetsTheInvariant
  intro cfg
  have hpos : 0 < 2 ^ cfg.addrBits := Nat.two_pow_pos _
  exact inv_of_idle ⟨Memory.wf_empty, Memory.below_empty _, nofun⟩ ⟨hpos, hpos, hpos⟩ rfl

/-! ### The ends of the commands -/

section
variable {cfg : Config} {s : State} (hm : s.memoryOk cfg) (hb : s.basesOk cfg)
include hm hb

theorem inv_failDecode (hr : s.decodeRegionsOk cfg = true) (st : Status) : (s.failDecode cfg st).Inv cfg :=
  inv_of_idle (memoryOk_scrambleOut hm hr (Nat.zero_le _)) hb rfl

theorem inv_finishDecode (hr : s.decodeRegionsOk cfg = true) {k : Nat} (hk : k ≤ s.desc.outCap.toNat) :
    (s.finishDecode k).Inv cfg := inv_of_idle (memoryOk_scrambleOut hm hr hk) hb rfl

theorem inv_finishEncode (hr : s.encodeRegionsOk cfg = true) {k : Nat} (hk : k ≤ s.desc.outCap.toNat) :
    (s.finishEncode k).Inv cfg :=
  have hout := memoryOk_scrambleOut hm ((encodeRegionsOk_iff cfg s).1 hr).1 hk
  inv_of_idle (memoryOk_scrambleScratch hout hr) hb rfl

theorem inv_giveUpEncode (hr : s.encodeRegionsOk cfg = true) : s.giveUpEncode.Inv cfg :=
  have hout := memoryOk_scrambleOut hm ((encodeRegionsOk_iff cfg s).1 hr).1 (Nat.zero_le _)
  inv_of_idle (memoryOk_scrambleScratch hout hr) hb rfl

end

/-! ### DECODE -/

theorem decoderOk_latch {cfg : Config} {s : State} {f : Fields} (h : s.decoderOk cfg) (hf : s.fetchToken = .ok f) :
    ({ s with dec := s.dec.latch f } : State).decoderOk cfg := by
  obtain ⟨hin, hcap, hmin, hne, hpos, hip, hipl, hop, hreg⟩ := h
  exact ⟨hin, hcap, hmin, hne, hpos, hip.trans (Nat.le_add_right _ _), fetchToken_size hf hipl, hop, hreg⟩

theorem decoderOk_literalDone {cfg : Config} {s : State} {n : Nat} (h : s.decoderOk cfg)
    (hin : s.dec.ip + n ≤ s.dec.inLen) (hout : s.dec.op + n ≤ s.dec.outCap) : (s.literalDone n).decoderOk cfg := by
  obtain ⟨hlen, hcap, hmin, hne, hpos, hip, -, -, hreg⟩ := h
  exact ⟨hlen, hcap, hmin, hne, hpos, hip.trans (Nat.le_add_right _ _), hin, hout, hreg⟩

theorem decoderOk_repeatDone {cfg : Config} {s : State} {off n : Nat} (h : s.decoderOk cfg)
    (hout : s.dec.op + n ≤ s.dec.outCap) : (s.repeatDone off n).decoderOk cfg := by
  obtain ⟨hlen, hcap, hmin, hne, hpos, hip, hipl, -, hreg⟩ := h
  exact ⟨hlen, hcap, hmin, hne, hpos, hip, hipl, hout, hreg⟩

/-- What DECODE writes inside OUT lies inside the address space. -/
theorem outAddr_le_top {cfg : Config} {s : State} (hr : s.decodeRegionsOk cfg = true) {i n : Nat}
    (h : i + n ≤ s.desc.outCap.toNat) : s.outAddr i + n ≤ 2 ^ cfg.addrBits := by
  obtain ⟨-, hout, -⟩ := (decodeRegionsOk_iff cfg s).1 hr
  simp only [State.outAddr]
  omega

theorem decoderOk_regions {cfg : Config} {s : State} (h : s.decoderOk cfg) :
    s.dec.outCap = s.desc.outCap.toNat ∧ s.decodeRegionsOk cfg = true := by
  obtain ⟨-, hcap, -, -, -, -, -, -, hreg⟩ := h
  exact ⟨hcap, hreg⟩

theorem memoryOk_literalDone {cfg : Config} {s : State} {n : Nat} (hm : s.memoryOk cfg) (h : s.decoderOk cfg)
    (hout : s.dec.op + n ≤ s.dec.outCap) : (s.literalDone n).memoryOk cfg := by
  obtain ⟨hcap, hreg⟩ := decoderOk_regions h
  exact (memoryOk_iff.1 hm).copyForward (outAddr_le_top hreg (hcap ▸ hout))

theorem memoryOk_repeatDone {cfg : Config} {s : State} {off n : Nat} (hm : s.memoryOk cfg) (h : s.decoderOk cfg)
    (hout : s.dec.op + n ≤ s.dec.outCap) : (s.repeatDone off n).memoryOk cfg := by
  obtain ⟨hcap, hreg⟩ := decoderOk_regions h
  exact (memoryOk_iff.1 hm).copyForward (outAddr_le_top hreg (hcap ▸ hout))

section
variable {cfg : Config} {s : State} (hm : s.memoryOk cfg) (hb : s.basesOk cfg)
include hm hb

theorem inv_tokenRun (hr : s.run = .decoding) (h : s.decoderOk cfg) (off litLen repLen : Nat) :
    (tokenRun cfg off litLen repLen s).Inv cfg := by
  obtain ⟨-, hreg⟩ := decoderOk_regions h
  rcases tokenRun_cases cfg off litLen repLen s with heq | ⟨hin, hout, heq | ⟨hrep, heq⟩⟩
  · rw [heq]
    exact inv_failDecode hm hb hreg _
  · rw [heq]
    exact inv_failDecode (memoryOk_literalDone hm h hout) hb hreg _
  · have hlit := decoderOk_literalDone h hin hout
    rw [heq]
    exact ⟨memoryOk_repeatDone (memoryOk_literalDone hm h hout) hlit hrep, hb,
      runOk_of_decoding hr (decoderOk_repeatDone hlit hrep)⟩

theorem inv_eobWith (h : s.decoderOk cfg) {litLen repLen : Nat} {t : State}
    (ht : eobWith cfg litLen repLen s = .next t) : t.Inv cfg := by
  obtain ⟨hcap, hreg⟩ := decoderOk_regions h
  rcases eobWith_cases cfg litLen repLen s with heq | ⟨-, hout, heq | heq⟩
  · cases heq.symm.trans ht
    exact inv_failDecode hm hb hreg _
  · cases heq.symm.trans ht
    exact inv_failDecode (memoryOk_literalDone hm h hout) hb hreg _
  · cases heq.symm.trans ht
    exact inv_finishDecode (memoryOk_literalDone hm h hout) hb hreg (hcap ▸ hout)

theorem inv_patternWith (h : s.patternOk cfg) {bytes : List Byte} {t : State}
    (ht : patternWith cfg bytes s = .next t) : t.Inv cfg := by
  obtain ⟨-, hcap, -, -, hreg⟩ := h
  rcases patternWith_cases cfg bytes s with heq | ⟨m, hle, heq⟩
  · cases heq.symm.trans ht
    exact inv_failDecode hm hb hreg _
  · cases heq.symm.trans ht
    have hfits : s.outAddr 0 + m ≤ 2 ^ cfg.addrBits := outAddr_le_top hreg (by omega)
    exact inv_of_idle ((memoryOk_iff.1 hm).tile bytes hfits) hb rfl

theorem inv_execWith_token (hr : s.run = .decoding) (h : s.decoderOk cfg) {i : Instr} (hi : i.form = .token) {t : State}
    (ht : execWith cfg i s = .next t) : t.Inv cfg := by
  cases i with
  | eob litLen repLen => exact inv_eobWith hm hb h ht
  | rep off repLen =>
    cases ht
    exact inv_tokenRun hm hb hr h off 0 repLen
  | tuple off litLen repLen =>
    cases ht
    exact inv_tokenRun hm hb hr h off litLen repLen
  | pattern _ | encodeCmd | decodeCmd | scratchMin => exact absurd hi nofun

theorem inv_tokenStep (hr : s.run = .decoding) (h : s.decoderOk cfg) {t : State} (ht : tokenStep cfg s = .next t) :
    t.Inv cfg := by
  rcases tokenStep_cases cfg s with ⟨f, hf, heq⟩ | ⟨st, heq⟩
  · exact inv_execWith_token (s := { s with dec := s.dec.latch f }) hm hb hr (decoderOk_latch h hf)
      (form_fields_instr f) (heq.symm.trans ht)
  · cases heq.symm.trans ht
    exact inv_failDecode hm hb (decoderOk_regions h).2 st

end

/-! ### ENCODE -/

/-- The base of the encoder's invariant in a later state: the cursors stay in their ranges (R26, R160, R178). -/
theorem encoderBase_of_step {cfg : Config} {s t : State} (h : s.encoderBase cfg) (hd : t.desc = s.desc)
    (hin : t.enc.inLen = s.enc.inLen) (hlim : t.enc.limit = s.enc.limit) (ho : s.enc.o ≤ t.enc.o)
    (holim : t.enc.o ≤ s.enc.limit) (hnr : t.enc.nr0 ≤ s.enc.inLen) (hnr5 : t.enc.nr0 ≠ 0 → 5 ≤ t.enc.o) :
    t.encoderBase cfg := by
  obtain ⟨hlen, hpos, hmax, hcap, hl, ho1, -, hlcap, -, -, hreg⟩ := h
  unfold State.encoderBase
  rw [hin, hlim, hd]
  refine ⟨hlen, hpos, hmax, hcap, hl, ho1.trans ho, holim, hlcap, hnr, hnr5, ?_⟩
  rw [← hreg]
  simp only [State.encodeRegionsOk, State.decodeRegionsOk, State.inRegion, State.outRegion, State.scratchRegion, hd]

theorem encoderBase_ranges {cfg : Config} {s : State} (h : s.encoderBase cfg) :
    s.enc.inLen = s.desc.inLen.toNat ∧ 1 ≤ s.enc.inLen ∧ s.enc.inLen ≤ Config.blockMax ∧ s.enc.o ≤ s.enc.limit ∧
      s.enc.limit ≤ s.desc.outCap.toNat ∧ s.enc.nr0 ≤ s.enc.inLen ∧ (s.enc.nr0 ≠ 0 → 5 ≤ s.enc.o) := by
  obtain ⟨hlen, hpos, hmax, -, -, -, ho, hlcap, hnr, hnr5, -⟩ := h
  exact ⟨hlen, hpos, hmax, ho, hlcap, hnr, hnr5⟩

theorem encoderBase_regions {cfg : Config} {s : State} (h : s.encoderBase cfg) :
    s.encodeRegionsOk cfg = true ∧ s.decodeRegionsOk cfg = true := by
  obtain ⟨-, -, -, -, -, -, -, -, -, -, hreg⟩ := h
  exact ⟨hreg, ((encodeRegionsOk_iff cfg s).1 hreg).1⟩

/-- The first token of a block takes at least 4 bytes beside the header, and `o` never falls below 5 after it. -/
theorem five_le_of_token {cfg : Config} {s : State} (h : s.encoderBase cfg) {litLen v : Nat}
    (hlit : s.enc.nr0 = 0 → 1 ≤ litLen) : 5 ≤ s.enc.o + tokenCost litLen v := by
  obtain ⟨-, -, -, -, -, ho, -, -, -, hnr5, -⟩ := h
  simp only [tokenCost]
  by_cases hnr : s.enc.nr0 = 0
  · have := hlit hnr
    omega
  · have := hnr5 hnr
    omega

theorem encoderBase_encProbe {cfg : Config} {s : State} (h : s.encoderBase cfg) : (encProbe cfg s).encoderBase cfg := by
  obtain ⟨-, -, -, holim, -, hnr, hnr5⟩ := encoderBase_ranges h
  exact encoderBase_of_step h rfl rfl rfl le_rfl holim hnr hnr5

/-- The extended match repeats at its distance, by its part below the window, the window, and the part above
(R117, R119, R120). -/
theorem inByte_eq_of_match {cfg : Config} {s : State} (h : s.encoderAt cfg .matching) {j : Nat}
    (hlo : s.enc.p - s.extendBackward s.enc.nr0 s.enc.p s.enc.q ≤ j)
    (hhi : j < s.extendForward (s.enc.p - s.enc.q) (s.enc.p + Config.window) s.enc.inLen) :
    s.inByte j = s.inByte (j - (s.enc.p - s.enc.q)) := by
  obtain ⟨-, -, -, hq, h4, -⟩ := h
  obtain ⟨hle, hback, -⟩ := agreeBelow_spec s (a := s.enc.p) (c := s.enc.q)
    (n := min (s.enc.p - s.enc.nr0) s.enc.q) (by omega) (by omega)
  obtain ⟨-, -, hforw, -⟩ := extendFrom_spec s (s.enc.p - s.enc.q) (s.enc.p + Config.window)
    (s.enc.inLen - (s.enc.p + Config.window))
  unfold State.extendBackward at hlo
  simp only [Config.window] at hforw hhi
  by_cases hbelow : j < s.enc.p
  · have := hback (s.enc.p - j) (by omega) (by omega)
    rwa [show s.enc.p - (s.enc.p - j) = j by omega,
      show s.enc.q - (s.enc.p - j) = j - (s.enc.p - s.enc.q) by omega] at this
  · by_cases hwin : j < s.enc.p + 4
    · have := inByte_eq_of_equal4 h4 (i := j - s.enc.p) (by omega)
      rw [show s.enc.p + (j - s.enc.p) = j by omega,
        show s.enc.q + (j - s.enc.p) = j - (s.enc.p - s.enc.q) by omega] at this
      exact this.symm
    · exact hforw j (by omega) hhi

theorem okUnder_withSlot {cfg : Config} {s : State} (hm : s.memoryOk cfg) (hr : s.encodeRegionsOk cfg = true)
    (k : SlotIx) (v : Nat) : (s.withSlot k v).okUnder (2 ^ cfg.addrBits) s.freeCtr := by
  obtain ⟨-, hfits, -⟩ := (encodeRegionsOk_iff cfg s).1 hr
  have := slotAddr_bounds s k
  exact (memoryOk_iff.1 hm).writeBytes (by simp only [length_leBytes]; omega)

theorem okUnder_withOutBytes {cfg : Config} {s : State} (hm : s.memoryOk cfg) (hr : s.encodeRegionsOk cfg = true)
    {i : Nat} {bs : List Byte} (h : i + bs.length ≤ s.desc.outCap.toNat) :
    (s.withOutBytes i bs).okUnder (2 ^ cfg.addrBits) s.freeCtr :=
  (memoryOk_iff.1 hm).writeBytes (outAddr_le_top ((encodeRegionsOk_iff cfg s).1 hr).1 h)

section
variable {cfg : Config} {s : State} (hm : s.memoryOk cfg) (hb : s.basesOk cfg) (hbase : s.encoderBase cfg)
include hm hb hbase

theorem inv_encSearch (h : s.encoderAt cfg .search) : (encSearch cfg s).Inv cfg := by
  obtain ⟨hp, -, hnr, htab⟩ := h
  exact ⟨hm, hb, runOk_of_encoding rfl hbase ⟨hp, by dsimp only [encSearch]; omega, le_rfl, htab⟩⟩

/-- The encoder passes to another of its states, with the registers as they are. -/
theorem inv_withRun {st : EncState} (h : s.encoderAt cfg st) : ({ s with run := .encoding st } : State).Inv cfg :=
  ⟨hm, hb, runOk_of_encoding rfl hbase h⟩

/-- A failed probe moves on by its stride (R166). -/
theorem inv_nextProbe (hr : s.run = .encoding .probe) {p step : Nat} (hp : 1 ≤ p) (hnr : s.enc.nr0 ≤ p)
    (hstep : cfg.stepInit ≤ step) (htab : s.tableBelow (min p Config.blockMax)) :
    ({ s with enc := { s.enc with p := p, step := step } } : State).Inv cfg :=
  ⟨hm, hb, runOk_of_encoding hr hbase ⟨hp, hnr, hstep, htab⟩⟩

theorem inv_encProbeState (hlaw : cfg.Lawful) (hr : s.run = .encoding .probe) (h : s.encoderAt cfg .probe) :
    (encProbeState cfg s).Inv cfg := by
  obtain ⟨hp, hnr, hstep, htab⟩ := h
  obtain ⟨-, -, hmax, -, -, -, -⟩ := encoderBase_ranges hbase
  have hstride := hlaw.stride_pos _ hstep
  have hmem : (encProbe cfg s).memoryOk cfg := okUnder_withSlot hm (encoderBase_regions hbase).1 _ _
  have hbases : (encProbe cfg s).basesOk cfg := hb
  rcases encProbeState_cases cfg s with ⟨-, heq⟩ | ⟨hend, ⟨hq, h4, heq⟩ | heq⟩
  · rw [heq]
    exact inv_withRun hm hb hbase trivial
  · have htab' : (encProbe cfg s).tableBelow (s.enc.p + 1) :=
      tableBelow_withSlot htab rfl rfl (by omega) (by omega)
    rw [heq]
    exact inv_withRun hmem hbases (encoderBase_encProbe hbase) ⟨hp, hend, hnr, hq, h4, htab'⟩
  · have hlt : s.enc.p < min (s.enc.p + cfg.stride s.enc.step) Config.blockMax := by
      simp only [Config.nearEnd] at hend
      simp only [Config.blockMax] at hmax ⊢
      omega
    have htab' : (encProbe cfg s).tableBelow (min (s.enc.p + cfg.stride s.enc.step) Config.blockMax) :=
      tableBelow_withSlot htab rfl rfl (by omega) hlt
    rw [heq]
    exact inv_nextProbe hmem hbases (encoderBase_encProbe hbase) hr (hp.trans (Nat.le_add_right _ _))
      (hnr.trans (Nat.le_add_right _ _)) (hstep.trans (Nat.le_succ _)) htab'

theorem inv_encMatch (h : s.encoderAt cfg .matching) : (encMatch s).Inv cfg := by
  have hbytes : ∀ j, j < (encMatch s).enc.e → (encMatch s).enc.s ≤ j →
      s.inByte j = s.inByte (j - (encMatch s).enc.off) := fun j hhi hlo => inByte_eq_of_match h hlo hhi
  obtain ⟨hp, hend, hnr, hq, -, htab⟩ := h
  obtain ⟨-, -, hmax, -, -, -, -⟩ := encoderBase_ranges hbase
  obtain ⟨hbnr, hbq⟩ := extendBackward_le s s.enc.nr0 hq.le
  simp only [Config.nearEnd, Config.blockMax] at hend hmax
  obtain ⟨hlo, hhi⟩ := extendForward_range s (s.enc.p - s.enc.q)
    (show s.enc.p + Config.window ≤ s.enc.inLen by simp only [Config.window]; omega)
  have hoff : s.enc.p - s.enc.q ≤ Config.offMax := by
    simp only [Config.offMax]
    omega
  have hstart : s.enc.nr0 ≤ s.enc.p - s.extendBackward s.enc.nr0 s.enc.p s.enc.q := by omega
  exact ⟨hm, hb, runOk_of_encoding rfl hbase ⟨hend, Nat.sub_pos_of_lt hq, Nat.sub_le_sub_left hbq _, hoff,
    hstart, Nat.sub_le .., hlo, hhi, rfl, rfl, hbytes, htab⟩⟩

theorem inv_encEmit (h : s.encoderAt cfg .emit) : (encEmit s).Inv cfg := by
  obtain ⟨hend, hoff, hoffs, -, hnr, hsp, hpe, hein, hlit, -, -, htab⟩ := h
  obtain ⟨-, -, -, -, hlcap, hnrin, -⟩ := encoderBase_ranges hbase
  have hreg := (encoderBase_regions hbase).1
  rcases encEmit_cases s with heq | ⟨hfits, heq⟩
  · rw [heq]
    exact inv_giveUpEncode hm hb hreg
  · have hlen := length_matchToken s.enc (lit := s.inBytes s.enc.nr0 s.enc.litLen) (by simp [State.inBytes])
    have hout : s.enc.o + (encodeToken (matchToken s.enc) (s.inBytes s.enc.nr0 s.enc.litLen)).length ≤
        s.desc.outCap.toNat := by omega
    have h5 := five_le_of_token hbase (litLen := s.enc.litLen) (v := s.enc.repLen - Config.repeatMin) (by omega)
    rw [heq]
    refine ⟨okUnder_withOutBytes hm hreg hout, hb, runOk_of_encoding rfl ?_ ⟨hend, hpe, hein, h5, ?_⟩⟩
    · exact encoderBase_of_step hbase rfl rfl rfl (Nat.le_add_right _ _) hfits hnrin fun _ => h5
    · exact tableBelow_congr htab rfl fun a ha => read_withOutBytes_outside hreg hout (.inr ha)

theorem inv_encAdvance (h : s.encoderAt cfg .advance) : (encAdvance cfg s).Inv cfg := by
  obtain ⟨hend, hpe, hein, h5, htab⟩ := h
  obtain ⟨-, -, hmax, holim, -, -, -⟩ := encoderBase_ranges hbase
  have hreg := (encoderBase_regions hbase).1
  have hbase' : (encAdvance cfg s).encoderBase cfg :=
    encoderBase_of_step hbase rfl rfl rfl le_rfl holim hein fun _ => h5
  have hlt : s.enc.p + 1 ≤ min s.enc.e Config.blockMax ∧ s.enc.e - 1 < min s.enc.e Config.blockMax := by
    omega
  have hmem : (encAdvance cfg s).memoryOk cfg ∧ (encAdvance cfg s).tableBelow (min s.enc.e Config.blockMax) := by
    by_cases hins : s.enc.e + Config.nearEnd ≤ s.enc.inLen
    · have hslot : (encAdvance cfg s).mem = s.withSlot (s.hashAt cfg (s.enc.e - 1)) (s.enc.e - 1) := if_pos hins
      refine ⟨memoryOk_iff.2 ?_, tableBelow_withSlot htab rfl hslot hlt.1 hlt.2⟩
      rw [hslot]
      exact okUnder_withSlot hm hreg _ _
    · have hsame : (encAdvance cfg s).mem = s.mem := if_neg hins
      refine ⟨memoryOk_iff.2 ?_, tableBelow_mono (tableBelow_congr htab rfl fun a _ => by rw [hsame]) hlt.1⟩
      rw [hsame]
      exact memoryOk_iff.1 hm
  exact ⟨hmem.1, hb, runOk_of_encoding rfl hbase' ⟨by dsimp only [encAdvance]; omega, hein, .inl rfl, hmem.2⟩⟩

theorem inv_encTail : (encTail s).Inv cfg := by
  obtain ⟨-, hpos, -, -, hlcap, hnrin, -⟩ := encoderBase_ranges hbase
  have hreg := (encoderBase_regions hbase).1
  rcases encTail_cases s with heq | ⟨hfits, heq⟩
  · rw [heq]
    exact inv_giveUpEncode hm hb hreg
  · have hlen : (encodeToken (.eob (s.enc.inLen - s.enc.nr0) Config.repeatMin)
        (s.inBytes s.enc.nr0 (s.enc.inLen - s.enc.nr0))).length = tokenCost (s.enc.inLen - s.enc.nr0) 0 := by
      simp [encodeToken, encode, tokenCost, State.inBytes]
    have h5 : 5 ≤ s.enc.o + tokenCost (s.enc.inLen - s.enc.nr0) 0 :=
      five_le_of_token hbase (by omega)
    rw [heq]
    refine ⟨okUnder_withOutBytes hm hreg (by omega), hb, runOk_of_encoding rfl ?_ h5⟩
    exact encoderBase_of_step hbase rfl rfl rfl (Nat.le_add_right _ _) hfits hnrin fun _ => h5

theorem inv_encDone : (encDone s).Inv cfg := by
  obtain ⟨-, -, -, holim, hlcap, -, -⟩ := encoderBase_ranges hbase
  have hreg := (encoderBase_regions hbase).1
  rcases encDone_cases s with heq | heq
  · rw [heq]
    exact inv_giveUpEncode hm hb hreg
  · rw [heq]
    exact inv_finishEncode hm hb hreg (holim.trans hlcap)

theorem inv_encoderStep (hlaw : cfg.Lawful) {st : EncState} (hr : s.run = .encoding st) (h : s.encoderAt cfg st) :
    (encoderStep cfg st s).Inv cfg := by
  cases st with
  | search => exact inv_encSearch hm hb hbase h
  | probe => exact inv_encProbeState hm hb hbase hlaw hr h
  | matching => exact inv_encMatch hm hb hbase h
  | emit => exact inv_encEmit hm hb hbase h
  | advance => exact inv_encAdvance hm hb hbase h
  | tail => exact inv_encTail hm hb hbase
  | done => exact inv_encDone hm hb hbase

end

theorem inv_engineStep {cfg : Config} {s t : State} (hlaw : cfg.Lawful) (h : s.Inv cfg) (hb : s.run ≠ .idle)
    (ht : engineStep cfg s = .next t) : t.Inv cfg := by
  obtain ⟨hm, hbases, hrun⟩ := h
  rcases engineStep_cases hb ht with ⟨st, hr, rfl⟩ | ⟨hr, ht⟩ | ⟨hr, ht⟩
  · obtain ⟨hbase, hat⟩ := encoder_of_runOk hrun hr
    exact inv_encoderStep hm hbases hbase hlaw hr hat
  · exact inv_patternWith hm hbases (pattern_of_runOk hrun hr) ht
  · exact inv_tokenStep hm hbases hr (decoder_of_runOk hrun hr) ht

/-! ### The starts -/

/-- What ENCODE's argument checks leave: the lengths in their ranges (R241). -/
theorem encodeArgs_ranges {s : State} (h : s.encodeArgsBad = false) :
    1 ≤ s.desc.inLen.toNat ∧ s.desc.inLen.toNat ≤ Config.blockMax ∧ Config.gainFloor < s.desc.outCap.toNat := by
  simp only [State.encodeArgsBad, Bool.or_eq_false_iff, decide_eq_false_iff_not] at h
  obtain ⟨⟨⟨-, hpos⟩, hmax⟩, hgain⟩ := h
  have : Config.gainFloor ≤ gainMin s.desc.inLen.toNat s.desc.outCap.toNat := Nat.le_max_left ..
  omega

theorem effectiveLimit_range {inLen outCap soft : Nat} (hin : 1 ≤ inLen) (hout : 1 ≤ outCap) :
    1 ≤ effectiveLimit inLen outCap soft ∧ effectiveLimit inLen outCap soft ≤ outCap := by
  unfold effectiveLimit
  split
  · omega
  · omega

/-- After INIT every byte of STATE is zero (R126, R161). -/
theorem read_encInit_scratch {cfg : Config} {s : State} (hreg : s.encodeRegionsOk cfg = true)
    (hout : 1 ≤ s.desc.outCap.toNat) {a : Nat} (ha : s.scratchRegion.covers a = true) :
    (encInit s).mem.read a = 0#8 := by
  obtain ⟨-, -, -, hdisj⟩ := (encodeRegionsOk_iff cfg s).1 hreg
  simp only [State.scratchRegion, Bool.and_eq_true, decide_eq_true_eq] at ha
  have hne : a ≠ s.outAddr 0 := by
    simp only [State.outAddr]
    omega
  exact (Memory.read_write_ne _ _ hne).trans ((Memory.read_clear ..).trans (if_pos ha))

theorem inv_encInit {cfg : Config} {s : State} (hm : s.memoryOk cfg) (hb : s.basesOk cfg)
    (hargs : s.encodeArgsBad = false) (hreg : s.encodeRegionsOk cfg = true) : (encInit s).Inv cfg := by
  obtain ⟨hpos, hmax, hgain⟩ := encodeArgs_ranges hargs
  have hcap : 1 ≤ s.desc.outCap.toNat := by omega
  obtain ⟨hlim1, hlim⟩ := effectiveLimit_range (soft := s.desc.softLimit.toNat) hpos hcap
  have htop := outAddr_le_top ((encodeRegionsOk_iff cfg s).1 hreg).1 (i := 0) (n := 1) (by omega)
  have hmem : (encInit s).memoryOk cfg := ((memoryOk_iff.1 hm).clear _ _).write htop _
  have htab : (encInit s).tableBelow (min 1 Config.blockMax) :=
    tableBelow_one_of_zero fun a ha => read_encInit_scratch hreg hcap ha
  refine ⟨hmem, hb, runOk_of_encoding rfl ?_ ⟨le_rfl, hpos, .inr ⟨rfl, rfl⟩, htab⟩⟩
  exact ⟨rfl, hpos, hmax, hgain, rfl, le_rfl, hlim1, hlim, Nat.zero_le _, fun h => absurd rfl h, hreg⟩

/-- What DECODE's argument checks leave: the lengths in their ranges (R250). -/
theorem decodeArgs_ranges {s : State} (h : s.decodeArgsBad = false) :
    Config.inLenMinDec ≤ s.desc.inLen.toNat ∧ 1 ≤ s.desc.outCap.toNat := by
  simp only [State.decodeArgsBad, Bool.or_eq_false_iff, decide_eq_false_iff_not] at h
  omega

theorem inv_decInit {cfg : Config} {s : State} (hm : s.memoryOk cfg) (hb : s.basesOk cfg)
    (hargs : s.decodeArgsBad = false) (hreg : s.decodeRegionsOk cfg = true) : (decInit s).Inv cfg := by
  obtain ⟨hmin, hcap⟩ := decodeArgs_ranges hargs
  by_cases h8 : s.desc.inLen.toNat = Config.patternBytes
  · exact ⟨hm, hb, runOk_of_pattern (if_pos h8) ⟨rfl, rfl, h8, hcap, hreg⟩⟩
  · have hin : 1 ≤ s.desc.inLen.toNat := le_trans (by decide) hmin
    exact ⟨hm, hb, runOk_of_decoding (if_neg h8) ⟨rfl, rfl, hmin, h8, hcap, le_rfl, hin, Nat.zero_le _, hreg⟩⟩

theorem inv_startCommand {cfg : Config} {s t : State} (hm : s.memoryOk cfg) (hb : s.basesOk cfg)
    (ht : startCommand cfg s = .next t) : t.Inv cfg := by
  obtain ⟨used, rfl | ⟨hargs, hreg, rfl⟩ | ⟨hargs, hreg, rfl⟩ | rfl⟩ := startCommand_cases ht
  · exact inv_of_idle hm hb rfl
  · exact inv_encInit (s := s.checkStart used) hm hb hargs hreg
  · exact inv_decInit (s := s.checkStart used) hm hb hargs hreg
  · exact inv_of_idle hm hb rfl

/-! ### The host's moves -/

theorem busAddr_lt (cfg : Config) (a : Nat) : busAddr cfg a < 2 ^ cfg.addrBits := Nat.mod_lt _ (Nat.two_pow_pos _)

/-- The encoder's invariant depends on the descriptor, its registers, IN and STATE only. -/
theorem encoderAt_congr {cfg : Config} {s t : State} {st : EncState} (hbase : s.encoderBase cfg)
    (h : s.encoderAt cfg st) (hd : t.desc = s.desc) (he : t.enc = s.enc)
    (hin : ∀ a, s.inRegion.covers a = true → t.mem.read a = s.mem.read a)
    (hscratch : ∀ a, s.scratchRegion.covers a = true → t.mem.read a = s.mem.read a) : t.encoderAt cfg st := by
  obtain ⟨hlen, -, -, -, -, -, -⟩ := encoderBase_ranges hbase
  have htab : ∀ {b}, s.tableBelow b → t.tableBelow b := fun h => tableBelow_congr h hd hscratch
  cases st with
  | search =>
    obtain ⟨hp, hpin, hnr, ht⟩ := h
    simp only [State.encoderAt, he]
    exact ⟨hp, hpin, hnr, htab ht⟩
  | probe =>
    obtain ⟨hp, hnr, hstep, ht⟩ := h
    simp only [State.encoderAt, he]
    exact ⟨hp, hnr, hstep, htab ht⟩
  | matching =>
    obtain ⟨hp, hend, hnr, hq, h4, ht⟩ := h
    simp only [State.encoderAt, he]
    have hwin : s.enc.p + 4 ≤ s.desc.inLen.toNat := by
      simp only [Config.nearEnd] at hend
      omega
    exact ⟨hp, hend, hnr, hq, (equal4_congr hd hin (by omega) hwin).trans h4, htab ht⟩
  | emit =>
    obtain ⟨hend, hoff, hoffs, hoffm, hnr, hsp, hpe, hein, hlit, hrep, hbytes, ht⟩ := h
    have hbyte : ∀ j, j < s.enc.inLen → t.inByte j = s.inByte j := fun j hj => inByte_congr hd hin (hlen ▸ hj)
    simp only [State.encoderAt, he]
    refine ⟨hend, hoff, hoffs, hoffm, hnr, hsp, hpe, hein, hlit, hrep, fun j hje hsj => ?_, htab ht⟩
    rw [hbyte j (by omega), hbyte _ (by omega)]
    exact hbytes j hje hsj
  | advance =>
    obtain ⟨hend, hpe, hein, h5, ht⟩ := h
    simp only [State.encoderAt, he]
    exact ⟨hend, hpe, hein, h5, htab ht⟩
  | tail => trivial
  | done =>
    simp only [State.encoderAt, he] at h ⊢
    exact h

/-- A byte the host may write while BUSY is none the running command depends on (R63). -/
theorem runOk_write {cfg : Config} {s : State} {a : Nat} (b : Byte) (h : s.runOk cfg)
    (hheld : s.run ≠ .idle → s.heldByEngine a = false) :
    ({ s with mem := s.mem.write a b } : State).runOk cfg := by
  cases hr : s.run with
  | idle => simp only [State.runOk]
  | encoding st =>
    obtain ⟨hbase, hat⟩ := encoder_of_runOk h hr
    obtain ⟨hin, -, hscratch⟩ := not_covered_of_not_held (by simp [hr]) (hheld (by simp [hr]))
    have hscratch := hscratch st hr
    refine runOk_of_encoding rfl hbase (encoderAt_congr hbase hat rfl rfl (fun x hx => ?_) fun x hx => ?_)
    · exact Memory.read_write_ne _ _ fun hxa => by simp [← hxa, hx] at hin
    · exact Memory.read_write_ne _ _ fun hxa => by simp [← hxa, hx] at hscratch
  | pattern => exact runOk_of_pattern rfl (pattern_of_runOk (s := s) h hr)
  | decoding => exact runOk_of_decoding rfl (decoder_of_runOk (s := s) h hr)

theorem basesOk_withReg {cfg : Config} {s : State} (h : s.basesOk cfg) (r : RegName) (v : Nat) :
    (s.withReg cfg r v).basesOk cfg := by
  obtain ⟨hstate, hin, hout⟩ := h
  have hv : v % 2 ^ cfg.addrBits < 2 ^ cfg.addrBits := busAddr_lt cfg v
  cases r with
  | stateBase => exact ⟨hv, hin, hout⟩
  | inBase => exact ⟨hstate, hv, hout⟩
  | outBase => exact ⟨hstate, hin, hv⟩
  | cmd | inLen | outCap | softLimit | result => exact ⟨hstate, hin, hout⟩

theorem memoryOk_readReg {cfg : Config} {s : State} (h : s.memoryOk cfg) (r : RegName) :
    (s.readReg r).memoryOk cfg := by
  obtain ⟨hwf, hbelow, hdrawn⟩ := h
  have hctr : s.freeCtr ≤ (s.readReg r).freeCtr := by
    rcases s.readReg_cases r with ⟨-, -, -, -, hc⟩ | ⟨-, -, -, hc⟩ <;> omega
  unfold State.memoryOk
  rw [State.readReg_mem]
  exact ⟨hwf, hbelow, fun sp hsp => (hdrawn sp hsp).trans_le hctr⟩

theorem memoryOk_abandon {cfg : Config} {s : State} (h : s.Inv cfg) : s.abandon.memoryOk cfg := by
  obtain ⟨hm, -, hrun⟩ := h
  rcases s.abandon_cases with ⟨-, heq⟩ | ⟨st, hr, heq⟩ | ⟨hr, heq⟩
  · rwa [heq]
  · obtain ⟨hreg, hreg'⟩ := encoderBase_regions (encoder_of_runOk hrun hr).1
    rw [heq]
    exact memoryOk_scrambleScratch (memoryOk_scrambleOut hm hreg' (Nat.zero_le _)) hreg
  · have hreg : s.decodeRegionsOk cfg = true := by
      rcases hr with hr | hr
      · obtain ⟨-, -, -, -, hreg⟩ := pattern_of_runOk hrun hr
        exact hreg
      · exact (decoderOk_regions (decoder_of_runOk hrun hr)).2
    rw [heq]
    exact memoryOk_scrambleOut hm hreg (Nat.zero_le _)

theorem inv_resetEngine {cfg : Config} {s : State} (h : s.Inv cfg) : s.resetEngine.Inv cfg := by
  have hpos : 0 < 2 ^ cfg.addrBits := Nat.two_pow_pos _
  exact inv_of_idle (memoryOk_abandon h) ⟨hpos, hpos, hpos⟩ rfl

/-- A host move that comes to its turn keeps the invariant. -/
theorem inv_hostStep {cfg : Config} {s t : State} {m : HostMove} {rest : List HostEvent} (h : s.Inv cfg)
    (hturn : s.turn cfg = .host m rest) (ht : hostStep cfg m { s with host := rest } = .next t) : t.Inv cfg := by
  obtain ⟨hm, hb, hrun⟩ := h
  cases m with
  | writeReg r v =>
    have hidle := idle_of_turn_host hturn rfl
    by_cases hr : r = .result
    · subst hr
      cases ht
      exact inv_of_idle hm hb hidle
    · rw [hostStep_writeReg _ _ _ hr] at ht
      cases ht
      exact inv_of_idle hm (basesOk_withReg hb r v) hidle
  | readReg r =>
    have hidle := idle_of_turn_host hturn rfl
    cases ht
    refine inv_of_idle (memoryOk_readReg (s := { s with host := rest }) hm r) ?_ ((State.readReg_run ..).trans hidle)
    unfold State.basesOk
    rwa [State.readReg_desc]
  | writeMem a b =>
    cases ht
    have hrun' := runOk_write b hrun fun hbusy => not_held_of_writeMem hbusy hturn
    exact ⟨(memoryOk_iff.1 hm).write (busAddr_lt cfg a) b, hb, hrun'⟩
  | readMem a =>
    cases ht
    exact ⟨hm, hb, hrun⟩
  | start => exact inv_startCommand (s := { s with host := rest }) hm hb ht
  | reset =>
    cases ht
    exact inv_resetEngine (s := { s with host := rest }) ⟨hm, hb, hrun⟩

/-! ### A step -/

/-- A step rests, is the host's next move, or is a step of a BUSY engine. -/
theorem stepWith_cases {cfg : Config} {s t : State} (h : stepWith cfg s = .next t) :
    t = s ∨ (∃ m rest, s.turn cfg = .host m rest ∧ hostStep cfg m { s with host := rest } = .next t) ∨
    (∃ q, s.run ≠ .idle ∧ engineStep cfg { s with host := q } = .next t) := by
  cases hturn : s.turn cfg with
  | rest =>
    simp only [stepWith, hturn, Host.Outcome.next.injEq] at h
    exact .inl h.symm
  | host m rest => exact .inr (.inl ⟨m, rest, rfl, stepWith_of_turn_host hturn ▸ h⟩)
  | engine q => exact .inr (.inr ⟨q, busy_of_turn_engine hturn, stepWith_of_turn_engine hturn ▸ h⟩)

theorem inv_stepWith {cfg : Config} (hlaw : cfg.Lawful) {s t : State} (h : s.Inv cfg) (ht : stepWith cfg s = .next t) :
    t.Inv cfg := by
  rcases stepWith_cases ht with rfl | ⟨m, rest, hturn, ht⟩ | ⟨q, hb, ht⟩
  · exact h
  · exact inv_hostStep h hturn ht
  · exact inv_engineStep (s := { s with host := q }) hlaw h hb ht

/-- Settles O48: the step lemma in every lawful configuration, of which this engine's is one. -/
theorem stepKeepsTheInvariant : Obligations.StepKeepsTheInvariant := by
  unfold Obligations.StepKeepsTheInvariant
  exact ⟨fun _ hlaw _ _ => inv_stepWith hlaw, fun _ _ => inv_stepWith Tests.engineConfig_lawful⟩

end Sys2Proof.Machine
end

section
/-! PROOF. The scan position stays near the input, with the spec's step schedule (R29). -/

namespace Sys2Proof.Machine

theorem engineConfig_stride (n : Nat) : engineConfig.stride n = n / 32 := rfl

theorem scanOk_of_not_probing {s : State} (hp : s.enc.p ≤ s.enc.inLen + 127) (hr : s.run ≠ .encoding .probe) :
    s.scanOk := ⟨hp, fun h => absurd h hr⟩

/-- A move of the host, or a step of DECODE, that neither moves the scan nor enters PROBE. -/
theorem scanOk_congr {s t : State} (h : s.scanOk) (he : t.enc = s.enc) (hr : t.run = s.run ∨ t.run = .idle) :
    t.scanOk := by
  obtain ⟨hp, hstep⟩ := h
  unfold State.scanOk
  rw [he]
  refine ⟨hp, fun ht => hstep ?_⟩
  rcases hr with hr | hr
  · exact hr ▸ ht
  · exact absurd (hr.symm.trans ht) nofun

/-- A failed probe moves by at most 128, from at least 16 below the end of the input (R163, R166). -/
theorem scanOk_encProbeState {s : State} (h : s.scanOk) (hr : s.run = .encoding .probe)
    (hbase : s.encoderBase engineConfig) (hat : s.encoderAt engineConfig .probe) :
    (encProbeState engineConfig s).scanOk := by
  obtain ⟨hp, hstep⟩ := h
  have hstep := hstep hr
  obtain ⟨-, -, hinit, -⟩ := hat
  obtain ⟨-, -, hmax, -, -, -, -⟩ := encoderBase_ranges hbase
  rw [engineConfig_stepInit] at hinit
  rcases encProbeState_cases engineConfig s with ⟨-, heq⟩ | ⟨hend, ⟨-, -, heq⟩ | heq⟩
  · rw [heq]
    exact scanOk_of_not_probing hp nofun
  · rw [heq]
    exact scanOk_of_not_probing hp nofun
  · simp only [Config.nearEnd] at hend
    simp only [Config.blockMax] at hmax
    rw [heq, engineConfig_stride]
    have hpos : s.enc.p + s.enc.step / 32 ≤ s.enc.inLen + 127 := by omega
    exact ⟨hpos, fun _ => show s.enc.step + 1 ≤ 31 + (s.enc.p + s.enc.step / 32) by omega⟩

/-- Each state of the encoder keeps the bound; only PROBE and ADVANCE move the scan. -/
theorem scanOk_encoderStep {s : State} {st : EncState} (h : s.scanOk) (hr : s.run = .encoding st)
    (hbase : s.encoderBase engineConfig) (hat : s.encoderAt engineConfig st) :
    (encoderStep engineConfig st s).scanOk := by
  have hp := h.1
  cases st with
  | search =>
    obtain ⟨hpos, -⟩ := hat
    exact ⟨hp, fun _ => show 32 ≤ 31 + s.enc.p by omega⟩
  | probe => exact scanOk_encProbeState h hr hbase hat
  | matching => exact scanOk_of_not_probing hp nofun
  | emit =>
    rcases encEmit_cases s with heq | ⟨-, heq⟩
    · rw [encoderStep, heq]
      exact scanOk_congr h rfl (.inr rfl)
    · rw [encoderStep, heq]
      exact scanOk_of_not_probing hp nofun
  | advance =>
    obtain ⟨-, -, hein, -, -⟩ := hat
    exact scanOk_of_not_probing (hein.trans (Nat.le_add_right _ _)) nofun
  | tail =>
    rcases encTail_cases s with heq | ⟨-, heq⟩
    · rw [encoderStep, heq]
      exact scanOk_congr h rfl (.inr rfl)
    · rw [encoderStep, heq]
      exact scanOk_of_not_probing hp nofun
  | done =>
    rcases encDone_cases s with heq | heq
    · rw [encoderStep, heq]
      exact scanOk_congr h rfl (.inr rfl)
    · rw [encoderStep, heq]
      exact scanOk_congr h rfl (.inr rfl)

theorem scanOk_engineStep {s t : State} (hinv : s.Inv engineConfig) (h : s.scanOk) (hb : s.run ≠ .idle)
    (ht : engineStep engineConfig s = .next t) : t.scanOk := by
  obtain ⟨-, -, hrun⟩ := hinv
  rcases engineStep_cases hb ht with ⟨st, hr, rfl⟩ | ⟨-, ht⟩ | ⟨-, ht⟩
  · obtain ⟨hbase, hat⟩ := encoder_of_runOk hrun hr
    exact scanOk_encoderStep h hr hbase hat
  · have hd := execWith_decodeStep (by simp) ht
    exact scanOk_congr h hd.enc hd.run
  · have hd := tokenStep_decodeStep ht
    exact scanOk_congr h hd.enc hd.run

/-- A start begins the scan at 1, or leaves it where it was. -/
theorem scanOk_startCommand {cfg : Config} {s t : State} (h : s.scanOk) (ht : startCommand cfg s = .next t) :
    t.scanOk := by
  have hp := h.1
  obtain ⟨used, rfl | ⟨-, -, rfl⟩ | ⟨-, -, rfl⟩ | rfl⟩ := startCommand_cases ht
  · exact scanOk_of_not_probing hp nofun
  · exact scanOk_of_not_probing (show 1 ≤ s.desc.inLen.toNat + 127 by omega) nofun
  · refine scanOk_of_not_probing hp ?_
    simp only [decInit]
    split
    · exact nofun
    · exact nofun
  · exact scanOk_of_not_probing hp nofun

theorem scanOk_hostStep {cfg : Config} {s t : State} {m : HostMove} (h : s.scanOk)
    (ht : hostStep cfg m s = .next t) : t.scanOk := by
  cases m with
  | writeReg r v =>
    by_cases hr : r = .result
    · subst hr
      cases ht
      exact h
    · rw [hostStep_writeReg _ _ _ hr] at ht
      cases ht
      exact h
  | readReg r =>
    cases ht
    exact scanOk_congr h (State.readReg_enc ..) (.inl (State.readReg_run ..))
  | writeMem a b =>
    cases ht
    exact h
  | readMem a =>
    cases ht
    exact h
  | start => exact scanOk_startCommand h ht
  | reset =>
    cases ht
    exact scanOk_of_not_probing (Nat.zero_le _) nofun

/-- Settles O49: a host move keeps the scan or begins it at 1, and the engine keeps the bound by the invariant. -/
theorem scanPositionStaysNearTheInput : Obligations.ScanPositionStaysNearTheInput := by
  unfold Obligations.ScanPositionStaysNearTheInput
  intro s t hinv h ht
  rcases stepWith_cases ht with rfl | ⟨m, rest, -, ht⟩ | ⟨q, hb, ht⟩
  · exact h
  · exact scanOk_hostStep (s := { s with host := rest }) h ht
  · exact scanOk_engineStep (s := { s with host := q }) hinv h hb ht

end Sys2Proof.Machine
end

section
/-! PROOF. Memory (20_memory): regions and slots as bytes, and the regions one step of the engine stays in (R50, R51,
R56, R58). -/

namespace Sys2Proof.Machine

/-! ### Invalid regions (R51) -/

/-- Where one region ends before the other begins, they share no address. -/
theorem Region.not_covers_of_apart {r t : Region} (h : r.base + r.size ≤ t.base ∨ t.base + t.size ≤ r.base) {a : Nat}
    (ha : r.covers a = true) : t.covers a = false := by
  simp only [Bool.and_eq_true, Bool.and_eq_false_iff, decide_eq_true_eq, decide_eq_false_iff_not] at ha ⊢
  omega

/-- With DECODE's regions valid, neither wraps and an address of IN is none of OUT. -/
theorem regions_of_decodeRegionsOk {cfg : Config} {s : State} (h : s.decodeRegionsOk cfg = true) :
    s.inRegion.base + s.inRegion.size ≤ 2 ^ cfg.addrBits ∧ s.outRegion.base + s.outRegion.size ≤ 2 ^ cfg.addrBits ∧
      ∀ a, s.inRegion.covers a = true → s.outRegion.covers a = false := by
  obtain ⟨hin, hout, hapart⟩ := (decodeRegionsOk_iff cfg s).1 h
  exact ⟨hin, hout, fun _ => Region.not_covers_of_apart hapart⟩

/-- With ENCODE's regions valid, STATE does not wrap either and its addresses are none of IN or OUT. -/
theorem regions_of_encodeRegionsOk {cfg : Config} {s : State} (h : s.encodeRegionsOk cfg = true) :
    s.scratchRegion.base + s.scratchRegion.size ≤ 2 ^ cfg.addrBits ∧
      ∀ a, s.scratchRegion.covers a = true → s.inRegion.covers a = false ∧ s.outRegion.covers a = false := by
  obtain ⟨-, hfits, hin, hout⟩ := (encodeRegionsOk_iff cfg s).1 h
  exact ⟨hfits, fun _ ha => ⟨Region.not_covers_of_apart hin ha, Region.not_covers_of_apart hout ha⟩⟩

theorem decodeRegionsOk_of_encodeRegionsOk {cfg : Config} {s : State} (h : s.encodeRegionsOk cfg = true) :
    s.decodeRegionsOk cfg = true := ((encodeRegionsOk_iff cfg s).1 h).1

theorem decodeWith_refuses {cfg : Config} {s : State} (hargs : s.decodeArgsBad = false)
    (hreg : s.decodeRegionsOk cfg ≠ true) : decodeWith cfg s = .refused .invalidRegions := by
  simp only [decodeWith, hargs, if_neg hreg, Bool.false_eq_true, if_false]

theorem encodeWith_refuses {cfg : Config} {s : State} (hargs : s.encodeArgsBad = false)
    (hreg : s.encodeRegionsOk cfg ≠ true) : encodeWith cfg s = .refused .invalidRegions := by
  simp only [encodeWith, hargs, if_neg hreg, Bool.false_eq_true, if_false]

/-- Settles O33: valid regions would neither wrap nor share an address, so the region check is not passed. -/
theorem invalidRegionsAreRefused : Obligations.InvalidRegionsAreRefused := by
  unfold Obligations.InvalidRegionsAreRefused
  refine ⟨fun s hargs hbad => decodeWith_refuses hargs fun hreg => ?_,
    fun s hargs hbad => encodeWith_refuses hargs fun hreg => ?_⟩
  · obtain ⟨hin, hout, hdisj⟩ := regions_of_decodeRegionsOk hreg
    rcases hbad with hwrap | hwrap | ⟨a, hain, haout⟩
    · exact absurd hin (by omega)
    · exact absurd hout (by omega)
    · exact absurd haout (by simp [hdisj a hain])
  · obtain ⟨hin, hout, hdisj⟩ := regions_of_decodeRegionsOk (decodeRegionsOk_of_encodeRegionsOk hreg)
    obtain ⟨hstate, hdisj'⟩ := regions_of_encodeRegionsOk hreg
    rcases hbad with hwrap | hwrap | hwrap | ⟨a, ⟨hain, haout⟩ | ⟨hascr, hain | haout⟩⟩
    · exact absurd hin (by omega)
    · exact absurd hout (by omega)
    · exact absurd hstate (by omega)
    · exact absurd haout (by simp [hdisj a hain])
    · exact absurd hain (by simp [hdisj' a hascr])
    · exact absurd haout (by simp [hdisj' a hascr])

/-! ### Slots (R52, R56) -/

theorem read_withSlot_low (s : State) (k : SlotIx) (v : Nat) :
    (s.withSlot k v).read (s.slotAddr k) = BitVec.ofNat 8 v := by
  simp only [State.withSlot, Memory.writeLE, leBytes, Memory.writeBytes]
  rw [Memory.read_write_ne _ _ (by omega), Memory.read_write_self]

theorem read_withSlot_high (s : State) (k : SlotIx) (v : Nat) :
    (s.withSlot k v).read (s.slotAddr k + 1) = BitVec.ofNat 8 (v / 256) := by
  simp only [State.withSlot, Memory.writeLE, leBytes, Memory.writeBytes]
  rw [Memory.read_write_self]

/-- Settles O45: the law of a slot write, and the two bytes it stores. -/
theorem slotsAreLittleEndianWords : Obligations.SlotsAreLittleEndianWords := by
  unfold Obligations.SlotsAreLittleEndianWords
  intro s k k' v hv
  refine ⟨?_, ?_, ?_⟩
  · rw [slot_withSlot (s := s) (t := { s with mem := s.withSlot k v }) rfl rfl k', Nat.mod_eq_of_lt hv]
  · exact (congrArg BitVec.toNat (read_withSlot_low s k v)).trans (BitVec.toNat_ofNat ..)
  · refine (congrArg BitVec.toNat (read_withSlot_high s k v)).trans ?_
    rw [BitVec.toNat_ofNat]
    omega

/-! ### A step of DECODE writes OUT only (R50, R218) -/

theorem sameOutside.trans {r : Region} {s t u : State} (h : sameOutside r s t) (h' : sameOutside r t u) :
    sameOutside r s u := fun a ha => (h' a ha).trans (h a ha)

/-- An address outside OUT lies outside every part of it. -/
theorem outAddr_outside {s : State} {a i n : Nat} (ha : s.outRegion.covers a = false)
    (hn : i + n ≤ s.desc.outCap.toNat) : a < s.outAddr i ∨ s.outAddr i + n ≤ a := by
  simp only [State.outRegion, Bool.and_eq_false_iff, decide_eq_false_iff_not] at ha
  simp only [State.outAddr]
  omega

theorem sameOutside_failDecode (cfg : Config) (s : State) (st : Status) :
    sameOutside s.outRegion s (s.failDecode cfg st) := fun _ ha => State.read_scrambleOut_outside s 0 ha

theorem sameOutside_finishDecode (s : State) (k : Nat) : sameOutside s.outRegion s (s.finishDecode k) :=
  fun _ ha => State.read_scrambleOut_outside s k ha

section
variable {cfg : Config} {s : State} (hcap : s.dec.outCap = s.desc.outCap.toNat)
include hcap

theorem sameOutside_literalDone {n : Nat} (hout : s.dec.op + n ≤ s.dec.outCap) :
    sameOutside s.outRegion s (s.literalDone n) :=
  fun _ ha => read_copyLiteral_outside s (outAddr_outside ha (hcap ▸ hout))

theorem sameOutside_repeatDone {off n : Nat} (hout : s.dec.op + n ≤ s.dec.outCap) :
    sameOutside s.outRegion s (s.repeatDone off n) :=
  fun _ ha => read_copyRepeat_outside s (outAddr_outside ha (hcap ▸ hout))

theorem sameOutside_tokenRun (off litLen repLen : Nat) :
    sameOutside s.outRegion s (tokenRun cfg off litLen repLen s) := by
  rcases tokenRun_cases cfg off litLen repLen s with heq | ⟨-, hout, heq | ⟨hrep, heq⟩⟩
  · rw [heq]
    exact sameOutside_failDecode cfg s _
  · rw [heq]
    exact (sameOutside_literalDone hcap hout).trans (sameOutside_failDecode cfg (s.literalDone litLen) _)
  · rw [heq]
    exact (sameOutside_literalDone hcap hout).trans (sameOutside_repeatDone (s := s.literalDone litLen) hcap hrep)

theorem sameOutside_eobWith {litLen repLen : Nat} {t : State} (ht : eobWith cfg litLen repLen s = .next t) :
    sameOutside s.outRegion s t := by
  rcases eobWith_cases cfg litLen repLen s with heq | ⟨-, hout, heq | heq⟩
  · cases heq.symm.trans ht
    exact sameOutside_failDecode cfg s _
  · cases heq.symm.trans ht
    exact (sameOutside_literalDone hcap hout).trans (sameOutside_failDecode cfg (s.literalDone litLen) _)
  · cases heq.symm.trans ht
    exact (sameOutside_literalDone hcap hout).trans (sameOutside_finishDecode (s.literalDone litLen) _)

theorem sameOutside_patternWith {bytes : List Byte} {t : State} (ht : patternWith cfg bytes s = .next t) :
    sameOutside s.outRegion s t := by
  rcases patternWith_cases cfg bytes s with heq | ⟨m, hle, heq⟩
  · cases heq.symm.trans ht
    exact sameOutside_failDecode cfg s _
  · cases heq.symm.trans ht
    exact fun a ha => Memory.read_tile_outside _ _ (outAddr_outside ha (by omega))

/-- Every token and the pattern block write OUT only. -/
theorem sameOutside_execWith {i : Instr} (hi : i.form ≠ .command) {t : State} (ht : execWith cfg i s = .next t) :
    sameOutside s.outRegion s t := by
  cases i with
  | eob litLen repLen => exact sameOutside_eobWith hcap ht
  | rep off repLen =>
    cases ht
    exact sameOutside_tokenRun hcap off 0 repLen
  | tuple off litLen repLen =>
    cases ht
    exact sameOutside_tokenRun hcap off litLen repLen
  | pattern bytes => exact sameOutside_patternWith hcap ht
  | encodeCmd | decodeCmd | scratchMin => exact absurd rfl hi

theorem sameOutside_tokenStep {t : State} (ht : tokenStep cfg s = .next t) : sameOutside s.outRegion s t := by
  rcases tokenStep_cases cfg s with ⟨f, -, heq⟩ | ⟨st, heq⟩
  · exact sameOutside_execWith (s := { s with dec := s.dec.latch f }) hcap (by simp) (heq.symm.trans ht)
  · cases heq.symm.trans ht
    exact sameOutside_failDecode cfg s st

end

/-! ### A step of ENCODE writes OUT and STATE only, and OUT below its limit while it goes on (R58, R160) -/

theorem sameOutside2_of_mem_eq {r r' : Region} {s t : State} (h : t.mem = s.mem) : sameOutside2 r r' s t :=
  fun _ _ _ => by rw [h]

/-- What a step writes below the limit lies in OUT. -/
theorem sameOutside2_outRegion {s t : State} {r' : Region} {n : Nat} (hn : n ≤ s.desc.outCap.toNat)
    (h : sameOutside2 (s.outPart 0 n) r' s t) : sameOutside2 s.outRegion r' s t := by
  intro a ha ha'
  refine h a ?_ ha'
  have := outAddr_outside (i := 0) ha (show 0 + n ≤ s.desc.outCap.toNat by omega)
  simp only [State.outPart, Bool.and_eq_false_iff, decide_eq_false_iff_not]
  omega

theorem sameOutside2_finishEncode (s : State) (k : Nat) :
    sameOutside2 s.outRegion s.scratchRegion s (s.finishEncode k) := by
  intro a ha ha'
  have hscratch : (s.scrambleOut k).scratchRegion.covers a ≠ true := Bool.eq_false_iff.1 ha'
  rw [State.finishEncode_mem, State.read_scrambleScratch, if_neg hscratch]
  exact State.read_scrambleOut_outside s k ha

theorem sameOutside2_giveUpEncode (s : State) : sameOutside2 s.outRegion s.scratchRegion s s.giveUpEncode :=
  sameOutside2_finishEncode s 0

theorem sameOutside2_withSlot {s t : State} {k : SlotIx} {v : Nat} {r : Region} (hm : t.mem = s.withSlot k v) :
    sameOutside2 r s.scratchRegion s t := by
  intro a _ ha
  rw [hm]
  exact read_withSlot_outside_scratch s k v ha

theorem sameOutside2_withOutBytes {s t : State} {i n : Nat} {bs : List Byte} {r' : Region}
    (hm : t.mem = s.withOutBytes i bs) (hn : i + bs.length ≤ n) : sameOutside2 (s.outPart 0 n) r' s t := by
  intro a ha _
  rw [hm]
  refine Memory.read_writeBytes_outside _ _ ?_
  simp only [State.outPart, Bool.and_eq_false_iff, decide_eq_false_iff_not] at ha
  simp only [State.outAddr] at ha ⊢
  omega

/-- The bytes TAIL writes are as many as the cost it tested (R146, R174). -/
theorem length_eobToken {litLen : Nat} {lit : List Byte} (h : lit.length = litLen) :
    (encodeToken (.eob litLen Config.repeatMin) lit).length = tokenCost litLen 0 := by
  simp [encodeToken, encode, tokenCost, h]

/-- Each state of the encoder ends the command, or writes OUT below the limit and STATE only. -/
theorem encoderStep_writes (cfg : Config) (st : EncState) (s : State) :
    ((encoderStep cfg st s).run = .idle ∧ sameOutside2 s.outRegion s.scratchRegion s (encoderStep cfg st s)) ∨
      sameOutside2 (s.outPart 0 s.enc.limit) s.scratchRegion s (encoderStep cfg st s) := by
  cases st with
  | search => exact .inr (sameOutside2_of_mem_eq rfl)
  | probe =>
    simp only [encoderStep]
    rcases encProbeState_cases cfg s with ⟨-, heq⟩ | ⟨-, ⟨-, -, heq⟩ | heq⟩
    · rw [heq]
      exact .inr (sameOutside2_of_mem_eq rfl)
    · rw [heq]
      exact .inr (sameOutside2_withSlot rfl)
    · rw [heq]
      exact .inr (sameOutside2_withSlot rfl)
  | matching => exact .inr (sameOutside2_of_mem_eq rfl)
  | emit =>
    simp only [encoderStep]
    rcases encEmit_cases s with heq | ⟨hfits, heq⟩
    · rw [heq]
      exact .inl ⟨rfl, sameOutside2_giveUpEncode s⟩
    · rw [heq]
      have hlen := length_matchToken s.enc (Memory.length_readBytes s.mem (s.inAddr s.enc.nr0) s.enc.litLen)
      exact .inr (sameOutside2_withOutBytes rfl (hlen ▸ hfits))
  | advance =>
    by_cases hins : s.enc.e + Config.nearEnd ≤ s.enc.inLen
    · exact .inr (sameOutside2_withSlot (if_pos hins))
    · exact .inr (sameOutside2_of_mem_eq (if_neg hins))
  | tail =>
    simp only [encoderStep]
    rcases encTail_cases s with heq | ⟨hfits, heq⟩
    · rw [heq]
      exact .inl ⟨rfl, sameOutside2_giveUpEncode s⟩
    · rw [heq]
      have hlen := length_eobToken (Memory.length_readBytes s.mem (s.inAddr s.enc.nr0) (s.enc.inLen - s.enc.nr0))
      exact .inr (sameOutside2_withOutBytes rfl (hlen ▸ hfits))
  | done =>
    simp only [encoderStep]
    rcases encDone_cases s with heq | heq
    · rw [heq]
      exact .inl ⟨rfl, sameOutside2_giveUpEncode s⟩
    · rw [heq]
      exact .inl ⟨rfl, sameOutside2_finishEncode s _⟩

/-! ### A step of a BUSY engine -/

/-- What a BUSY engine's step writes: under DECODE OUT only; under ENCODE OUT and STATE only, and OUT below the limit
while it goes on. -/
theorem engineStep_writes {cfg : Config} {s t : State} (hrun : s.runOk cfg) (hb : s.run ≠ .idle)
    (ht : engineStep cfg s = .next t) :
    (∃ st, s.run = .encoding st ∧ s.encodeRegionsOk cfg = true ∧ sameOutside2 s.outRegion s.scratchRegion s t ∧
      (t.run ≠ .idle → sameOutside2 (s.outPart 0 s.enc.limit) s.scratchRegion s t)) ∨
    ((∀ st, s.run ≠ .encoding st) ∧ s.decodeRegionsOk cfg = true ∧ sameOutside s.outRegion s t) := by
  rcases engineStep_cases hb ht with ⟨st, hr, rfl⟩ | ⟨hr, ht⟩ | ⟨hr, ht⟩
  · have hbase := (encoder_of_runOk hrun hr).1
    obtain ⟨-, -, -, -, hlim, -, -⟩ := encoderBase_ranges hbase
    refine .inl ⟨st, hr, (encoderBase_regions hbase).1, ?_⟩
    rcases encoderStep_writes cfg st s with ⟨hidle, hout⟩ | hbelow
    · exact ⟨hout, fun hn => absurd hidle hn⟩
    · exact ⟨sameOutside2_outRegion hlim hbelow, fun _ => hbelow⟩
  · obtain ⟨-, hcap, -, -, hreg⟩ := pattern_of_runOk hrun hr
    exact .inr ⟨by simp [hr], hreg, sameOutside_execWith hcap (by simp) ht⟩
  · obtain ⟨hcap, hreg⟩ := decoderOk_regions (decoder_of_runOk hrun hr)
    exact .inr ⟨by simp [hr], hreg, sameOutside_tokenStep hcap ht⟩

/-- Settles O50: what a BUSY engine's step writes, and IN shares no address with it. -/
theorem engineStaysInItsRegions : Obligations.EngineStaysInItsRegions := by
  unfold Obligations.EngineStaysInItsRegions
  intro cfg s t q hinv hturn ht
  obtain ⟨-, hkeeps, -⟩ := engineKeepsTheDescriptor
  have hdesc : t.desc = s.desc := (hkeeps cfg s t q hturn ht).1
  obtain ⟨-, -, hrun⟩ := hinv
  have hb := busy_of_turn_engine hturn
  rw [stepWith_of_turn_engine hturn] at ht
  rcases engineStep_writes (s := { s with host := q }) hrun hb ht with
    ⟨st, hr, hreg, hsame, hlim⟩ | ⟨hr, hreg, hsame⟩
  · have hout := (regions_of_decodeRegionsOk (s := s) (decodeRegionsOk_of_encodeRegionsOk hreg)).2.2
    have hscratch : ∀ a, s.inRegion.covers a = true → s.scratchRegion.covers a = false := fun a ha =>
      Bool.eq_false_iff.2 fun hs => by simp [((regions_of_encodeRegionsOk (s := s) hreg).2 a hs).1] at ha
    refine ⟨fun a ha ha' => hsame a ha (ha'.resolve_right fun hn => hn st hr), fun j => ?_, fun _ _ => hlim⟩
    exact inByte_congr hdesc fun a ha => hsame a (hout a ha) (hscratch a ha)
  · have hout := (regions_of_decodeRegionsOk (s := s) hreg).2.2
    refine ⟨fun a ha _ => hsame a ha, fun j => ?_, fun st hr' => absurd hr' (hr st)⟩
    exact inByte_congr hdesc fun a ha => hsame a (hout a ha)

end Sys2Proof.Machine
end

section
/-! PROOF. The encoding (30_encoding, 41_tag_codec): the tag and its bytes, escapes and fields each read back as
written, and so the decoder and the encoder are inverse to each other (R84 to R95, R143 to R148). -/

namespace Sys2Proof

/-! ### The tag as a number (R84, R85, R141, R142) -/

theorem tagOff_eq (t : Tag) : tagOff t = t.toNat % 2 ^ 12 := by
  simp [tagOff]

theorem tagRF_eq (t : Tag) : tagRF t = t.toNat / 2 ^ 12 % 2 ^ 6 := by
  simp [tagRF, Nat.shiftRight_eq_div_pow]

theorem tagNrF_eq (t : Tag) : tagNrF t = t.toNat / 2 ^ 18 := by
  have := t.isLt
  simp only [tagNrF, BitVec.extractLsb'_toNat, Nat.shiftRight_eq_div_pow]
  omega

theorem packTag_toNat {off nrF rF : Nat} (hoff : off ≤ Config.offMax) (hnr : nrF ≤ Config.nrMax)
    (hr : rF ≤ Config.rMax) : (packTag off nrF rF).toNat = off + rF * 2 ^ 12 + nrF * 2 ^ 18 := by
  simp only [Config.offMax, Config.nrMax, Config.rMax] at hoff hnr hr
  unfold packTag
  change @BitVec.toNat (6 + 6 + 12) _ = _
  rw [BitVec.toNat_append, BitVec.toNat_append, Nat.shiftLeft_eq, Nat.shiftLeft_eq, Nat.mul_comm _ (2 ^ 6),
    ← Nat.two_pow_add_eq_or_of_lt (BitVec.isLt _), Nat.mul_comm _ (2 ^ 12),
    ← Nat.two_pow_add_eq_or_of_lt (BitVec.isLt _)]
  simp only [BitVec.toNat_ofNat]
  omega

/-- Reading the fields of a packed tag gives the fields (R142). -/
theorem tag_fields_packTag {off nrF rF : Nat} (hoff : off ≤ Config.offMax) (hnr : nrF ≤ Config.nrMax)
    (hr : rF ≤ Config.rMax) :
    tagOff (packTag off nrF rF) = off ∧ tagNrF (packTag off nrF rF) = nrF ∧ tagRF (packTag off nrF rF) = rF := by
  rw [tagOff_eq, tagNrF_eq, tagRF_eq, packTag_toNat hoff hnr hr]
  simp only [Config.offMax, Config.nrMax, Config.rMax] at hoff hnr hr
  omega

/-- Packing the fields of a tag gives the tag (R142). -/
theorem packTag_tag_fields (t : Tag) : packTag (tagOff t) (tagNrF t) (tagRF t) = t := by
  obtain ⟨hoff, hr, hnr⟩ := tag_fields_le t
  refine BitVec.eq_of_toNat_eq ?_
  rw [packTag_toNat hoff hnr hr, tagOff_eq, tagNrF_eq, tagRF_eq]
  omega

/-- The bytes of a tag are read as the tag (R84). -/
theorem tagOfBytes_tagBytes (t : Tag) :
    tagOfBytes (t.extractLsb' 0 8) (t.extractLsb' 8 8) (t.extractLsb' 16 8) = t := by
  have := t.isLt
  refine BitVec.eq_of_toNat_eq ?_
  simp only [tagOfBytes_toNat, BitVec.extractLsb'_toNat, Nat.shiftRight_eq_div_pow]
  omega

/-- The tag of three bytes is stored as those bytes (R84). -/
theorem tagBytes_tagOfBytes (b0 b1 b2 : Byte) : tagBytes (tagOfBytes b0 b1 b2) = [b0, b1, b2] := by
  have := b0.isLt
  have := b1.isLt
  have := b2.isLt
  simp only [tagBytes, List.cons.injEq, and_true, ← BitVec.toNat_inj, BitVec.extractLsb'_toNat, tagOfBytes_toNat,
    Nat.shiftRight_eq_div_pow]
  omega

/-! ### Escapes (R89, R143, R144) -/

/-- Reading the escape sequence of `u` gives `u`, its size and its last byte, and leaves what follows. -/
theorem escDecode_escEncode (u : Nat) (rest : List Byte) :
    escDecode (escEncode u ++ rest) =
      some ⟨u, sizeBytesCount u, BitVec.ofNat 8 (u % Config.byteMax), rest⟩ := by
  have hr : u % Config.byteMax < Config.byteMax := Nat.mod_lt _ (by decide)
  simp only [escDecode, escEncode, escDecodeFrom_sequence _ hr, Nat.zero_add, Nat.div_add_mod, sizeBytesCount]

/-- What is read as an escape is the escape sequence of its value. -/
theorem eq_escEncode_of_escDecode {bs : List Byte} {e : Escape} (h : escDecode bs = some e) :
    bs = escEncode e.value ++ e.rest := by
  obtain ⟨k, r, hr, hbs, he⟩ := escDecodeFrom_some h
  have hvalue : e.value = 0 + Config.byteMax * k + r := congrArg Escape.value he
  have hdiv : e.value / Config.byteMax = k := by simp only [hvalue, Config.byteMax] at hr ⊢; omega
  have hmod : e.value % Config.byteMax = r := by simp only [hvalue, Config.byteMax] at hr ⊢; omega
  rw [escEncode, hdiv, hmod, ← hbs]

/-- The loop of R144 finds no end exactly when every byte is `FF`. -/
theorem escDecodeFrom_eq_none (u n : Nat) (bs : List Byte) :
    escDecodeFrom u n bs = none ↔ ∀ b ∈ bs, b = 0xFF#8 := by
  induction bs generalizing u n with
  | nil => simp [escDecodeFrom]
  | cons b bs ih =>
    rw [escDecodeFrom, List.forall_mem_cons]
    split
    · next hb =>
      have hne : b ≠ 0xFF#8 := by rintro rfl; exact absurd hb (by decide)
      simp [hne]
    · next hb => simp [ih, show b = 0xFF#8 from byte_eq_FF hb]

/-! ### A field and its escape (R86, R87) -/

/-- Reading a field and its escape as written gives the value, and leaves what follows. -/
theorem fieldValue_fieldOf (v : Nat) (rest : List Byte) :
    ∃ size last, fieldValue (fieldOf v) (escapeOf v ++ rest) = some ⟨v, size, last, rest⟩ := by
  by_cases hv : v < Config.nrMax
  · obtain ⟨hfield, hescape⟩ := fieldOf_of_lt hv
    exact ⟨0, 0#8, by rw [hfield, hescape, fieldValue, if_neg hv.ne, List.nil_append]⟩
  · have hmax : fieldOf v = Config.nrMax := fieldOf_eq_max.2 (Nat.le_of_not_lt hv)
    rw [hmax, escapeOf, if_neg hv, fieldValue, if_pos rfl, escDecode_escEncode, Option.map_some]
    simp only [Nat.add_sub_cancel' (Nat.le_of_not_lt hv)]
    exact ⟨_, _, rfl⟩

/-- What is read as the value of a field is written as that field and the escape read. -/
theorem fieldValue_some {f : Nat} {bs : List Byte} {e : Escape} (hf : f ≤ Config.nrMax)
    (h : fieldValue f bs = some e) : fieldOf e.value = f ∧ bs = escapeOf e.value ++ e.rest := by
  unfold fieldValue at h
  split at h
  · next hmax =>
    obtain ⟨e', he', rfl⟩ := Option.map_eq_some_iff.1 h
    refine ⟨(fieldOf_eq_max.2 (Nat.le_add_right _ _)).trans hmax.symm, ?_⟩
    rw [escapeOf, if_neg (by simp), Nat.add_sub_cancel_left]
    exact eq_escEncode_of_escDecode he'
  · next hne =>
    cases h
    obtain ⟨hfield, hescape⟩ := fieldOf_of_lt (Nat.lt_of_le_of_ne hf hne)
    exact ⟨hfield, by simp [hescape]⟩

/-! ### The fields of a token (R145, R147, R148) -/

/-- Reading the fields as written gives them back, and leaves what follows. -/
theorem decodeFields_encodeFields {off : Nat} (hoff : off ≤ Config.offMax) (litLen v : Nat) (rest : List Byte) :
    ∃ f, decodeFields (encodeFields off litLen v ++ rest) = .ok f ∧ f.off = off ∧ f.nrF = fieldOf litLen ∧
      f.litLen = litLen ∧ f.repLen = v + Config.repeatMin ∧ f.rest = rest := by
  obtain ⟨hoff', hnr, hr⟩ := tag_fields_packTag hoff (fieldOf_le litLen) (fieldOf_le v)
  obtain ⟨litSize, litLast, hlit⟩ := fieldValue_fieldOf litLen (escapeOf v ++ rest)
  obtain ⟨repSize, repLast, hrep⟩ := fieldValue_fieldOf v rest
  simp only [encodeFields, tagBytes, List.append_assoc, List.cons_append, List.nil_append, decodeFields,
    tagOfBytes_tagBytes, hnr, hr, hlit, hrep, hoff']
  exact ⟨_, rfl, rfl, rfl, rfl, rfl, rfl⟩

/-- What is read as fields is written as those fields. -/
theorem decodeFields_ok {bs : List Byte} {f : Fields} (h : decodeFields bs = .ok f) :
    f.off ≤ Config.offMax ∧ f.nrF = fieldOf f.litLen ∧ Config.repeatMin ≤ f.repLen ∧
      bs = encodeFields f.off f.litLen (f.repLen - Config.repeatMin) ++ f.rest := by
  unfold decodeFields at h
  split at h
  · next b0 b1 b2 bs =>
    obtain ⟨hoff, hr, hnr⟩ := tag_fields_le (tagOfBytes b0 b1 b2)
    simp only at h
    split at h
    · cases h
    · next lit hlit =>
      split at h
      · cases h
      · next rp hrp =>
        cases h
        obtain ⟨hlitField, hlitBytes⟩ := fieldValue_some hnr hlit
        obtain ⟨hrpField, hrpBytes⟩ := fieldValue_some hr hrp
        refine ⟨hoff, hlitField.symm, Nat.le_add_left _ _, ?_⟩
        simp only [encodeFields, Nat.add_sub_cancel, hlitField, hrpField, packTag_tag_fields, tagBytes_tagOfBytes,
          List.append_assoc, ← hrpBytes, ← hlitBytes, List.cons_append, List.nil_append]
  · cases h

/-! ### Tokens (R90) -/

/-- The token of an offset and two lengths, by the rule of R90. -/
def tokenOf (off litLen repLen : Nat) : Instr :=
  if off = 0 then .eob litLen repLen
  else if litLen = 0 then .rep off repLen
  else .tuple off litLen repLen

/-- The selection by the literal-length field is the selection by the literal length. -/
theorem Fields.instr_eq_tokenOf {f : Fields} (hnr : f.nrF = fieldOf f.litLen) :
    f.instr = tokenOf f.off f.litLen f.repLen := by
  have hzero : fieldOf f.litLen = 0 ↔ f.litLen = 0 := by simp only [fieldOf, Config.nrMax]; omega
  simp only [Fields.instr, tokenOf, hnr, hzero]

theorem encode_tokenOf (off litLen repLen : Nat) :
    encode (tokenOf off litLen repLen) = encodeFields off litLen (repLen - Config.repeatMin) := by
  unfold tokenOf
  split
  · next h => rw [h]; rfl
  · split
    · next h => rw [h]; rfl
    · rfl

/-- The well-formed tokens are those of an offset up to `OFF_MAX` and a repeat length from `REPEAT_MIN`. -/
theorem wellFormed_token_iff {i : Instr} : i.form = .token ∧ WellFormed i = true ↔
    ∃ off litLen repLen, off ≤ Config.offMax ∧ Config.repeatMin ≤ repLen ∧ i = tokenOf off litLen repLen := by
  constructor
  · rintro ⟨hform, hwf⟩
    cases i with
    | eob litLen repLen =>
      exact ⟨0, litLen, repLen, Nat.zero_le _, of_decide_eq_true hwf, rfl⟩
    | rep off repLen =>
      simp only [WellFormed, Bool.and_eq_true, decide_eq_true_eq] at hwf
      obtain ⟨⟨hpos, hoff⟩, hrep⟩ := hwf
      exact ⟨off, 0, repLen, hoff, hrep, by simp [tokenOf, Nat.ne_of_gt hpos]⟩
    | tuple off litLen repLen =>
      simp only [WellFormed, Bool.and_eq_true, decide_eq_true_eq] at hwf
      obtain ⟨⟨⟨hpos, hoff⟩, hlit⟩, hrep⟩ := hwf
      exact ⟨off, litLen, repLen, hoff, hrep, by simp [tokenOf, Nat.ne_of_gt hpos, Nat.ne_of_gt hlit]⟩
    | _ => cases hform
  · rintro ⟨off, litLen, repLen, hoff, hrep, rfl⟩
    unfold tokenOf
    split
    · exact ⟨rfl, decide_eq_true hrep⟩
    · next h0 =>
      have hpos : 1 ≤ off := Nat.pos_of_ne_zero h0
      split
      · exact ⟨rfl, by simp [WellFormed, hpos, hoff, hrep]⟩
      · next hlit => exact ⟨rfl, by simp [WellFormed, hpos, hoff, hrep, Nat.one_le_iff_ne_zero, hlit]⟩

/-! ### What decodes, form by form (R92, R95, R98) -/

theorem decode_token_iff {bs rest : List Byte} {i : Instr} :
    decode .token bs = .ok i rest ↔ i.form = .token ∧ WellFormed i = true ∧ bs = encode i ++ rest := by
  rw [← and_assoc, wellFormed_token_iff]
  constructor
  · intro h
    rw [decode] at h
    split at h
    · next f hf =>
      cases h
      obtain ⟨hoff, hnr, hrep, hbs⟩ := decodeFields_ok hf
      rw [Fields.instr_eq_tokenOf hnr, encode_tokenOf]
      exact ⟨⟨f.off, f.litLen, f.repLen, hoff, hrep, rfl⟩, hbs⟩
    · cases h
  · rintro ⟨⟨off, litLen, repLen, hoff, hrep, rfl⟩, rfl⟩
    obtain ⟨f, hf, rfl, hnr, rfl, hrepLen, rfl⟩ :=
      decodeFields_encodeFields hoff litLen (repLen - Config.repeatMin) rest
    rw [Nat.sub_add_cancel hrep] at hrepLen
    simp only [encode_tokenOf, decode, hf, Fields.instr_eq_tokenOf hnr, hrepLen]

/-- A code selects a command exactly when it is the one byte that command is written as (R98). -/
theorem commandOf_eq_some {code : Byte} {i : Instr} :
    commandOf code = some i ↔ i.form = .command ∧ encode i = [code] := by
  constructor
  · intro h
    unfold commandOf at h
    split at h
    · next hc => cases h; exact ⟨rfl, by rw [hc]; rfl⟩
    · split at h
      · next hc => cases h; exact ⟨rfl, by rw [hc]; rfl⟩
      · split at h
        · next hc => cases h; exact ⟨rfl, by rw [hc]; rfl⟩
        · cases h
  · rintro ⟨hform, hcode⟩
    cases i with
    | encodeCmd => cases hcode; rfl
    | decodeCmd => cases hcode; rfl
    | scratchMin => cases hcode; rfl
    | _ => cases hform

/-- A command is well-formed and is written as one byte. -/
theorem command_spec {i : Instr} (h : i.form = .command) : WellFormed i = true ∧ ∃ code, encode i = [code] := by
  cases i with
  | encodeCmd => exact ⟨rfl, _, rfl⟩
  | decodeCmd => exact ⟨rfl, _, rfl⟩
  | scratchMin => exact ⟨rfl, _, rfl⟩
  | _ => cases h

theorem decode_command_iff {bs rest : List Byte} {i : Instr} :
    decode .command bs = .ok i rest ↔ i.form = .command ∧ WellFormed i = true ∧ bs = encode i ++ rest := by
  constructor
  · intro h
    cases bs with
    | nil => cases h
    | cons code bs =>
      rw [decode] at h
      split at h
      · next hsome =>
        cases h
        obtain ⟨hform, hcode⟩ := commandOf_eq_some.1 hsome
        exact ⟨hform, (command_spec hform).1, by rw [hcode]; rfl⟩
      · cases h
  · rintro ⟨hform, -, rfl⟩
    obtain ⟨-, code, hcode⟩ := command_spec hform
    simp only [hcode, List.cons_append, List.nil_append, decode, commandOf_eq_some.2 ⟨hform, hcode⟩]

/-- A pattern block is the whole of its bytes (R80, R93). -/
theorem decode_block_iff {bs rest : List Byte} {i : Instr} : decode .block bs = .ok i rest ↔
    i.form = .block ∧ WellFormed i = true ∧ bs = encode i ∧ rest = [] := by
  constructor
  · intro h
    rw [decode] at h
    split at h
    · next hlen => cases h; exact ⟨rfl, decide_eq_true hlen, rfl, rfl⟩
    · cases h
  · rintro ⟨hform, hwf, rfl, rfl⟩
    cases i with
    | pattern bytes => rw [encode, decode, if_pos (of_decide_eq_true hwf)]
    | _ => cases hform

end Sys2Proof

namespace Sys2Proof.Machine

/-- Settles O8: by the wire form, each decoder accepting the encodings of the well-formed instructions of its form. -/
theorem decodeInvertsEncode : Obligations.DecodeInvertsEncode := by
  unfold Obligations.DecodeInvertsEncode
  intro i rest hwf hrest
  cases hform : i.form with
  | command => exact decode_command_iff.2 ⟨hform, hwf, rfl⟩
  | token => exact decode_token_iff.2 ⟨hform, hwf, rfl⟩
  | block =>
    obtain rfl := hrest hform
    exact decode_block_iff.2 ⟨hform, hwf, List.append_nil _, rfl⟩

/-- Settles O9: by the wire form, each decoder accepting nothing but encodings of its own form. -/
theorem encodeInvertsDecode : Obligations.EncodeInvertsDecode := by
  unfold Obligations.EncodeInvertsDecode
  intro f bs i rest h
  cases f with
  | command => exact decode_command_iff.1 h
  | token => exact decode_token_iff.1 h
  | block =>
    obtain ⟨hform, hwf, rfl, rfl⟩ := decode_block_iff.1 h
    exact ⟨hform, hwf, (List.append_nil _).symm⟩

/-- Settles O13: the shape of `EscEncode`, its reading, and the two outcomes of the loop of R144. -/
theorem escapesAreReadAsWritten : Obligations.EscapesAreReadAsWritten := by
  unfold Obligations.EscapesAreReadAsWritten
  have hlast : ∀ u, (BitVec.ofNat 8 (u % Config.byteMax)).toNat = u % 255 := fun u => by
    simp only [Config.byteMax, BitVec.toNat_ofNat]
    omega
  refine ⟨fun u => ⟨length_escEncode u, fun b hb => ?_, fun b hb => ?_⟩,
    fun u rest => ⟨_, escDecode_escEncode u rest, hlast u⟩,
    fun _ _ => eq_escEncode_of_escDecode, escDecodeFrom_eq_none 0 0⟩
  · rw [escEncode, List.dropLast_concat] at hb
    exact List.eq_of_mem_replicate hb
  · rw [escEncode, List.getLast?_concat, Option.mem_some_iff] at hb
    rw [← hb, hlast]
    exact ⟨Nat.mod_lt _ (by decide), rfl⟩

/-- Settles O10: eight closed words. -/
theorem tableWordsDecode : Obligations.TableWordsDecode := by
  unfold Obligations.TableWordsDecode
  decide

/-- Settles O12: the three bytes read as the tag, whose value is that of the bytes. -/
theorem tagIsStoredLittleEndian : Obligations.TagIsStoredLittleEndian := by
  unfold Obligations.TagIsStoredLittleEndian
  intro t
  refine ⟨_, _, _, rfl, tagOfBytes_tagBytes t, ?_⟩
  rw [← tagOfBytes_toNat, tagOfBytes_tagBytes]

end Sys2Proof.Machine
end

section
/-! PROOF. The primitives (40_primitives): the overlapped tag read (R114), the repeat copy and `Fill` in closed form
(R122, R123), the tiled pattern (R124), and match extension by 8-byte words (R119). -/

namespace Sys2Proof.Machine

/-! ### The overlapped tag read (R114) -/

/-- R52: the lowest address holds the lowest byte. -/
theorem Memory.readLE_succ (m : Memory) (a n : Nat) :
    m.readLE a (n + 1) = (m.read a).toNat + 256 * m.readLE (a + 1) n := rfl

@[simp] theorem Memory.readLE_zero (m : Memory) (a : Nat) : m.readLE a 0 = 0 := rfl

/-- Settles O14: dividing by 256 drops the byte before the tag. -/
theorem overlappedTagReadIsTheTag : Obligations.OverlappedTagReadIsTheTag := by
  unfold Obligations.OverlappedTagReadIsTheTag
  intro s i hi
  have hb := (s.mem.read (s.inAddr (i - 1))).isLt
  have haddr : s.inAddr (i - 1) + 1 = s.inAddr i := by
    simp only [State.inAddr]
    omega
  have hdrop : s.mem.readLE (s.inAddr (i - 1)) 4 / 256 = s.mem.readLE (s.inAddr i) 3 := by
    rw [Memory.readLE_succ, haddr]
    omega
  have hval : s.mem.readLE (s.inAddr i) 3 =
      (tagOfBytes (s.inByte i) (s.inByte (i + 1)) (s.inByte (i + 2))).toNat := by
    simp only [tagOfBytes_toNat, State.inByte, State.inAddr, Memory.readLE_succ, Memory.readLE_zero, Nat.add_assoc,
      Nat.reduceAdd]
    omega
  rw [State.readTagOverlapped, hdrop, hval, BitVec.ofNat_toNat, BitVec.setWidth_eq]

/-! ### The repeat copy (R122, R123) -/

/-- Settles O25, by induction on the index: each byte is the byte `off` before it, back to those below `dst`. -/
theorem repeatCopyIsPeriodic : Obligations.RepeatCopyIsPeriodic := by
  unfold Obligations.RepeatCopyIsPeriodic
  intro m dst off n i hoff hdst hi
  induction i using Nat.strong_induction_on with
  | _ i ih =>
    rw [Memory.read_copyForward m hi (by omega)]
    by_cases hlt : i < off
    · rw [Memory.read_copyForward_outside m (by omega), Nat.mod_eq_of_lt hlt]
    · rw [show dst - off + i = dst + (i - off) by omega, ih (i - off) (by omega) (by omega),
        ← Nat.mod_eq_sub_mod (by omega)]

/-- At distance 1 the period is the one byte before `dst`. -/
theorem read_copyRepeat_one (s : State) {dst n i : Nat} (hdst : 1 ≤ dst) (hi : i < n) :
    (s.copyRepeat dst 1 n).read (s.outAddr dst + i) = s.outByte (dst - 1) := by
  have haddr : s.outAddr (dst - 1) = s.outAddr dst - 1 := by
    simp only [State.outAddr]
    omega
  have h := repeatCopyIsPeriodic s.mem (s.outAddr dst) 1 n i (Nat.le_refl 1) (by simp only [State.outAddr]; omega) hi
  rwa [Nat.mod_one, Nat.add_zero, ← haddr] at h

theorem read_fill (s : State) {dst n i : Nat} (hi : i < n) :
    (s.fill dst n).read (s.outAddr dst + i) = s.outByte (dst - 1) := by
  rw [State.fill, State.withOutBytes, Memory.read_writeBytes, dif_pos (by rw [List.length_replicate]; omega),
    List.getElem_replicate]

theorem read_fill_outside (s : State) {dst n a : Nat} (h : a < s.outAddr dst ∨ s.outAddr dst + n ≤ a) :
    (s.fill dst n).read a = s.mem.read a :=
  Memory.read_writeBytes_outside _ _ (by rwa [List.length_replicate])

/-- Settles O26: outside the destination both leave memory alone, inside it both give `OUT[dst-1]`. -/
theorem fillIsTheRepeatAtDistanceOne : Obligations.FillIsTheRepeatAtDistanceOne := by
  unfold Obligations.FillIsTheRepeatAtDistanceOne
  intro s dst n a hdst
  constructor
  · by_cases hin : s.outAddr dst ≤ a ∧ a < s.outAddr dst + n
    · obtain ⟨i, rfl⟩ := Nat.exists_eq_add_of_le hin.1
      rw [read_fill s (by omega), read_copyRepeat_one s hdst (by omega)]
    · rw [read_fill_outside s (by omega), read_copyRepeat_outside s (by omega)]
  · intro i hi
    rw [show s.outAddr (dst + i) = s.outAddr dst + i from (Nat.add_assoc ..).symm]
    exact read_copyRepeat_one s hdst hi

/-! ### The pattern block (R124, R216) -/

/-- The state after PATTERN has tiled its bytes over `m` bytes of OUT. -/
def State.patternDone (s : State) (bytes : List Byte) (m : Nat) : State :=
  ({ s with mem := s.mem.tile (s.outAddr 0) bytes 0 m } : State).finish m

theorem exec_pattern_eq_patternDone (bytes : List Byte) {s : State} (h : min s.dec.outCap 4096 % 8 = 0) :
    exec (.pattern bytes) s = .next (s.patternDone bytes (min s.dec.outCap 4096)) :=
  (exec_eq _ s).trans (if_neg (not_not_intro h))

theorem outByte_patternDone (s : State) (bytes : List Byte) {m j : Nat} (hj : j < m) :
    (s.patternDone bytes m).outByte j = bytes.getD (j % 8) 0#8 := by
  have h := Memory.read_tile s.mem (dst := s.outAddr 0) (i := 0) bytes hj
  rwa [Nat.zero_add] at h

theorem sameOutside_patternDone (s : State) (bytes : List Byte) (m : Nat) :
    sameOutside (s.outPart 0 m) s (s.patternDone bytes m) := by
  intro a ha
  simp only [State.outPart, Bool.and_eq_false_iff, decide_eq_false_iff_not] at ha
  exact Memory.read_tile_outside _ _ (by omega)

theorem getD_inBytes (s : State) {i n k : Nat} (hk : k < n) : (s.inBytes i n).getD k 0#8 = s.inByte (i + k) := by
  have hlen : k < (s.inBytes i n).length := by rwa [State.inBytes, Memory.length_readBytes]
  rw [List.getD_eq_getElem _ _ hlen]
  simp only [State.inBytes, Memory.getElem_readBytes, State.inByte, State.inAddr, Nat.add_assoc]

/-- Settles O27: the bytes of the tiling, its frame and its count; the fetched block holds the bytes of IN. -/
theorem patternTilesTheOutput : Obligations.PatternTilesTheOutput := by
  unfold Obligations.PatternTilesTheOutput
  refine ⟨fun s bytes _ hlen hm => ?_, fun s _ hm => ?_⟩
  · refine ⟨_, exec_pattern_eq_patternDone bytes hm, rfl, rfl, ?_, fun j hj => ?_,
      sameOutside_patternDone s bytes _, ⟨rfl, rfl, rfl, rfl⟩, rfl, rfl⟩
    · have hcount : min s.dec.outCap 4096 < 2 ^ 31 := by omega
      rw [State.patternDone, State.finish_result, toInt_countWord hcount]
    · rw [outByte_patternDone s bytes hj]
      have hlt : j % 8 < bytes.length := (Nat.mod_lt j (by decide)).trans_eq hlen.symm
      rw [List.getD_eq_getElem _ _ hlt, List.getElem?_eq_getElem hlt]
  · refine ⟨_, exec_pattern_eq_patternDone _ hm, fun j hj => ?_⟩
    have hlt : j % 8 < Config.patternBytes := Nat.mod_lt j (by decide)
    rw [outByte_patternDone s _ hj, getD_inBytes s hlt, Nat.zero_add]

/-! ### Match extension by words (R119) -/

/-- R119: `e` is the first index from `e0` on at which the bytes stop repeating at distance `off`, or the end. -/
structure IsExtension (s : State) (off e0 inLen e : Nat) : Prop where
  start_le : e0 ≤ e
  le_end : e ≤ inLen
  agrees : ∀ j, e0 ≤ j → j < e → s.inByte j = s.inByte (j - off)
  stops : e = inLen ∨ s.inByte e ≠ s.inByte (e - off)

theorem isExtension_extendForward (s : State) (off : Nat) {e0 inLen : Nat} (h : e0 ≤ inLen) :
    IsExtension s off e0 inLen (s.extendForward off e0 inLen) := by
  obtain ⟨hlo, hhi, hagree, hstop⟩ := extendFrom_spec s off e0 (inLen - e0)
  rw [Nat.add_sub_cancel' h] at hhi hstop
  exact ⟨hlo, hhi, hagree, hstop⟩

namespace IsExtension

variable {s : State} {off e0 inLen e e' : Nat}

/-- An extension cannot end inside another. -/
theorem le (h : IsExtension s off e0 inLen e) (h' : IsExtension s off e0 inLen e') : e' ≤ e := by
  by_contra hlt
  rcases h.stops with hend | hne
  · exact hlt (hend ▸ h'.le_end)
  · exact hne (h'.agrees e h.start_le (by omega))

theorem unique (h : IsExtension s off e0 inLen e) (h' : IsExtension s off e0 inLen e') : e = e' :=
  Nat.le_antisymm (h'.le h) (h.le h')

/-- An extension of no bytes. -/
theorem here (hle : e ≤ inLen) (hstop : e = inLen ∨ s.inByte e ≠ s.inByte (e - off)) :
    IsExtension s off e inLen e :=
  ⟨Nat.le_refl e, hle, fun _ hlo hhi => absurd hhi (Nat.not_lt.2 hlo), hstop⟩

/-- An extension may begin with `k` bytes found to agree otherwise. -/
theorem of_agree {k : Nat} (h : IsExtension s off (e0 + k) inLen e) (hoff : off ≤ e0)
    (hagree : ∀ i < k, s.inByte (e0 + i) = s.inByte (e0 - off + i)) : IsExtension s off e0 inLen e where
  start_le := (Nat.le_add_right e0 k).trans h.start_le
  le_end := h.le_end
  agrees j hlo hhi := by
    by_cases hj : j < e0 + k
    · have := hagree (j - e0) (by omega)
      rwa [show e0 + (j - e0) = j by omega, show e0 - off + (j - e0) = j - off by omega] at this
    · exact h.agrees j (by omega) hhi
  stops := h.stops

end IsExtension

/-- The lowest one bit, or the width where there is none. -/
theorem trailingZeros_spec (n v : Nat) : trailingZeros n v ≤ n ∧ (∀ i < trailingZeros n v, v.testBit i = false) ∧
    (trailingZeros n v = n ∨ v.testBit (trailingZeros n v) = true) := by
  induction n generalizing v with
  | zero => exact ⟨Nat.le_refl 0, fun i hi => absurd hi (Nat.not_lt_zero i), .inl rfl⟩
  | succ n ih =>
    by_cases hodd : v % 2 = 1
    · rw [trailingZeros, if_pos hodd]
      refine ⟨Nat.zero_le _, fun i hi => absurd hi (Nat.not_lt_zero i), .inr ?_⟩
      rw [Nat.testBit_zero, hodd]
      rfl
    · rw [trailingZeros, if_neg hodd]
      obtain ⟨hle, hbelow, hat⟩ := ih (v / 2)
      refine ⟨Nat.succ_le_succ hle, fun i hi => ?_, hat.imp (congrArg (· + 1)) fun hbit => ?_⟩
      · cases i with
        | zero => rw [Nat.testBit_zero, decide_eq_false hodd]
        | succ i =>
          rw [Nat.testBit_succ]
          exact hbelow i (Nat.lt_of_succ_lt_succ hi)
      · rw [Nat.testBit_succ]
        exact hbit

/-- R52 bit by bit: bit `i` is a bit of byte `i / 8`. -/
theorem Memory.testBit_readLE (m : Memory) {a n i : Nat} (hi : i < 8 * n) :
    (m.readLE a n).testBit i = (m.read (a + i / 8)).getLsbD (i % 8) := by
  induction n generalizing a i with
  | zero => omega
  | succ n ih =>
    rw [Memory.readLE_succ, Nat.add_comm, show (256 : Nat) = 2 ^ 8 from rfl,
      Nat.testBit_two_pow_mul_add _ (m.read a).isLt]
    split
    · next hlt => rw [Nat.div_eq_of_lt hlt, Nat.mod_eq_of_lt hlt, Nat.add_zero, BitVec.testBit_toNat]
    · next hge =>
      rw [ih (by omega), show a + 1 + (i - 8) / 8 = a + i / 8 by omega, show (i - 8) % 8 = i % 8 by omega]

/-- R116: bit `i` of the 8-byte word at `a` is a bit of byte `i / 8` from `a` on. -/
theorem getLsbD_read8 (s : State) (a : Nat) {i : Nat} (hi : i < 64) :
    (s.read8 a).getLsbD i = (s.inByte (a + i / 8)).getLsbD (i % 8) := by
  rw [State.read8, BitVec.getLsbD_ofNat, decide_eq_true hi, Bool.true_and, Memory.testBit_readLE _ hi]
  simp only [State.inByte, State.inAddr, Nat.add_assoc]

/-- Words that agree on the bits of a byte agree on that byte. -/
theorem inByte_eq_of_read8_bits {s : State} {a b k : Nat} (hk : k < 8)
    (h : ∀ i < 8 * k + 8, (s.read8 a).getLsbD i = (s.read8 b).getLsbD i) : s.inByte (a + k) = s.inByte (b + k) := by
  refine BitVec.eq_of_getLsbD_eq fun r hr => ?_
  have hbit := h (8 * k + r) (by omega)
  rwa [getLsbD_read8 s a (by omega), getLsbD_read8 s b (by omega), show (8 * k + r) / 8 = k by omega,
    show (8 * k + r) % 8 = r by omega] at hbit

/-- The trailing zero bytes of the difference of two words are the bytes that agree before the first that does not. -/
theorem firstMismatch_of_read8_ne {s : State} {a b k : Nat} (hne : s.read8 a ≠ s.read8 b)
    (hk : k = trailingZeros 64 (s.read8 a ^^^ s.read8 b).toNat / 8) :
    k < 8 ∧ (∀ i < k, s.inByte (a + i) = s.inByte (b + i)) ∧ s.inByte (a + k) ≠ s.inByte (b + k) := by
  obtain ⟨hle, hbelow, hat⟩ := trailingZeros_spec 64 (s.read8 a ^^^ s.read8 b).toNat
  generalize trailingZeros 64 (s.read8 a ^^^ s.read8 b).toNat = z at hk hle hbelow hat
  have hsame : ∀ i < z, (s.read8 a).getLsbD i = (s.read8 b).getLsbD i := fun i hi => by
    have := hbelow i hi
    rwa [BitVec.testBit_toNat, BitVec.getLsbD_xor, bne_eq_false_iff_eq] at this
  have hz : z ≠ 64 := fun hz => hne (BitVec.eq_of_getLsbD_eq fun i hi => hsame i (hz ▸ hi))
  refine ⟨by omega, fun i hi => inByte_eq_of_read8_bits (by omega) fun r hr => hsame r (by omega), fun heq => ?_⟩
  have hdiff := hat.resolve_left hz
  rw [BitVec.testBit_toNat, BitVec.getLsbD_xor, getLsbD_read8 s a (by omega), getLsbD_read8 s b (by omega), ← hk, heq,
    Bool.xor_self] at hdiff
  cases hdiff

/-- The technique finds the extension, by induction on its fuel: a word that agrees is skipped, one that does not
holds the first mismatch, and the last bytes are taken singly. -/
theorem isExtension_extendWords (s : State) {off inLen j n : Nat} (hoff : off ≤ j) (hj : j ≤ inLen)
    (hn : inLen ≤ j + n) : IsExtension s off j inLen (s.extendWords off inLen j n) := by
  induction n generalizing j with
  | zero => exact .here hj (.inl (Nat.le_antisymm hj hn))
  | succ n ih =>
    unfold State.extendWords
    split
    · next hfits =>
      split
      · next heq =>
        have hrest := ih (j := j + 8) (by omega) hfits (by omega)
        exact hrest.of_agree hoff fun i hi => inByte_eq_of_read8_bits hi fun r _ => by rw [heq]
      · next hne =>
        obtain ⟨hlt, hagree, hdiff⟩ := firstMismatch_of_read8_ne hne rfl
        rw [← Nat.sub_add_comm hoff] at hdiff
        exact (IsExtension.here (by omega) (.inr hdiff)).of_agree hoff hagree
    · exact isExtension_extendForward s off hj

/-- Settles O46: both the definition and the technique give the one extension. -/
theorem wordwiseExtensionIsTheExtension : Obligations.WordwiseExtensionIsTheExtension := by
  unfold Obligations.WordwiseExtensionIsTheExtension
  intro s off e0 inLen _ hoff hle
  have h := isExtension_extendForward s off hle
  exact ⟨h.start_le, h.le_end, h.agrees, h.stops, (isExtension_extendWords s hoff hle (by omega)).unique h⟩

end Sys2Proof.Machine
end

section
/-! PROOF. The tag codec (41_tag_codec): the fields of a tag (R142), the cost of a token (R91, R146), and the escape
that runs off the end of the input (R144, R204, R205, R277). -/

namespace Sys2Proof

/-! ### The length of an encoding (R91, R146) -/

theorem length_encode (i : Instr) : (encode i).length = encodedSize i := by
  cases i with
  | eob litLen repLen => exact Laws.EncodedSize.eob litLen repLen
  | rep off repLen => exact Laws.EncodedSize.rep off repLen
  | tuple off litLen repLen => exact Laws.EncodedSize.tuple off litLen repLen
  | pattern bytes => exact Laws.EncodedSize.pattern bytes
  | encodeCmd => exact Laws.EncodedSize.encodeCmd
  | decodeCmd => exact Laws.EncodedSize.decodeCmd
  | scratchMin => exact Laws.EncodedSize.scratchMin

theorem length_encodeToken (i : Instr) (lit : List Byte) :
    (encodeToken i lit).length = encodedSize i + lit.length := by
  rw [encodeToken, List.length_append, length_encode]

/-! ### Fields whose escape is not ended (R144, R204, R205) -/

/-- Reading a field fails exactly when it asks for an escape and only `FF` bytes follow. -/
theorem fieldValue_eq_none {f : Nat} {bs : List Byte} :
    fieldValue f bs = none ↔ f = Config.nrMax ∧ ∀ b ∈ bs, b = 0xFF#8 := by
  unfold fieldValue
  split
  · next hf => simp only [Option.map_eq_none_iff, escDecode, escDecodeFrom_eq_none, hf, true_and]
  · next hf => simp only [hf, false_and, reduceCtorEq]

/-- A field's escape ends at the first byte that is not `FF`, and leaves what follows it. -/
theorem fieldValue_nrMax_ended (k : Nat) {b : Byte} (hb : b ≠ 0xFF#8) (rest : List Byte) :
    ∃ e, fieldValue Config.nrMax (List.replicate k 0xFF#8 ++ b :: rest) = some e ∧ e.rest = rest := by
  have hlt : b.toNat < Config.byteMax := Decidable.not_not.1 fun h => hb (byte_eq_FF h)
  have hread := escDecodeFrom_sequence k hlt 0 0 rest
  rw [BitVec.ofNat_toNat, BitVec.setWidth_eq, List.append_assoc, List.singleton_append] at hread
  exact ⟨_, by rw [fieldValue, if_pos rfl, escDecode]; exact congrArg _ hread, rfl⟩

/-- The literal-length escape is tested first, the repeat-length escape after it, whatever the offset. -/
theorem decodeFields_escapeUnterminated {b0 b1 b2 : Byte} {bs : List Byte}
    (h : fieldValue (tagNrF (tagOfBytes b0 b1 b2)) bs = none ∨
      ∃ lit, fieldValue (tagNrF (tagOfBytes b0 b1 b2)) bs = some lit ∧
        fieldValue (tagRF (tagOfBytes b0 b1 b2)) lit.rest = none) :
    decodeFields (b0 :: b1 :: b2 :: bs) = .reject .escapeUnterminated := by
  rcases h with hlit | ⟨lit, hlit, hrep⟩
  · simp only [decodeFields, hlit]
  · simp only [decodeFields, hlit, hrep]

end Sys2Proof

namespace Sys2Proof.Machine

/-- Settles O11: the fields as numbers, and the two directions of the inverse. -/
theorem tagFieldsInvertPackTag : Obligations.TagFieldsInvertPackTag := by
  unfold Obligations.TagFieldsInvertPackTag
  refine ⟨fun off nrF rF hoff hnr hr => ?_, fun t => ⟨packTag_tag_fields t, tagOff_eq t, tagRF_eq t, tagNrF_eq t⟩⟩
  obtain ⟨hoff', hnr', hr'⟩ := tag_fields_packTag hoff hnr hr
  exact ⟨hoff', hnr', hr', packTag_toNat hoff hnr hr⟩

/-- Settles O15: the encoding's length by kind, a REPEAT having no literal-length escape and no literals. -/
theorem tokenCostIsTheTokensLength : Obligations.TokenCostIsTheTokensLength := by
  unfold Obligations.TokenCostIsTheTokensLength
  intro i lit litLen v hlen hkind
  refine ⟨?_, rfl⟩
  rw [length_encodeToken, hlen, tokenCost]
  rcases hkind with ⟨rfl, rfl⟩ | ⟨off, rfl, rfl⟩ | ⟨off, rfl⟩
  · rfl
  · simp [encodedSize, Config.repeatMin, escapeCost_of_lt (show 0 < Config.nrMax by decide)]
  · rfl

/-! ### The bytes that remain of the block -/

theorem State.inBytes_succ (s : State) (i n : Nat) : s.inBytes i (n + 1) = s.inByte i :: s.inBytes (i + 1) n := rfl

theorem State.inBytes_add (s : State) (i m n : Nat) : s.inBytes i (m + n) = s.inBytes i m ++ s.inBytes (i + m) n := by
  induction m generalizing i with
  | zero => simp [State.inBytes, Memory.readBytes]
  | succ m ih =>
    rw [Nat.add_right_comm, inBytes_succ, inBytes_succ, ih, List.cons_append, Nat.add_assoc, Nat.add_comm 1 m]

theorem State.inBytes_eq_replicate {s : State} {i n : Nat} {b : Byte}
    (h : ∀ j, i ≤ j → j < i + n → s.inByte j = b) : s.inBytes i n = List.replicate n b := by
  induction n generalizing i with
  | zero => rfl
  | succ n ih =>
    rw [inBytes_succ, h i (Nat.le_refl i) (by omega), ih fun j hj hj' => h j (by omega) (by omega),
      List.replicate_succ]

/-- Where a tag fits, the fetch reads its three bytes and then the fields from what follows (R202). -/
theorem State.fetchToken_of_tag_fits {s : State} (h : s.dec.ip + 3 ≤ s.dec.inLen) :
    s.fetchToken = decodeFields (s.inByte s.dec.ip :: s.inByte (s.dec.ip + 1) :: s.inByte (s.dec.ip + 2) ::
      s.inBytes (s.dec.ip + 3) (s.dec.inLen - (s.dec.ip + 3))) := by
  rw [State.fetchToken, show s.dec.inLen - s.dec.ip = s.dec.inLen - (s.dec.ip + 3) + 3 by omega]
  rfl

/-- A field that asks for an escape leaves the bytes after the first that is not `FF`. -/
theorem State.fieldValue_inBytes_ended {s : State} {i k n : Nat} (hik : i < k) (hend : s.inByte (k - 1) ≠ 0xFF#8)
    (hff : ∀ j, i ≤ j → j < k - 1 → s.inByte j = 0xFF#8) (hkn : k ≤ n) :
    ∃ e, fieldValue Config.nrMax (s.inBytes i (n - i)) = some e ∧ e.rest = s.inBytes k (n - k) := by
  have hsplit : s.inBytes i (n - i) =
      List.replicate (k - 1 - i) 0xFF#8 ++ s.inByte (k - 1) :: s.inBytes k (n - k) := by
    rw [show n - i = (k - 1 - i) + (n - k + 1) by omega, inBytes_add,
      inBytes_eq_replicate fun j hj hj' => hff j hj (by omega), show i + (k - 1 - i) = k - 1 by omega, inBytes_succ,
      show k - 1 + 1 = k by omega]
  rw [hsplit]
  exact fieldValue_nrMax_ended _ hend _

/-! ### A rejected fetch (R202, R204, R205) -/

theorem engineStep_decoding (cfg : Config) {s : State} (hr : s.run = .decoding) :
    engineStep cfg s = tokenStep cfg s := by
  simp only [engineStep, hr]

theorem tokenStep_reject (cfg : Config) {s : State} {r : Reject} (h : s.fetchToken = .reject r) :
    tokenStep cfg s = .next (s.failDecode cfg (rejectStatus r)) := by
  simp only [tokenStep, h]

/-- A rejected fetch ends the command by the rejection's status. -/
theorem stepWith_of_fetchToken_reject {cfg : Config} {s : State} {q : List HostEvent} {r : Reject}
    (hturn : s.turn cfg = .engine q) (hrun : s.run = .decoding) (hfetch : s.fetchToken = .reject r) :
    stepWith cfg s = .next (({ s with host := q } : State).failDecode cfg (rejectStatus r)) := by
  rw [stepWith_of_turn_engine hturn, engineStep_decoding cfg (s := { s with host := q }) hrun]
  exact tokenStep_reject cfg hfetch

/-- Settles O19: the bytes after the tag, or those after the literal-length escape, hold no end of the escape that is
read from them, so the fetch is rejected. -/
theorem unterminatedEscapeIsReadError : Obligations.UnterminatedEscapeIsReadError := by
  unfold Obligations.UnterminatedEscapeIsReadError
  intro cfg s q k hturn hrun hk hkn hff hcases
  have hrest : ∀ b ∈ s.inBytes k (s.dec.inLen - k), b = 0xFF#8 := by
    rw [State.inBytes_eq_replicate fun j hj hj' => hff j hj (by omega)]
    exact fun b => List.eq_of_mem_replicate
  have hfetch : s.fetchToken = .reject .escapeUnterminated := by
    rw [State.fetchToken_of_tag_fits (hk.trans hkn)]
    refine decodeFields_escapeUnterminated ?_
    rcases hcases with ⟨hlit, rfl⟩ | ⟨hlit, hrep, rfl⟩ | ⟨hlit, hrep, hlt, hend, hmid⟩
    · exact .inl (fieldValue_eq_none.2 ⟨hlit, hrest⟩)
    · exact .inr ⟨_, if_neg hlit, fieldValue_eq_none.2 ⟨hrep, hrest⟩⟩
    · obtain ⟨lit, hread, hleft⟩ := State.fieldValue_inBytes_ended hlt hend hmid hkn
      exact .inr ⟨lit, by rw [hlit]; exact hread, fieldValue_eq_none.2 ⟨hrep, hleft ▸ hrest⟩⟩
  exact ⟨_, stepWith_of_fetchToken_reject hturn hrun hfetch, rfl, rfl, rfl, rfl, rfl, rfl,
    sameOutside_failDecode cfg { s with host := q } _⟩

end Sys2Proof.Machine
end

section
/-! PROOF. The states of the encoder (42_encoder), each by what it reads, writes and leaves: INIT (R161), PROBE (R163 to
R166), MATCH (R167 to R170), EMIT (R171, R172), ADVANCE (R173), TAIL (R174) and DONE (R175). -/

namespace Sys2Proof.Machine

/-! ### What the encoder's writes leave -/

theorem sameOutside_withSlot {s t : State} {k : SlotIx} {v : Nat} (hm : t.mem = s.withSlot k v) :
    sameOutside s.scratchRegion s t := fun _ ha => hm ▸ read_withSlot_outside_scratch s k v ha

theorem sameOutside_withOutBytes {s t : State} {i : Nat} {bs : List Byte} (hm : t.mem = s.withOutBytes i bs) :
    sameOutside (s.outPart i bs.length) s t := by
  intro a ha
  rw [hm]
  refine Memory.read_writeBytes_outside _ _ ?_
  simp only [State.outPart, Bool.and_eq_false_iff, decide_eq_false_iff_not] at ha
  omega

/-- Bytes stored read back. -/
theorem Memory.readBytes_writeBytes_self (m : Memory) (a : Nat) (bs : List Byte) :
    (m.writeBytes a bs).readBytes a bs.length = bs := by
  refine List.ext_getElem (by simp) fun i h1 h2 => ?_
  rw [Memory.getElem_readBytes, Memory.read_writeBytes, dif_pos (by omega)]
  simp only [Nat.add_sub_cancel_left]

/-- STATE shares no address with IN or OUT (R51). -/
theorem not_scratch_of_covers {cfg : Config} {s : State} (hreg : s.encodeRegionsOk cfg = true) {a : Nat}
    (ha : s.inRegion.covers a = true ∨ s.outRegion.covers a = true) : s.scratchRegion.covers a = false := by
  refine Bool.eq_false_iff.2 fun hs => ?_
  obtain ⟨hin, hout⟩ := (regions_of_encodeRegionsOk hreg).2 a hs
  rcases ha with ha | ha
  · exact absurd ha (by simp [hin])
  · exact absurd ha (by simp [hout])

theorem covers_outAddr {s : State} {j : Nat} (hj : j < s.desc.outCap.toNat) :
    s.outRegion.covers (s.outAddr j) = true := by
  simp only [State.outRegion, State.outAddr, Bool.and_eq_true, decide_eq_true_eq]
  omega

theorem covers_inAddr {s : State} {j : Nat} (hj : j < s.desc.inLen.toNat) :
    s.inRegion.covers (s.inAddr j) = true := by
  simp only [State.inRegion, State.inAddr, Bool.and_eq_true, decide_eq_true_eq]
  omega

section
variable {cfg : Config} {s t : State} (hreg : s.encodeRegionsOk cfg = true) (hd : t.desc = s.desc)
include hreg hd

/-- Where only STATE changes, IN and OUT stay. -/
theorem inByte_of_sameOutside_scratch (h : sameOutside s.scratchRegion s t) {j : Nat}
    (hj : j < s.desc.inLen.toNat) : t.inByte j = s.inByte j :=
  inByte_congr hd (fun a ha => h a (not_scratch_of_covers hreg (.inl ha))) hj

theorem outByte_of_sameOutside_scratch (h : sameOutside s.scratchRegion s t) {j : Nat}
    (hj : j < s.desc.outCap.toNat) : t.outByte j = s.outByte j := by
  simp only [State.outByte, State.outAddr, hd]
  exact h _ (not_scratch_of_covers hreg (.inr (covers_outAddr hj)))

end

/-! ### INIT (R161) -/

theorem encodeWith_begins {cfg : Config} {s : State} (hargs : s.encodeArgsBad = false)
    (hreg : s.encodeRegionsOk cfg = true) : encodeWith cfg s = .next (encInit s) := by
  simp only [encodeWith, hargs, hreg, Bool.false_eq_true, if_false, if_true]

/-- INIT writes STATE and `OUT[0]` only. -/
theorem sameOutside2_encInit (s : State) : sameOutside2 s.scratchRegion (s.outPart 0 1) s (encInit s) := by
  intro a hs ho
  simp only [State.scratchRegion, State.outPart, Bool.and_eq_false_iff, decide_eq_false_iff_not] at hs ho
  exact (Memory.read_write_ne _ _ (by omega)).trans ((Memory.read_clear ..).trans (if_neg (by omega)))

theorem slot_encInit {cfg : Config} {s : State} (hreg : s.encodeRegionsOk cfg = true) (hout : 1 ≤ s.desc.outCap.toNat)
    (k : SlotIx) : (encInit s).slot k = 0 :=
  Nat.lt_one_iff.1 (tableBelow_one_of_zero (s := encInit s) (fun _ ha => read_encInit_scratch hreg hout ha) k)

theorem outByte_zero_encInit (s : State) : (encInit s).outByte 0 = 0x00#8 := Memory.read_write_self ..

theorem inByte_encInit {cfg : Config} {s : State} (hreg : s.encodeRegionsOk cfg = true)
    (hout : 1 ≤ s.desc.outCap.toNat) {j : Nat} (hj : j < s.desc.inLen.toNat) :
    (encInit s).inByte j = s.inByte j := by
  refine inByte_congr (s := s) (t := encInit s) rfl (fun a ha => sameOutside2_encInit s a ?_ ?_) hj
  · exact not_scratch_of_covers hreg (.inl ha)
  · have hapart := (regions_of_decodeRegionsOk (decodeRegionsOk_of_encodeRegionsOk hreg)).2.2 a ha
    have := outAddr_outside (i := 0) (n := 1) hapart (by omega)
    simp only [State.outPart, Bool.and_eq_false_iff, decide_eq_false_iff_not]
    omega

/-- INIT establishes the ranges of the encoder's registers (R26, R160, R244). -/
theorem encoderBase_encInit {cfg : Config} {s : State} (hargs : s.encodeArgsBad = false)
    (hreg : s.encodeRegionsOk cfg = true) : (encInit s).encoderBase cfg := by
  obtain ⟨hpos, hmax, hgain⟩ := encodeArgs_ranges hargs
  obtain ⟨hlim1, hlim⟩ := effectiveLimit_range (soft := s.desc.softLimit.toNat) hpos
    (show 1 ≤ s.desc.outCap.toNat by omega)
  exact ⟨rfl, hpos, hmax, hgain, rfl, le_rfl, hlim1, hlim, Nat.zero_le _, fun h => absurd rfl h, hreg⟩

/-- Settles O34: the checks passed, ENCODE's step is INIT. -/
theorem encodePerformsInit : Obligations.EncodePerformsInit := by
  unfold Obligations.EncodePerformsInit
  intro s hargs hreg
  obtain ⟨hpos, -, hgain⟩ := encodeArgs_ranges hargs
  have hout : 1 ≤ s.desc.outCap.toNat := by omega
  have hlimit : effectiveLimit s.desc.inLen.toNat s.desc.outCap.toNat s.desc.softLimit.toNat =
      (if s.desc.softLimit = 0 then min s.desc.inLen.toNat s.desc.outCap.toNat
        else min s.desc.softLimit.toNat s.desc.outCap.toNat) := by
    simp only [effectiveLimit, BitVec.toNat_eq]
    rfl
  exact ⟨encInit s, (exec_eq _ s).trans (encodeWith_begins hargs hreg), rfl, rfl, hlimit,
    (effectiveLimit_range hpos hout).1, rfl, slot_encInit hreg hout, outByte_zero_encInit s,
    fun _ => inByte_encInit hreg hout, sameOutside2_encInit s, ⟨rfl, rfl, rfl, rfl⟩, rfl, rfl, rfl,
    encoderBase_encInit hargs hreg⟩

/-! ### PROBE (R163 to R166) -/

/-- The hash of a window of 4 bytes is that of the value `Read4` gives (R115, R118). -/
theorem hashAt_of_window_four {cfg : Config} (h : cfg.hashWindow = 4) (s : State) (i : Nat) :
    s.hashAt cfg i = cfg.hash (s.read4 i).toNat := by
  have hlt : s.mem.readLE (s.inAddr i) 4 < 2 ^ 32 := by
    simpa [Memory.readLE] using leValue_lt (s.mem.readBytes (s.inAddr i) 4)
  rw [State.hashAt, h, State.read4, BitVec.toNat_ofNat, Nat.mod_eq_of_lt hlt]

/-- Windows depend on their four bytes only (R115). -/
theorem equal4_of_inByte_eq {s : State} {a b : Nat} (h : ∀ i < 4, s.inByte (a + i) = s.inByte (b + i)) :
    s.equal4 a b = true := by
  refine decide_eq_true (congrArg (BitVec.ofNat 32) (congrArg leValue (Memory.readBytes_congr fun i hi => ?_)))
  simpa only [State.inByte, State.inAddr, Nat.add_assoc] using h i hi

/-- R117 by bytes. -/
theorem equal4_iff {s : State} {a b : Nat} :
    s.equal4 a b = true ↔ ∀ i < 4, s.inByte (a + i) = s.inByte (b + i) :=
  ⟨fun h _ => inByte_eq_of_equal4 h, equal4_of_inByte_eq⟩

/-- The probe writes STATE only, so its windows are those of IN as it was. -/
theorem equal4_encProbe {cfg : Config} {s : State} (hreg : s.encodeRegionsOk cfg = true) {a b : Nat}
    (ha : a + 4 ≤ s.desc.inLen.toNat) (hb : b + 4 ≤ s.desc.inLen.toNat) :
    (encProbe cfg s).equal4 a b = s.equal4 a b :=
  have hframe : sameOutside s.scratchRegion s (encProbe cfg s) := sameOutside_withSlot rfl
  equal4_congr (s := s) (t := encProbe cfg s) rfl (fun x hx => hframe x (not_scratch_of_covers hreg (.inl hx))) ha hb

theorem encProbeState_tail {cfg : Config} {s : State} (h : s.enc.inLen < s.enc.p + Config.nearEnd) :
    encProbeState cfg s = { s with run := .encoding .tail } := if_pos h

/-- A probe whose candidate is earlier and whose window agrees goes to MATCH (R165). -/
theorem encProbeState_match {cfg : Config} {s : State} (h : s.enc.p + Config.nearEnd ≤ s.enc.inLen)
    (hq : (encProbe cfg s).enc.q < s.enc.p)
    (h4 : (encProbe cfg s).equal4 (encProbe cfg s).enc.q s.enc.p = true) :
    encProbeState cfg s = { encProbe cfg s with run := .encoding .matching } :=
  (if_neg (Nat.not_lt.2 h)).trans (if_pos ⟨hq, h4⟩)

/-- Any other probe moves on by the stride (R166). -/
theorem encProbeState_next {cfg : Config} {s : State} (h : s.enc.p + Config.nearEnd ≤ s.enc.inLen)
    (h4 : ¬ ((encProbe cfg s).enc.q < s.enc.p ∧
      (encProbe cfg s).equal4 (encProbe cfg s).enc.q s.enc.p = true)) :
    encProbeState cfg s = { encProbe cfg s with
      enc := { (encProbe cfg s).enc with p := s.enc.p + cfg.stride s.enc.step, step := s.enc.step + 1 } } :=
  (if_neg (Nat.not_lt.2 h)).trans (if_neg h4)

/-- Settles O39: near the end PROBE touches nothing; else the probe writes one slot, so the windows it compares are
those of IN as it was, and they decide where it goes. -/
theorem probeFollowsItsRules : Obligations.ProbeFollowsItsRules := by
  unfold Obligations.ProbeFollowsItsRules
  intro cfg s hbase hat hrun
  refine ⟨encProbeState_tail, fun hend => ?_⟩
  obtain ⟨-, -, -, htab⟩ := hat
  obtain ⟨hlen, -, hmax, -, -, -, -⟩ := encoderBase_ranges hbase
  have hreg := (encoderBase_regions hbase).1
  simp only [Config.blockMax] at hmax
  have hq : (encProbe cfg s).enc.q < s.enc.p := (htab _).trans_le (Nat.min_le_left ..)
  have hslot := slot_withSlot (s := s) (t := encProbe cfg s) (k := s.hashAt cfg s.enc.p) (v := s.enc.p) rfl rfl
  have hself : (encProbe cfg s).slot (s.hashAt cfg s.enc.p) = s.enc.p := by
    rw [hslot, if_pos rfl, Nat.mod_eq_of_lt (by omega)]
  have hother : ∀ k, k ≠ s.hashAt cfg s.enc.p → (encProbe cfg s).slot k = s.slot k := fun k hk => by
    rw [hslot, if_neg hk]
  have hframe : sameOutside s.scratchRegion s (encProbe cfg s) := sameOutside_withSlot rfl
  have hwindow : (encProbe cfg s).equal4 (encProbe cfg s).enc.q s.enc.p = true ↔
      ∀ j < 4, s.inByte ((encProbe cfg s).enc.q + j) = s.inByte (s.enc.p + j) := by
    rw [equal4_encProbe hreg (by omega) (by omega), equal4_iff]
  simp only [encoderStep]
  by_cases h4 : (encProbe cfg s).equal4 (encProbe cfg s).enc.q s.enc.p = true
  · rw [encProbeState_match hend hq h4]
    exact ⟨rfl, rfl, fun hw => hashAt_of_window_four hw s _, rfl, rfl, hself, hother, hq, hframe, ⟨rfl, rfl, rfl, rfl⟩,
      fun _ => ⟨rfl, rfl, rfl⟩, fun ⟨j, hj, hne⟩ => absurd (hwindow.1 h4 j hj) hne, rfl, rfl, rfl⟩
  · rw [encProbeState_next hend fun h => h4 h.2]
    exact ⟨rfl, rfl, fun hw => hashAt_of_window_four hw s _, rfl, rfl, hself, hother, hq, hframe, ⟨rfl, rfl, rfl, rfl⟩,
      fun h => absurd (hwindow.2 h) h4, fun _ => ⟨hrun, rfl, rfl⟩, rfl, rfl, rfl⟩

/-! ### MATCH (R167 to R170) -/

/-- R120: `k` is how far the match extends backward: as far as the literal run, the start of the block and equal bytes
allow. -/
theorem extendBackward_spec (s : State) {nr0 p q : Nat} (hq : q ≤ p) :
    s.extendBackward nr0 p q ≤ p - nr0 ∧ s.extendBackward nr0 p q ≤ q ∧
    (∀ j, 1 ≤ j → j ≤ s.extendBackward nr0 p q → s.inByte (p - j) = s.inByte (q - j)) ∧
    (s.extendBackward nr0 p q = p - nr0 ∨ s.extendBackward nr0 p q = q ∨
      s.inByte (p - (s.extendBackward nr0 p q + 1)) ≠ s.inByte (q - (s.extendBackward nr0 p q + 1))) := by
  obtain ⟨hnr, hq'⟩ := extendBackward_le s nr0 hq
  obtain ⟨-, hagree, hstop⟩ := agreeBelow_spec s (a := p) (c := q) (n := min (p - nr0) q) (by omega) (by omega)
  refine ⟨hnr, hq', hagree, ?_⟩
  rcases hstop with hall | hne
  · have : s.extendBackward nr0 p q = min (p - nr0) q := hall
    omega
  · exact .inr (.inr hne)

/-- Settles O40: the backward extension stays above the literals, the forward one below the end of the input. -/
theorem matchExtendsBothWays : Obligations.MatchExtendsBothWays := by
  unfold Obligations.MatchExtendsBothWays
  intro cfg s hbase hat _
  obtain ⟨-, hend, hnr, hq, -, -⟩ := hat
  obtain ⟨-, -, hmax, -, -, -, -⟩ := encoderBase_ranges hbase
  simp only [Config.nearEnd, Config.blockMax] at hend hmax
  obtain ⟨hknr, hkq, hback, hbstop⟩ := extendBackward_spec s (nr0 := s.enc.nr0) hq.le
  have hforw : IsExtension s (s.enc.p - s.enc.q) (s.enc.p + 4) s.enc.inLen (encMatch s).enc.e :=
    isExtension_extendForward s _ (by omega)
  have hs : (encMatch s).enc.s = s.enc.p - s.extendBackward s.enc.nr0 s.enc.p s.enc.q := rfl
  have hk : s.enc.p - (encMatch s).enc.s = s.extendBackward s.enc.nr0 s.enc.p s.enc.q := by omega
  have hrep : (encMatch s).enc.repLen = (encMatch s).enc.e - (encMatch s).enc.s := rfl
  have hlo := hforw.start_le
  have hhi := hforw.le_end
  simp only [encoderStep, hk]
  refine ⟨rfl, rfl, Nat.sub_pos_of_lt hq, (Nat.sub_le ..).trans (by omega), by omega, by omega, by omega, hkq, hback,
    ?_, hlo, hhi, hforw.agrees, hforw.stops, rfl, hrep, by omega, by omega, rfl, ⟨rfl, rfl, rfl, rfl⟩, rfl, rfl, rfl,
    rfl⟩
  exact hbstop.imp (fun h => by omega) id

/-! ### EMIT (R171, R172) -/

theorem encEmit_givesUp {s : State}
    (h : s.enc.limit < s.enc.o + tokenCost s.enc.litLen (s.enc.repLen - Config.repeatMin)) :
    encEmit s = s.giveUpEncode := if_pos h

/-- The state after EMIT has written the match's token (R172). -/
def State.emitDone (s : State) : State :=
  { s with
    run := .encoding .advance,
    mem := s.withOutBytes s.enc.o (encodeToken (matchToken s.enc) (s.inBytes s.enc.nr0 s.enc.litLen)),
    enc := { s.enc with o := s.enc.o + tokenCost s.enc.litLen (s.enc.repLen - Config.repeatMin) } }

theorem encEmit_eq_emitDone {s : State}
    (h : s.enc.o + tokenCost s.enc.litLen (s.enc.repLen - Config.repeatMin) ≤ s.enc.limit) :
    encEmit s = s.emitDone := if_neg (Nat.not_lt.2 h)

/-- The token's bytes are as many as the cost EMIT tests (R146, R172). -/
theorem length_emitToken (s : State) :
    (encodeToken (matchToken s.enc) (s.inBytes s.enc.nr0 s.enc.litLen)).length =
      tokenCost s.enc.litLen (s.enc.repLen - Config.repeatMin) :=
  length_matchToken s.enc (Memory.length_readBytes ..)

/-- The token of a match by the rule of R90. -/
theorem matchToken_eq_tokenOf {e : Enc} (h : 1 ≤ e.off) : matchToken e = tokenOf e.off e.litLen e.repLen := by
  simp only [matchToken, tokenOf, Nat.ne_of_gt h, if_false]

/-- Settles O41: the limit test decides; the token written is the one tested. -/
theorem emitWritesTheToken : Obligations.EmitWritesTheToken := by
  unfold Obligations.EmitWritesTheToken
  intro cfg s _ hat _
  obtain ⟨-, hoff, -, hoffm, -, hsp, hpe, -, -, hrep, -, -⟩ := hat
  refine ⟨fun hover => ?_, fun hfits => ?_⟩
  · rw [encoderStep, encEmit_givesUp hover]
    exact ⟨rfl, rfl, rfl, ⟨rfl, rfl, rfl, rfl⟩, sameOutside2_giveUpEncode s⟩
  · have hwf : WellFormed (matchToken s.enc) = true := by
      rw [matchToken_eq_tokenOf hoff]
      exact (wellFormed_token_iff.2 ⟨_, _, _, hoffm, by simp only [Config.repeatMin]; omega, rfl⟩).2
    have hframe : sameOutside (s.outPart s.enc.o _) s s.emitDone := sameOutside_withOutBytes rfl
    have hbytes : s.emitDone.mem.readBytes _ _ = _ := Memory.readBytes_writeBytes_self ..
    rw [length_emitToken] at hframe hbytes
    rw [encoderStep, encEmit_eq_emitDone hfits]
    exact ⟨rfl, rfl, hwf, hbytes, hframe, ⟨rfl, rfl, rfl, rfl⟩, rfl, rfl, rfl⟩

/-! ### ADVANCE (R173) -/

/-- ADVANCE inserts the match's last position, or leaves memory alone. -/
theorem encAdvance_mem (cfg : Config) (s : State) :
    (s.enc.e + Config.nearEnd ≤ s.enc.inLen ∧
      (encAdvance cfg s).mem = s.withSlot (s.hashAt cfg (s.enc.e - 1)) (s.enc.e - 1)) ∨
    (s.enc.inLen < s.enc.e + Config.nearEnd ∧ (encAdvance cfg s).mem = s.mem) := by
  by_cases h : s.enc.e + Config.nearEnd ≤ s.enc.inLen
  · exact .inl ⟨h, if_pos h⟩
  · exact .inr ⟨Nat.lt_of_not_le h, if_neg h⟩

theorem sameOutside_encAdvance (cfg : Config) (s : State) : sameOutside s.scratchRegion s (encAdvance cfg s) := by
  rcases encAdvance_mem cfg s with ⟨-, hm⟩ | ⟨-, hm⟩
  · exact sameOutside_withSlot hm
  · exact fun _ _ => by rw [hm]

/-- Settles O42: the two cases of the insertion. -/
theorem advanceInsertsTheMatchEnd : Obligations.AdvanceInsertsTheMatchEnd := by
  unfold Obligations.AdvanceInsertsTheMatchEnd
  intro cfg s hbase _ _
  obtain ⟨-, -, hmax, -, -, -, -⟩ := encoderBase_ranges hbase
  simp only [Config.blockMax] at hmax
  refine ⟨rfl, rfl, fun hins => ?_, fun hw => hashAt_of_window_four hw s _, fun hend => ?_,
    sameOutside_encAdvance cfg s, ⟨rfl, rfl, rfl, rfl⟩, rfl, rfl, rfl⟩
  · have hslot := slot_withSlot (s := s) (t := encAdvance cfg s) rfl (if_pos hins)
    exact ⟨(hslot _).trans ((if_pos rfl).trans (Nat.mod_eq_of_lt (by omega))), fun k hk => (hslot k).trans (if_neg hk)⟩
  · exact if_neg (Nat.not_le.2 hend)

/-! ### TAIL and DONE (R174, R175) -/

/-- With no host move pending, a step of a running ENCODE is its state's transition (R177). -/
theorem stepWith_encoding (cfg : Config) {s : State} {st : EncState} (hh : s.host = []) (hr : s.run = .encoding st) :
    stepWith cfg s = .next (encoderStep cfg st s) := by
  rw [stepWith_busy cfg hh (by simp [hr])]
  simp only [engineStep, hr]

theorem encTail_givesUp {s : State} (h : s.enc.limit < s.enc.o + tokenCost (s.enc.inLen - s.enc.nr0) 0) :
    encTail s = s.giveUpEncode := if_pos h

/-- The state after TAIL has written the EOB token (R174). -/
def State.tailDone (s : State) : State :=
  { s with
    run := .encoding .done,
    mem := s.withOutBytes s.enc.o (encodeToken (.eob (s.enc.inLen - s.enc.nr0) Config.repeatMin)
      (s.inBytes s.enc.nr0 (s.enc.inLen - s.enc.nr0))),
    enc := { s.enc with o := s.enc.o + tokenCost (s.enc.inLen - s.enc.nr0) 0, litLen := s.enc.inLen - s.enc.nr0 } }

theorem encTail_eq_tailDone {s : State} (h : s.enc.o + tokenCost (s.enc.inLen - s.enc.nr0) 0 ≤ s.enc.limit) :
    encTail s = s.tailDone := if_neg (Nat.not_lt.2 h)

theorem length_tailToken (s : State) :
    (encodeToken (.eob (s.enc.inLen - s.enc.nr0) Config.repeatMin)
      (s.inBytes s.enc.nr0 (s.enc.inLen - s.enc.nr0))).length = tokenCost (s.enc.inLen - s.enc.nr0) 0 :=
  length_eobToken (Memory.length_readBytes ..)

theorem encDone_givesUp {s : State} (h : s.enc.o = Config.patternBytes) : encDone s = s.giveUpEncode := if_pos h

theorem encDone_returns {s : State} (h : s.enc.o ≠ Config.patternBytes) : encDone s = s.finishEncode s.enc.o :=
  if_neg h

/-- The block returned stays in OUT (R175, R176). -/
theorem outByte_finishEncode {cfg : Config} {s : State} (hreg : s.encodeRegionsOk cfg = true) {k j : Nat}
    (hk : k ≤ s.desc.outCap.toNat) (hj : j < k) : (s.finishEncode k).outByte j = s.outByte j := by
  have hscratch : (s.scrambleOut k).scratchRegion.covers (s.outAddr j) ≠ true :=
    Bool.eq_false_iff.1 (not_scratch_of_covers (s := s) hreg (.inr (covers_outAddr (hj.trans_le hk))))
  have hread : (s.finishEncode k).outByte j = (s.scrambleOut k).outByte j :=
    (State.read_scrambleScratch (s.scrambleOut k) (s.outAddr j)).trans (if_neg hscratch)
  exact hread.trans (State.outByte_scrambleOut_below s hj)

/-- Settles O43: TAIL by its limit test, DONE by the length of the block. -/
theorem tailAndDoneEndTheBlock : Obligations.TailAndDoneEndTheBlock := by
  unfold Obligations.TailAndDoneEndTheBlock
  intro cfg s hbase
  obtain ⟨-, -, -, holim, hlcap, -, -⟩ := encoderBase_ranges hbase
  have hreg := (encoderBase_regions hbase).1
  let s' : State := { s with host := [] }
  have hstep : ∀ st, s.run = .encoding st → stepWith cfg s' = .next (encoderStep cfg st s') := fun st hr =>
    stepWith_encoding cfg (s := s') rfl hr
  refine ⟨fun hr hover => ⟨_, hstep _ hr, ?_⟩, fun hr hfits => ⟨_, hstep _ hr, ?_⟩, fun hr h8 => ⟨_, hstep _ hr, ?_⟩,
    fun hr h8 => ⟨_, hstep _ hr, ?_⟩⟩
  · rw [encoderStep, encTail_givesUp (s := s') hover]
    exact ⟨rfl, rfl, sameOutside2_giveUpEncode s'⟩
  · have hframe : sameOutside (s.outPart s.enc.o _) s s'.tailDone := sameOutside_withOutBytes rfl
    have hbytes : s'.tailDone.mem.readBytes _ _ = _ := Memory.readBytes_writeBytes_self ..
    rw [length_tailToken] at hframe hbytes
    rw [encoderStep, encTail_eq_tailDone (s := s') hfits]
    exact ⟨rfl, rfl, rfl, rfl, hbytes, hframe⟩
  · rw [encoderStep, encDone_givesUp (s := s') h8]
    exact ⟨rfl, rfl⟩
  · rw [encoderStep, encDone_returns (s := s') h8]
    exact ⟨rfl, toInt_countWord, fun _ => outByte_finishEncode (s := s') hreg (holim.trans hlcap),
      sameOutside2_finishEncode s' _⟩

end Sys2Proof.Machine
end

section
/-! PROOF. The blocks ENCODE builds, by the tokens they are made of (R83, R160, R178), and that every state of a running
ENCODE holds the block so far in OUT. -/

namespace Sys2Proof.Machine

/-! ### Blocks -/

/-- `inp[i .. i+n-1]`. -/
def bytesOf (inp : Nat → Byte) (i n : Nat) : List Byte := (List.range' i n).map inp

@[simp] theorem length_bytesOf (inp : Nat → Byte) (i n : Nat) : (bytesOf inp i n).length = n := by simp [bytesOf]

theorem getElem_bytesOf (inp : Nat → Byte) {i n k : Nat} (h : k < (bytesOf inp i n).length) :
    (bytesOf inp i n)[k] = inp (i + k) := by simp [bytesOf]

/-- The bytes read from IN are those of the input. -/
theorem inBytes_eq_bytesOf {s : State} {inp : Nat → Byte} {i n : Nat} (h : ∀ j, j < i + n → s.inByte j = inp j) :
    s.inBytes i n = bytesOf inp i n := by
  refine List.ext_getElem (by simp [State.inBytes]) fun k h1 h2 => ?_
  have hk : k < n := by simpa using h2
  rw [getElem_bytesOf, ← h (i + k) (by omega), State.inByte, State.inAddr]
  simp only [State.inBytes, Memory.getElem_readBytes, State.inAddr, Nat.add_assoc]

/-- A header byte and tokens that stand for `inp[0 .. n-1]`: each token appends its literals and a part that repeats at
its offset (R83, R178(d)). -/
inductive BlockPrefix (inp : Nat → Byte) : List Byte → Nat → Prop
  | header : BlockPrefix inp [0x00#8] 0
  | token {bs : List Byte} {n off s e : Nat} (h : BlockPrefix inp bs n) (hs : n ≤ s) (hoff : 1 ≤ off) (hoffs : off ≤ s)
      (hmax : off ≤ Config.offMax) (he : s + Config.repeatMin ≤ e)
      (hrep : ∀ j, s ≤ j → j < e → inp j = inp (j - off)) :
      BlockPrefix inp (bs ++ encodeToken (tokenOf off (s - n) (e - s)) (bytesOf inp n (s - n))) e

/-- A whole block for `inp[0 .. inLen-1]`: the beginning of one, and an EOB with the last literals (R83, R174). -/
def IsBlock (inp : Nat → Byte) (inLen : Nat) (block : List Byte) : Prop :=
  ∃ bs n, BlockPrefix inp bs n ∧ n ≤ inLen ∧
    block = bs ++ encodeToken (.eob (inLen - n) Config.repeatMin) (bytesOf inp n (inLen - n))

theorem escapeCost_le (v : Nat) : escapeCost v ≤ v := by
  by_cases h : v < Config.nrMax
  · rw [escapeCost_of_lt h]
    exact Nat.zero_le v
  · rw [escapeCost, if_neg h, sizeBytesCount]
    simp only [Config.nrMax, Config.byteMax] at h ⊢
    omega

theorem tokenCost_le (litLen v : Nat) : tokenCost litLen v ≤ 3 + 2 * litLen + v := by
  have := escapeCost_le litLen
  have := escapeCost_le v
  unfold tokenCost
  omega

theorem length_encodeToken_tokenOf {off litLen repLen : Nat} {lit : List Byte} (h : lit.length = litLen) :
    (encodeToken (tokenOf off litLen repLen) lit).length = tokenCost litLen (repLen - Config.repeatMin) := by
  rw [encodeToken, encode_tokenOf, List.length_append, length_encodeFields, h, tokenCost]

/-- A token takes at most two bytes for each byte it stands for. -/
theorem BlockPrefix.length_le {inp : Nat → Byte} {bs : List Byte} {n : Nat} (h : BlockPrefix inp bs n) :
    bs.length ≤ 1 + 2 * n := by
  induction h with
  | header => simp
  | @token bs n off s e _ hs _ _ _ he _ ih =>
    have := tokenCost_le (s - n) (e - s - Config.repeatMin)
    simp only [Config.repeatMin] at he this
    rw [List.length_append, length_encodeToken_tokenOf (length_bytesOf ..), Config.repeatMin]
    omega

theorem IsBlock.length_le {inp : Nat → Byte} {inLen : Nat} {block : List Byte} (h : IsBlock inp inLen block) :
    block.length ≤ 4 + 2 * inLen := by
  obtain ⟨bs, n, hpre, hn, rfl⟩ := h
  have := hpre.length_le
  have := tokenCost_le (inLen - n) 0
  rw [List.length_append, length_eobToken (length_bytesOf ..)]
  omega

/-- Every block begins with the header byte `00` (R81). -/
theorem BlockPrefix.head {inp : Nat → Byte} {bs : List Byte} {n : Nat} (h : BlockPrefix inp bs n) :
    ∃ tl, bs = 0x00#8 :: tl := by
  induction h with
  | header => exact ⟨[], rfl⟩
  | token _ _ _ _ _ _ _ ih =>
    obtain ⟨tl, rfl⟩ := ih
    exact ⟨_, List.cons_append⟩

theorem IsBlock.head {inp : Nat → Byte} {inLen : Nat} {block : List Byte} (h : IsBlock inp inLen block) :
    ∃ tl, block = 0x00#8 :: tl := by
  obtain ⟨bs, n, hpre, -, rfl⟩ := h
  obtain ⟨tl, rfl⟩ := hpre.head
  exact ⟨_, List.cons_append⟩

/-! ### The bytes of OUT -/

theorem Memory.readBytes_add (m : Memory) (a k n : Nat) :
    m.readBytes a (k + n) = m.readBytes a k ++ m.readBytes (a + k) n := by
  induction k generalizing a with
  | zero => simp [Memory.readBytes]
  | succ k ih =>
    rw [Nat.add_right_comm, Memory.readBytes, Memory.readBytes, ih, List.cons_append, Nat.add_assoc, Nat.add_comm 1 k]

/-- `OUT[0 .. n-1]`. -/
def State.outBytes (s : State) (n : Nat) : List Byte := s.mem.readBytes (s.outAddr 0) n

@[simp] theorem State.length_outBytes (s : State) (n : Nat) : (s.outBytes n).length = n := by simp [State.outBytes]

theorem State.getElem_outBytes (s : State) {n k : Nat} (h : k < (s.outBytes n).length) :
    (s.outBytes n)[k] = s.outByte k := by
  simp only [State.outBytes, Memory.getElem_readBytes, State.outByte, State.outAddr, Nat.add_zero]

theorem State.outBytes_congr {s t : State} {n : Nat} (h : ∀ j < n, t.outByte j = s.outByte j) :
    t.outBytes n = s.outBytes n := by
  refine List.ext_getElem (by simp) fun k h1 h2 => ?_
  rw [State.getElem_outBytes, State.getElem_outBytes]
  exact h k (by simpa using h1)

/-- The length of a block in OUT fits `RESULT` (R24). -/
theorem IsBlock.lt_of_outBytes {inp : Nat → Byte} {u : State} {inLen n : Nat} (h : IsBlock inp inLen (u.outBytes n))
    (hmax : inLen ≤ Config.blockMax) : n < 2 ^ 31 := by
  have := h.length_le
  rw [State.length_outBytes] at this
  simp only [Config.blockMax] at hmax
  omega

theorem IsBlock.outByte_zero {inp : Nat → Byte} {u : State} {inLen n : Nat} (h : IsBlock inp inLen (u.outBytes n)) :
    u.outByte 0 = 0x00#8 := by
  obtain ⟨tl, htl⟩ := h.head
  have hpos : 0 < (u.outBytes n).length := by simp [htl]
  rw [← State.getElem_outBytes u hpos]
  simp only [htl, List.getElem_cons_zero]

/-- A byte of OUT after bytes are stored from `OUT[i]` on. -/
theorem outByte_withOutBytes {s t : State} {i : Nat} {bs : List Byte} (hd : t.desc = s.desc)
    (hm : t.mem = s.withOutBytes i bs) (j : Nat) :
    t.outByte j = if h : i ≤ j ∧ j < i + bs.length then bs[j - i]'(by omega) else s.outByte j := by
  simp only [State.outByte, State.outAddr, hd, hm, State.withOutBytes, Memory.read_writeBytes]
  have hiff : (s.desc.outBase + i ≤ s.desc.outBase + j ∧ s.desc.outBase + j < s.desc.outBase + i + bs.length) ↔
      (i ≤ j ∧ j < i + bs.length) := by omega
  simp only [hiff, Nat.add_sub_add_left]

/-- Bytes stored after the first `n` are appended to them. -/
theorem outBytes_withOutBytes {s t : State} {n : Nat} {bs : List Byte} (hd : t.desc = s.desc)
    (hm : t.mem = s.withOutBytes n bs) : t.outBytes (n + bs.length) = s.outBytes n ++ bs := by
  refine List.ext_getElem (by simp) fun k h1 h2 => ?_
  rw [State.getElem_outBytes, outByte_withOutBytes hd hm, List.getElem_append]
  have hk : k < n + bs.length := by simpa using h1
  by_cases hn : k < n
  · rw [dif_neg (by omega), dif_pos (by simpa using hn), State.getElem_outBytes]
  · rw [dif_pos ⟨by omega, hk⟩, dif_neg (by simpa using hn)]
    simp only [State.length_outBytes]

/-- EMIT appends the match's token to the block (R172). -/
theorem outBytes_emitDone (s : State) : s.emitDone.outBytes s.emitDone.enc.o =
    s.outBytes s.enc.o ++ encodeToken (matchToken s.enc) (s.inBytes s.enc.nr0 s.enc.litLen) := by
  have h := outBytes_withOutBytes (s := s) (t := s.emitDone) rfl rfl
  rwa [length_emitToken] at h

/-- TAIL appends the EOB to the block (R174). -/
theorem outBytes_tailDone (s : State) : s.tailDone.outBytes s.tailDone.enc.o =
    s.outBytes s.enc.o ++ encodeToken (.eob (s.enc.inLen - s.enc.nr0) Config.repeatMin)
      (s.inBytes s.enc.nr0 (s.enc.inLen - s.enc.nr0)) := by
  have h := outBytes_withOutBytes (s := s) (t := s.tailDone) rfl rfl
  rwa [length_tailToken] at h

/-! ### A running ENCODE -/

/-- ENCODE's states write OUT and STATE only (R58). -/
theorem sameOutside2_encoderStep {s : State} (hlim : s.enc.limit ≤ s.desc.outCap.toNat) (cfg : Config)
    (st : EncState) : sameOutside2 s.outRegion s.scratchRegion s (encoderStep cfg st s) := by
  rcases encoderStep_writes cfg st s with ⟨-, h⟩ | h
  · exact h
  · exact sameOutside2_outRegion hlim h

/-- So IN stays as it is. -/
theorem inByte_encoderStep {cfg : Config} {s : State} {st : EncState} (hreg : s.encodeRegionsOk cfg = true)
    (hlim : s.enc.limit ≤ s.desc.outCap.toNat) (hb : s.run ≠ .idle) {j : Nat} (hj : j < s.desc.inLen.toNat) :
    (encoderStep cfg st s).inByte j = s.inByte j := by
  obtain ⟨hdesc, -⟩ := (encoderStep_encodeStep cfg st hb).sameHostSide
  have hout := (regions_of_decodeRegionsOk (decodeRegionsOk_of_encodeRegionsOk hreg)).2.2
  exact inByte_congr hdesc (fun a ha => sameOutside2_encoderStep hlim cfg st a (hout a ha)
    (not_scratch_of_covers hreg (.inl ha))) hj

/-- What OUT holds below `o` in each state of the encoder: the block for the input below `nr0`; after EMIT for that
below the match's end; after TAIL the whole block. -/
def State.blockOk (inp : Nat → Byte) (s : State) : EncState → Prop
  | .advance => BlockPrefix inp (s.outBytes s.enc.o) s.enc.e
  | .done => IsBlock inp s.desc.inLen.toNat (s.outBytes s.enc.o)
  | .search | .probe | .matching | .emit | .tail => BlockPrefix inp (s.outBytes s.enc.o) s.enc.nr0

/-- A running ENCODE of the input `inp`, with no host move pending. -/
structure EncodeRun (cfg : Config) (inp : Nat → Byte) (st : EncState) (s : State) : Prop where
  inv : s.Inv cfg
  host : s.host = []
  run : s.run = .encoding st
  input : ∀ j < s.desc.inLen.toNat, s.inByte j = inp j
  block : s.blockOk inp st

/-- A bound on the steps ENCODE still takes: a probe moves the scan by 1 at least, a match by 4 in five steps. -/
def encFuel (e : Enc) : EncState → Nat
  | .search => 2 * (e.inLen - e.p) + 4
  | .probe => 2 * (e.inLen - e.p) + 3
  | .matching => 2 * (e.inLen - e.p) + 2
  | .emit => 2 * (e.inLen - e.p) + 1
  | .advance => 2 * (e.inLen - e.p)
  | .tail => 2
  | .done => 1

/-- How ENCODE ends: with INCOMPRESSIBLE, or with a block for the input (R175, R176). -/
inductive EncodeEnd (inp : Nat → Byte) (u : State) : Prop
  | gaveUp (hr : u.run = .idle) (h : u.result = countWord 0)
  | returned {n : Nat} (hr : u.run = .idle) (h : u.result = countWord n) (h5 : 5 ≤ n)
      (hlim : n ≤ effectiveLimit u.desc.inLen.toNat u.desc.outCap.toNat u.desc.softLimit.toNat)
      (h8 : n ≠ Config.patternBytes) (hblock : IsBlock inp u.desc.inLen.toNat (u.outBytes n))

theorem EncodeEnd.idle {inp : Nat → Byte} {u : State} (h : EncodeEnd inp u) : u.run = .idle := by
  cases h with
  | gaveUp hr => exact hr
  | returned hr => exact hr

theorem giveUpEncode_encodeEnd (inp : Nat → Byte) (s : State) : EncodeEnd inp s.giveUpEncode := .gaveUp rfl rfl

namespace EncodeRun

variable {cfg : Config} {inp : Nat → Byte} {st st' : EncState} {s : State}

theorem base (h : EncodeRun cfg inp st s) : s.encoderBase cfg := (encoder_of_runOk h.inv.2.2 h.run).1

theorem at_state (h : EncodeRun cfg inp st s) : s.encoderAt cfg st := (encoder_of_runOk h.inv.2.2 h.run).2

theorem busy (h : EncodeRun cfg inp st s) : s.run ≠ .idle := by simp [h.run]

theorem stepWith_eq (h : EncodeRun cfg inp st s) : stepWith cfg s = .next (encoderStep cfg st s) :=
  stepWith_encoding cfg h.host h.run

theorem outBytes_scratch (h : EncodeRun cfg inp st s) {t : State} (hd : t.desc = s.desc)
    (ht : sameOutside s.scratchRegion s t) : t.outBytes s.enc.o = s.outBytes s.enc.o := by
  obtain ⟨-, -, -, holim, hlcap, -, -⟩ := encoderBase_ranges h.base
  exact State.outBytes_congr fun j hj =>
    outByte_of_sameOutside_scratch (encoderBase_regions h.base).1 hd ht (by omega)

/-- What a step to another state of the encoder keeps. -/
theorem next (hlaw : cfg.Lawful) (h : EncodeRun cfg inp st s) (hr : (encoderStep cfg st s).run = .encoding st')
    (hblock : (encoderStep cfg st s).blockOk inp st') : EncodeRun cfg inp st' (encoderStep cfg st s) where
  inv := inv_encoderStep h.inv.1 h.inv.2.1 h.base hlaw h.run h.at_state
  host := (encoderStep_encodeStep cfg st h.busy).sameHostSide.2.1.trans h.host
  run := hr
  input j hj := by
    obtain ⟨hdesc, -⟩ := (encoderStep_encodeStep cfg st h.busy).sameHostSide
    obtain ⟨-, -, -, -, hlcap, -, -⟩ := encoderBase_ranges h.base
    rw [hdesc] at hj
    rw [inByte_encoderStep (encoderBase_regions h.base).1 hlcap h.busy hj]
    exact h.input j hj
  block := hblock

/-- The literals a token takes from IN. -/
theorem inBytes_literals (h : EncodeRun cfg inp st s) {i n : Nat} (hn : i + n ≤ s.enc.inLen) :
    s.inBytes i n = bytesOf inp i n := by
  obtain ⟨hlen, -⟩ := encoderBase_ranges h.base
  exact inBytes_eq_bytesOf fun j hj => h.input j (by omega)

/-- How a step of a running ENCODE goes on: in another state, nearer the end, or at the end. -/
def Goes (cfg : Config) (inp : Nat → Byte) (st : EncState) (s t : State) : Prop :=
  (∃ st', EncodeRun cfg inp st' t ∧ encFuel t.enc st' < encFuel s.enc st) ∨ EncodeEnd inp t

theorem step_search (hlaw : cfg.Lawful) (h : EncodeRun cfg inp .search s) :
    Goes cfg inp .search s (encoderStep cfg .search s) :=
  .inl ⟨.probe, h.next hlaw rfl h.block, Nat.lt_succ_self _⟩

theorem step_probe (hlaw : cfg.Lawful) (h : EncodeRun cfg inp .probe s) :
    Goes cfg inp .probe s (encoderStep cfg .probe s) := by
  have hnext {st'} := h.next (st' := st') hlaw
  simp only [encoderStep] at hnext ⊢
  have hbytes := h.outBytes_scratch (t := encProbe cfg s) rfl (sameOutside_withSlot rfl)
  have hblock : BlockPrefix inp ((encProbe cfg s).outBytes s.enc.o) s.enc.nr0 := hbytes ▸ h.block
  obtain ⟨-, -, hstep, -⟩ := h.at_state
  have hstride := hlaw.stride_pos _ hstep
  rcases encProbeState_cases cfg s with ⟨-, heq⟩ | ⟨hend, ⟨-, -, heq⟩ | heq⟩
  · rw [heq] at hnext ⊢
    exact .inl ⟨.tail, hnext rfl h.block, by simp only [encFuel]; omega⟩
  · rw [heq] at hnext ⊢
    exact .inl ⟨.matching, hnext rfl hblock, Nat.lt_succ_self _⟩
  · rw [heq] at hnext ⊢
    refine .inl ⟨.probe, hnext h.run hblock, ?_⟩
    simp only [Config.nearEnd] at hend
    simp only [encFuel, encProbe]
    omega

theorem step_matching (hlaw : cfg.Lawful) (h : EncodeRun cfg inp .matching s) :
    Goes cfg inp .matching s (encoderStep cfg .matching s) :=
  .inl ⟨.emit, h.next hlaw rfl h.block, Nat.lt_succ_self _⟩

theorem step_emit (hlaw : cfg.Lawful) (h : EncodeRun cfg inp .emit s) :
    Goes cfg inp .emit s (encoderStep cfg .emit s) := by
  by_cases hfits : s.enc.o + tokenCost s.enc.litLen (s.enc.repLen - Config.repeatMin) ≤ s.enc.limit
  · have hnext := h.next (st' := .advance) hlaw
    rw [encoderStep, encEmit_eq_emitDone hfits] at hnext ⊢
    refine .inl ⟨.advance, hnext rfl ?_, Nat.lt_succ_self _⟩
    obtain ⟨hend, hoff, hoffs, hoffm, hnr, hsp, hpe, hein, hlit, hrep, hbytes, -⟩ := h.at_state
    obtain ⟨hlen, -⟩ := encoderBase_ranges h.base
    have hinput : ∀ j, s.enc.s ≤ j → j < s.enc.e → inp j = inp (j - s.enc.off) := fun j hlo hhi => by
      rw [← h.input j (by omega), ← h.input (j - s.enc.off) (by omega)]
      exact hbytes j hhi hlo
    have htoken := BlockPrefix.token h.block hnr hoff hoffs hoffm (by simp only [Config.repeatMin]; omega) hinput
    change BlockPrefix inp _ s.enc.e
    rw [outBytes_emitDone, matchToken_eq_tokenOf hoff, h.inBytes_literals (by omega), hlit, hrep]
    exact htoken
  · rw [encoderStep, encEmit_givesUp (Nat.lt_of_not_le hfits)]
    exact .inr (giveUpEncode_encodeEnd inp s)

theorem step_advance (hlaw : cfg.Lawful) (h : EncodeRun cfg inp .advance s) :
    Goes cfg inp .advance s (encoderStep cfg .advance s) := by
  have hbytes := h.outBytes_scratch (t := encAdvance cfg s) rfl (sameOutside_encAdvance cfg s)
  obtain ⟨hend, hpe, hein, -, -⟩ := h.at_state
  simp only [Config.nearEnd] at hend
  refine .inl ⟨.search, h.next hlaw rfl ?_, ?_⟩
  · have hblock : BlockPrefix inp ((encAdvance cfg s).outBytes s.enc.o) s.enc.e := hbytes ▸ h.block
    exact hblock
  · simp only [encFuel, encoderStep, encAdvance]
    omega

theorem step_tail (hlaw : cfg.Lawful) (h : EncodeRun cfg inp .tail s) :
    Goes cfg inp .tail s (encoderStep cfg .tail s) := by
  obtain ⟨hlen, -, -, -, -, hnr, -⟩ := encoderBase_ranges h.base
  by_cases hfits : s.enc.o + tokenCost (s.enc.inLen - s.enc.nr0) 0 ≤ s.enc.limit
  · have hnext := h.next (st' := .done) hlaw
    rw [encoderStep, encTail_eq_tailDone hfits] at hnext ⊢
    refine .inl ⟨.done, hnext rfl ⟨_, s.enc.nr0, h.block, hlen ▸ hnr, ?_⟩, Nat.lt_succ_self _⟩
    rw [outBytes_tailDone, h.inBytes_literals (by omega), hlen]
    rfl
  · rw [encoderStep, encTail_givesUp (Nat.lt_of_not_le hfits)]
    exact .inr (giveUpEncode_encodeEnd inp s)

theorem step_done (h : EncodeRun cfg inp .done s) : Goes cfg inp .done s (encoderStep cfg .done s) := by
  by_cases h8 : s.enc.o = Config.patternBytes
  · rw [encoderStep, encDone_givesUp h8]
    exact .inr (giveUpEncode_encodeEnd inp s)
  · rw [encoderStep, encDone_returns h8]
    obtain ⟨-, -, -, -, hlimit, -, holim, hlcap, -⟩ := h.base
    have hbytes : (s.finishEncode s.enc.o).outBytes s.enc.o = s.outBytes s.enc.o := State.outBytes_congr fun j =>
      outByte_finishEncode (encoderBase_regions h.base).1 (holim.trans hlcap)
    exact .inr (.returned rfl rfl h.at_state (hlimit ▸ holim) h8 (hbytes ▸ h.block))

theorem step (hlaw : cfg.Lawful) (h : EncodeRun cfg inp st s) : Goes cfg inp st s (encoderStep cfg st s) := by
  cases st with
  | search => exact h.step_search hlaw
  | probe => exact h.step_probe hlaw
  | matching => exact h.step_matching hlaw
  | emit => exact h.step_emit hlaw
  | advance => exact h.step_advance hlaw
  | tail => exact h.step_tail hlaw
  | done => exact h.step_done

end EncodeRun

end Sys2Proof.Machine
end

section
/-! PROOF. ENCODE depends on its input alone (R58, R179): two engines with the same input, length and capacity run in
step, whatever else they hold and wherever their regions lie; and ENCODE runs to its end (R176, R177). -/

namespace Sys2Proof.Machine

/-! ### What reads of IN depend on -/

section
variable {c s : State} {n : Nat} (h : ∀ j < n, s.inByte j = c.inByte j)
include h

theorem readBytes_inAddr_congr {i k : Nat} (hk : i + k ≤ n) :
    s.mem.readBytes (s.inAddr i) k = c.mem.readBytes (c.inAddr i) k := by
  refine Memory.readBytes_congr fun j hj => ?_
  simpa only [State.inByte, State.inAddr, Nat.add_assoc] using h (i + j) (by omega)

theorem hashAt_congr {cfg : Config} (hlaw : cfg.Lawful) {i : Nat} (hi : i + 8 ≤ n) :
    s.hashAt cfg i = c.hashAt cfg i := by
  have hwindow := hlaw.window_le
  exact congrArg (fun bs => cfg.hash (leValue bs)) (readBytes_inAddr_congr h (by omega))

theorem equal4_eq {a b : Nat} (ha : a + 4 ≤ n) (hb : b + 4 ≤ n) : s.equal4 a b = c.equal4 a b := by
  have hread : ∀ i, i + 4 ≤ n → s.read4 i = c.read4 i := fun i hi =>
    congrArg (fun bs => BitVec.ofNat 32 (leValue bs)) (readBytes_inAddr_congr h hi)
  simp only [State.equal4, hread a ha, hread b hb]

theorem extendFrom_congr {off j k : Nat} (hj : j + k ≤ n) : s.extendFrom off j k = c.extendFrom off j k := by
  induction k generalizing j with
  | zero => rfl
  | succ k ih =>
    rw [State.extendFrom, State.extendFrom, ih (by omega), h j (by omega), h (j - off) (by omega)]

theorem agreeBelow_congr {a b k : Nat} (ha : a ≤ n) (hb : b ≤ n) (hn : 1 ≤ n) :
    s.agreeBelow a b k = c.agreeBelow a b k := by
  induction k generalizing a b with
  | zero => rfl
  | succ k ih =>
    rw [State.agreeBelow, State.agreeBelow, ih (by omega) (by omega), h (a - 1) (by omega), h (b - 1) (by omega)]

end

/-- Bytes stored inside OUT leave the table alone (R51, R58). -/
theorem slot_withOutBytes {cfg : Config} {s t : State} {i : Nat} {bs : List Byte} (hreg : s.encodeRegionsOk cfg = true)
    (hd : t.desc = s.desc) (hm : t.mem = s.withOutBytes i bs) (hfit : i + bs.length ≤ s.desc.outCap.toNat)
    (k : SlotIx) : t.slot k = s.slot k :=
  slot_congr hd (fun _ ha => hm ▸ read_withOutBytes_outside hreg hfit (.inr ha)) k

/-! ### Two engines in step -/

/-- The registers whose values a state of the encoder, or a later one, still reads (R26). -/
def Enc.live (e : Enc) : EncState → List Nat
  | .search | .tail | .done => [e.inLen, e.limit, e.o, e.nr0, e.p]
  | .probe => [e.inLen, e.limit, e.o, e.nr0, e.p, e.step]
  | .matching => [e.inLen, e.limit, e.o, e.nr0, e.p, e.q]
  | .emit => [e.inLen, e.limit, e.o, e.nr0, e.p, e.off, e.e, e.litLen, e.repLen]
  | .advance => [e.inLen, e.limit, e.o, e.nr0, e.p, e.e]

/-- The registers every state of the encoder reads come first. -/
theorem Enc.take_live (e : Enc) (st : EncState) : (e.live st).take 5 = [e.inLen, e.limit, e.o, e.nr0, e.p] := by
  cases st <;> rfl

/-- `s` and `c` are the same running ENCODE: they agree on the live registers, IN, the table and the block so far. -/
structure InStep (cfg : Config) (st : EncState) (c s : State) : Prop where
  regions : s.encodeRegionsOk cfg = true
  host : s.host = []
  run : s.run = .encoding st
  inLen : s.desc.inLen = c.desc.inLen
  outCap : s.desc.outCap = c.desc.outCap
  live : s.enc.live st = c.enc.live st
  inByte : ∀ j < c.desc.inLen.toNat, s.inByte j = c.inByte j
  slot : ∀ k, s.slot k = c.slot k
  outByte : ∀ j < c.enc.o, s.outByte j = c.outByte j

/-- `s` has ended ENCODE as `c` has: they agree on `RESULT` and the bytes it counts. -/
structure SameEnd (c s : State) : Prop where
  idle_left : c.run = .idle
  idle : s.run = .idle
  valid : s.resultValid = true
  result : s.result = c.result
  outByte : ∀ j < c.result.toNat, s.outByte j = c.outByte j

theorem sameEnd_giveUpEncode (c s : State) : SameEnd c.giveUpEncode s.giveUpEncode :=
  ⟨rfl, rfl, rfl, rfl, fun _ hj => absurd hj (Nat.not_lt_zero _)⟩

theorem toNat_countWord {n : Nat} (h : n < 2 ^ 31) : (countWord n).toNat = n := by
  rw [countWord, if_pos h, BitVec.toNat_ofNat]
  omega

/-- The length of the whole block is one `RESULT` can count (R24). -/
theorem EncodeRun.o_lt {cfg : Config} {inp : Nat → Byte} {s : State} (h : EncodeRun cfg inp .done s) :
    s.enc.o < 2 ^ 31 := by
  obtain ⟨hlen, -, hmax, -⟩ := encoderBase_ranges h.base
  exact IsBlock.lt_of_outBytes h.block (hlen ▸ hmax)

namespace InStep

variable {cfg : Config} {inp : Nat → Byte} {st st' : EncState} {c s : State}

theorem core (h : InStep cfg st c s) : s.enc.inLen = c.enc.inLen ∧ s.enc.limit = c.enc.limit ∧ s.enc.o = c.enc.o ∧
    s.enc.nr0 = c.enc.nr0 ∧ s.enc.p = c.enc.p := by
  have hlive := congrArg (List.take 5) h.live
  rw [Enc.take_live, Enc.take_live] at hlive
  simpa only [List.cons.injEq, and_true] using hlive

theorem limit_le (h : InStep cfg st c s) (hc : EncodeRun cfg inp st c) : s.enc.limit ≤ s.desc.outCap.toNat := by
  obtain ⟨-, -, -, -, hlcap, -, -⟩ := encoderBase_ranges hc.base
  obtain ⟨-, hlim, -⟩ := h.core
  rwa [h.outCap, hlim]

/-- What a step of both keeps; the registers, the table and the block are each step's own. -/
theorem next (h : InStep cfg st c s) (hc : EncodeRun cfg inp st c)
    (hrun : (encoderStep cfg st s).run = .encoding st')
    (hlive : (encoderStep cfg st s).enc.live st' = (encoderStep cfg st c).enc.live st')
    (hslot : ∀ k, (encoderStep cfg st s).slot k = (encoderStep cfg st c).slot k)
    (hout : ∀ j < (encoderStep cfg st c).enc.o, (encoderStep cfg st s).outByte j = (encoderStep cfg st c).outByte j) :
    InStep cfg st' (encoderStep cfg st c) (encoderStep cfg st s) := by
  have hb : s.run ≠ .idle := by simp [h.run]
  obtain ⟨hdc, -⟩ := (encoderStep_encodeStep cfg st hc.busy).sameHostSide
  obtain ⟨hds, hhost, -⟩ := (encoderStep_encodeStep cfg st hb).sameHostSide
  obtain ⟨-, -, -, -, hlcap, -, -⟩ := encoderBase_ranges hc.base
  refine ⟨?_, hhost.trans h.host, hrun, by rw [hds, hdc, h.inLen], by rw [hds, hdc, h.outCap], hlive, fun j hj => ?_,
    hslot, hout⟩
  · rw [← h.regions]
    simp only [State.encodeRegionsOk, State.decodeRegionsOk, State.inRegion, State.outRegion, State.scratchRegion, hds]
  · rw [hdc] at hj
    rw [inByte_encoderStep h.regions (h.limit_le hc) hb (h.inLen ▸ hj),
      inByte_encoderStep (encoderBase_regions hc.base).1 hlcap hc.busy hj, h.inByte j hj]

/-- Both write the same value to the same slot. -/
theorem slot_of_withSlot (h : InStep cfg st c s) {c' s' : State} {k : SlotIx} {v : Nat} (hdc : c'.desc = c.desc)
    (hds : s'.desc = s.desc) (hmc : c'.mem = c.withSlot k v) (hms : s'.mem = s.withSlot k v) (j : SlotIx) :
    s'.slot j = c'.slot j := by rw [slot_withSlot hds hms, slot_withSlot hdc hmc, h.slot]

/-- Both write STATE only. -/
theorem outByte_of_scratch (h : InStep cfg st c s) (hc : EncodeRun cfg inp st c) {c' s' : State}
    (hdc : c'.desc = c.desc) (hds : s'.desc = s.desc) (hmc : sameOutside c.scratchRegion c c')
    (hms : sameOutside s.scratchRegion s s') {j : Nat} (hj : j < c.enc.o) : s'.outByte j = c'.outByte j := by
  obtain ⟨-, -, -, holim, hlcap, -, -⟩ := encoderBase_ranges hc.base
  rw [outByte_of_sameOutside_scratch h.regions hds hms (by rw [h.outCap]; omega),
    outByte_of_sameOutside_scratch (encoderBase_regions hc.base).1 hdc hmc (by omega), h.outByte j hj]

/-- Both store the same bytes in OUT. -/
theorem slot_of_withOutBytes (h : InStep cfg st c s) (hc : EncodeRun cfg inp st c) {c' s' : State} {bs : List Byte}
    (hdc : c'.desc = c.desc) (hds : s'.desc = s.desc) (hmc : c'.mem = c.withOutBytes c.enc.o bs)
    (hms : s'.mem = s.withOutBytes c.enc.o bs) (hlim : c.enc.o + bs.length ≤ c.enc.limit) (k : SlotIx) :
    s'.slot k = c'.slot k := by
  obtain ⟨-, -, -, -, hlcap, -, -⟩ := encoderBase_ranges hc.base
  have hcap : s.desc.outCap.toNat = c.desc.outCap.toNat := by rw [h.outCap]
  rw [slot_withOutBytes h.regions hds hms (by omega),
    slot_withOutBytes (encoderBase_regions hc.base).1 hdc hmc (by omega), h.slot]

/-- Both append the same bytes to the block. -/
theorem outByte_of_withOutBytes (h : InStep cfg st c s) {c' s' : State} {bs : List Byte} (hdc : c'.desc = c.desc)
    (hds : s'.desc = s.desc) (hmc : c'.mem = c.withOutBytes c.enc.o bs) (hms : s'.mem = s.withOutBytes c.enc.o bs)
    {j : Nat} (hj : j < c.enc.o + bs.length) : s'.outByte j = c'.outByte j := by
  rw [outByte_withOutBytes hds hms, outByte_withOutBytes hdc hmc]
  split
  · rfl
  · exact h.outByte j (by omega)

/-- The steps of both go on together or end together. -/
def Goes (cfg : Config) (c s : State) : Prop :=
  (∃ st', c.run = .encoding st' ∧ InStep cfg st' c s) ∨ SameEnd c s

theorem step_search (h : InStep cfg .search c s) (hc : EncodeRun cfg inp .search c) :
    Goes cfg (encoderStep cfg .search c) (encoderStep cfg .search s) := by
  refine .inl ⟨.probe, rfl, h.next hc rfl ?_ h.slot h.outByte⟩
  simpa [Enc.live, encoderStep, encSearch] using h.live

theorem step_probe (hlaw : cfg.Lawful) (h : InStep cfg .probe c s) (hc : EncodeRun cfg inp .probe c) :
    Goes cfg (encoderStep cfg .probe c) (encoderStep cfg .probe s) := by
  have hnext {st'} := h.next (st' := st') hc
  simp only [encoderStep] at hnext ⊢
  have hlive := h.live
  simp only [Enc.live, List.cons.injEq, and_true] at hlive
  obtain ⟨hin, hlim, ho, hnr, hp, hstep⟩ := hlive
  obtain ⟨hlen, -⟩ := encoderBase_ranges hc.base
  have hregc := (encoderBase_regions hc.base).1
  by_cases hend : c.enc.inLen < c.enc.p + Config.nearEnd
  · rw [encProbeState_tail hend, encProbeState_tail (s := s) (by omega)] at hnext ⊢
    exact .inl ⟨.tail, rfl, hnext rfl (by simp [Enc.live, hin, hlim, ho, hnr, hp]) h.slot h.outByte⟩
  · have hend := Nat.le_of_not_lt hend
    have hend' : c.enc.p + 16 ≤ c.desc.inLen.toNat := hlen ▸ hend
    have hhash : s.hashAt cfg s.enc.p = c.hashAt cfg c.enc.p := by
      rw [hp]
      exact hashAt_congr h.inByte hlaw (by omega)
    have hq : (encProbe cfg s).enc.q = (encProbe cfg c).enc.q := by
      change s.slot (s.hashAt cfg s.enc.p) = c.slot (c.hashAt cfg c.enc.p)
      rw [hhash, h.slot]
    have hqlt : (encProbe cfg c).enc.q < c.enc.p := by
      obtain ⟨-, -, -, htab⟩ := hc.at_state
      exact (htab _).trans_le (Nat.min_le_left ..)
    have hwindow : (encProbe cfg s).equal4 (encProbe cfg s).enc.q s.enc.p =
        (encProbe cfg c).equal4 (encProbe cfg c).enc.q c.enc.p := by
      have hlens : s.desc.inLen.toNat = c.desc.inLen.toNat := by rw [h.inLen]
      rw [equal4_encProbe hregc (by omega) (by omega), hq, hp, equal4_encProbe h.regions (by omega) (by omega),
        equal4_eq h.inByte (by omega) (by omega)]
    have hms : (encProbe cfg s).mem = s.withSlot (c.hashAt cfg c.enc.p) c.enc.p := by
      rw [← hhash, ← hp]
      rfl
    have hslot := h.slot_of_withSlot (c' := encProbe cfg c) (s' := encProbe cfg s) rfl rfl rfl hms
    have hout {j} := h.outByte_of_scratch hc (c' := encProbe cfg c) (s' := encProbe cfg s) (j := j) rfl rfl
      (sameOutside_withSlot rfl) (sameOutside_withSlot rfl)
    by_cases h4 : (encProbe cfg c).equal4 (encProbe cfg c).enc.q c.enc.p = true
    · rw [encProbeState_match hend hqlt h4,
        encProbeState_match (s := s) (by omega) (by omega) (hwindow.trans h4)] at hnext ⊢
      refine .inl ⟨.matching, rfl, hnext rfl ?_ hslot fun _ => hout⟩
      simp only [Enc.live, hq]
      simp only [encProbe, hin, hlim, ho, hnr, hp]
    · rw [encProbeState_next hend fun h => h4 h.2,
        encProbeState_next (s := s) (by omega) fun h => h4 (hwindow ▸ h.2)] at hnext ⊢
      refine .inl ⟨.probe, hc.run, hnext h.run ?_ hslot fun _ => hout⟩
      simp only [Enc.live, encProbe, hin, hlim, ho, hnr, hp, hstep]

theorem step_matching (h : InStep cfg .matching c s) (hc : EncodeRun cfg inp .matching c) :
    Goes cfg (encoderStep cfg .matching c) (encoderStep cfg .matching s) := by
  have hlive := h.live
  simp only [Enc.live, List.cons.injEq, and_true] at hlive
  obtain ⟨hin, hlim, ho, hnr, hp, hq⟩ := hlive
  obtain ⟨-, hend, -, hqlt, -, -⟩ := hc.at_state
  obtain ⟨hlen, hpos, -⟩ := encoderBase_ranges hc.base
  simp only [Config.nearEnd] at hend
  have hback : s.extendBackward c.enc.nr0 c.enc.p c.enc.q = c.extendBackward c.enc.nr0 c.enc.p c.enc.q :=
    agreeBelow_congr h.inByte (by omega) (by omega) (by omega)
  have hforw : s.extendForward (c.enc.p - c.enc.q) (c.enc.p + Config.window) c.enc.inLen =
      c.extendForward (c.enc.p - c.enc.q) (c.enc.p + Config.window) c.enc.inLen :=
    extendFrom_congr h.inByte (by simp only [Config.window]; omega)
  refine .inl ⟨.emit, rfl, h.next hc rfl ?_ h.slot h.outByte⟩
  simp only [Enc.live, encoderStep, encMatch, hin, hlim, ho, hnr, hp, hq, hback, hforw]

theorem step_emit (h : InStep cfg .emit c s) (hc : EncodeRun cfg inp .emit c) :
    Goes cfg (encoderStep cfg .emit c) (encoderStep cfg .emit s) := by
  have hnext {st'} := h.next (st' := st') hc
  simp only [encoderStep] at hnext ⊢
  have hlive := h.live
  simp only [Enc.live, List.cons.injEq, and_true] at hlive
  obtain ⟨hin, hlim, ho, hnr, hp, hoff, he, hlit, hrep⟩ := hlive
  obtain ⟨hend, -, -, -, hnrs, hsp, -, -, hlits, -, -, -⟩ := hc.at_state
  obtain ⟨hlen, -⟩ := encoderBase_ranges hc.base
  by_cases hfits : c.enc.o + tokenCost c.enc.litLen (c.enc.repLen - Config.repeatMin) ≤ c.enc.limit
  · have htoken : encodeToken (matchToken s.enc) (s.inBytes s.enc.nr0 s.enc.litLen) =
        encodeToken (matchToken c.enc) (c.inBytes c.enc.nr0 c.enc.litLen) := by
      simp only [matchToken, State.inBytes, hoff, hlit, hrep, hnr]
      rw [readBytes_inAddr_congr h.inByte (by omega)]
    have hms : s.emitDone.mem = s.withOutBytes c.enc.o
        (encodeToken (matchToken c.enc) (c.inBytes c.enc.nr0 c.enc.litLen)) := by
      rw [← htoken, ← ho]
      rfl
    have hlength := length_emitToken c
    rw [encEmit_eq_emitDone hfits, encEmit_eq_emitDone (s := s) (by rw [ho, hlit, hrep, hlim]; exact hfits)] at hnext ⊢
    refine .inl ⟨.advance, rfl, hnext rfl ?_ (h.slot_of_withOutBytes hc rfl rfl rfl hms (by omega)) fun j hj => ?_⟩
    · simp only [Enc.live, State.emitDone, hin, hlim, ho, hnr, hp, he, hlit, hrep]
    · exact h.outByte_of_withOutBytes (c' := c.emitDone) (s' := s.emitDone) rfl rfl rfl hms
        (hj.trans_eq (congrArg (c.enc.o + ·) hlength.symm))
  · rw [encEmit_givesUp (Nat.lt_of_not_le hfits),
      encEmit_givesUp (s := s) (by rw [ho, hlit, hrep, hlim]; exact Nat.lt_of_not_le hfits)]
    exact .inr (sameEnd_giveUpEncode c s)

theorem step_advance (hlaw : cfg.Lawful) (h : InStep cfg .advance c s) (hc : EncodeRun cfg inp .advance c) :
    Goes cfg (encoderStep cfg .advance c) (encoderStep cfg .advance s) := by
  have hlive := h.live
  simp only [Enc.live, List.cons.injEq, and_true] at hlive
  obtain ⟨hin, hlim, ho, hnr, hp, he⟩ := hlive
  obtain ⟨hlen, -⟩ := encoderBase_ranges hc.base
  have hslot : ∀ k, (encAdvance cfg s).slot k = (encAdvance cfg c).slot k := by
    by_cases hins : c.enc.e + Config.nearEnd ≤ c.enc.inLen
    · have hins' : c.enc.e + 16 ≤ c.enc.inLen := hins
      have hhash : s.hashAt cfg (s.enc.e - 1) = c.hashAt cfg (c.enc.e - 1) := by
        rw [he]
        exact hashAt_congr h.inByte hlaw (by omega)
      refine h.slot_of_withSlot rfl rfl (if_pos hins) ?_
      rw [← hhash, ← he]
      exact if_pos (by omega)
    · intro k
      have hmc : (encAdvance cfg c).mem = c.mem := if_neg hins
      have hms : (encAdvance cfg s).mem = s.mem := if_neg (by omega)
      rw [slot_congr (s := c) (t := encAdvance cfg c) rfl fun a _ => by rw [hmc],
        slot_congr (s := s) (t := encAdvance cfg s) rfl fun a _ => by rw [hms], h.slot]
  refine .inl ⟨.search, rfl, h.next hc rfl ?_ hslot fun j => ?_⟩
  · simp only [Enc.live, encoderStep, encAdvance, hin, hlim, ho, he]
  · exact h.outByte_of_scratch hc (c' := encAdvance cfg c) (s' := encAdvance cfg s) rfl rfl
      (sameOutside_encAdvance cfg c) (sameOutside_encAdvance cfg s)

theorem step_tail (h : InStep cfg .tail c s) (hc : EncodeRun cfg inp .tail c) :
    Goes cfg (encoderStep cfg .tail c) (encoderStep cfg .tail s) := by
  have hnext {st'} := h.next (st' := st') hc
  simp only [encoderStep] at hnext ⊢
  obtain ⟨hin, hlim, ho, hnr, hp⟩ := h.core
  obtain ⟨hlen, -, -, -, -, hnrin, -⟩ := encoderBase_ranges hc.base
  by_cases hfits : c.enc.o + tokenCost (c.enc.inLen - c.enc.nr0) 0 ≤ c.enc.limit
  · have hms : s.tailDone.mem = s.withOutBytes c.enc.o (encodeToken (.eob (c.enc.inLen - c.enc.nr0) Config.repeatMin)
        (c.inBytes c.enc.nr0 (c.enc.inLen - c.enc.nr0))) := by
      simp only [State.tailDone, State.inBytes, hin, ho, hnr]
      rw [readBytes_inAddr_congr h.inByte (by omega)]
    have hlength := length_tailToken c
    rw [encTail_eq_tailDone hfits, encTail_eq_tailDone (s := s) (by rw [ho, hin, hnr, hlim]; exact hfits)] at hnext ⊢
    refine .inl ⟨.done, rfl, hnext rfl ?_ (h.slot_of_withOutBytes hc rfl rfl rfl hms (by omega)) fun j hj => ?_⟩
    · simp only [Enc.live, State.tailDone, hin, hlim, ho, hnr, hp]
    · exact h.outByte_of_withOutBytes (c' := c.tailDone) (s' := s.tailDone) rfl rfl rfl hms
        (hj.trans_eq (congrArg (c.enc.o + ·) hlength.symm))
  · rw [encTail_givesUp (Nat.lt_of_not_le hfits),
      encTail_givesUp (s := s) (by rw [ho, hin, hnr, hlim]; exact Nat.lt_of_not_le hfits)]
    exact .inr (sameEnd_giveUpEncode c s)

theorem step_done (h : InStep cfg .done c s) (hc : EncodeRun cfg inp .done c) :
    Goes cfg (encoderStep cfg .done c) (encoderStep cfg .done s) := by
  obtain ⟨-, -, ho, -⟩ := h.core
  simp only [encoderStep]
  by_cases h8 : c.enc.o = Config.patternBytes
  · rw [encDone_givesUp h8, encDone_givesUp (s := s) (ho.trans h8)]
    exact .inr (sameEnd_giveUpEncode c s)
  · rw [encDone_returns h8, encDone_returns (s := s) (ho ▸ h8), ho]
    obtain ⟨-, -, -, holim, hlcap, -, -⟩ := encoderBase_ranges hc.base
    refine .inr ⟨rfl, rfl, rfl, rfl, fun j hj => ?_⟩
    rw [State.finishEncode_result, toNat_countWord hc.o_lt] at hj
    rw [outByte_finishEncode h.regions (by rw [h.outCap]; omega) hj,
      outByte_finishEncode (encoderBase_regions hc.base).1 (by omega) hj, h.outByte j hj]

theorem step (hlaw : cfg.Lawful) (h : InStep cfg st c s) (hc : EncodeRun cfg inp st c) :
    Goes cfg (encoderStep cfg st c) (encoderStep cfg st s) := by
  cases st with
  | search => exact h.step_search hc
  | probe => exact h.step_probe hlaw hc
  | matching => exact h.step_matching hc
  | emit => exact h.step_emit hc
  | advance => exact h.step_advance hlaw hc
  | tail => exact h.step_tail hc
  | done => exact h.step_done hc

end InStep

/-! ### To the end -/

theorem sameHostSide.trans {s t u : State} (h : sameHostSide s t) (h' : sameHostSide t u) : sameHostSide s u := by
  obtain ⟨hdesc, hhost, hrdata, hduty⟩ := h
  obtain ⟨hdesc', hhost', hrdata', hduty'⟩ := h'
  exact ⟨hdesc'.trans hdesc, hhost'.trans hhost, hrdata'.trans hrdata, hduty'.trans hduty⟩

theorem sameOutside2.trans {r r' : Region} {s t u : State} (h : sameOutside2 r r' s t) (h' : sameOutside2 r r' t u) :
    sameOutside2 r r' s u := fun a ha ha' => (h' a ha ha').trans (h a ha ha')

theorem EncodeRun.fuel_pos {cfg : Config} {inp : Nat → Byte} {st : EncState} {s : State}
    (h : EncodeRun cfg inp st s) : 1 ≤ encFuel s.enc st := by
  cases st with
  | advance =>
    obtain ⟨hend, -⟩ := h.at_state
    simp only [Config.nearEnd] at hend
    simp only [encFuel]
    omega
  | search | probe | matching | emit | tail | done =>
    simp only [encFuel]
    omega

/-- `c` and `s` reach the end of ENCODE together in `n` steps, in `uc` and `u`. -/
structure EndTogether (cfg : Config) (inp : Nat → Byte) (n : Nat) (c s uc u : State) : Prop where
  run_left : runWith cfg n c = .next uc
  run : runWith cfg n s = .next u
  ends : EncodeEnd inp uc
  same : SameEnd uc u
  desc_left : uc.desc = c.desc
  side : sameHostSide s u
  frame : sameOutside2 s.outRegion s.scratchRegion s u

theorem EndTogether.cons {cfg : Config} {inp : Nat → Byte} {n : Nat} {c s c' s' uc u : State}
    (h : EndTogether cfg inp n c' s' uc u) (hc : stepWith cfg c = .next c') (hs : stepWith cfg s = .next s')
    (hdc : c'.desc = c.desc) (hside : sameHostSide s s') (hframe : sameOutside2 s.outRegion s.scratchRegion s s') :
    EndTogether cfg inp (n + 1) c s uc u where
  run_left := (runWith_succ cfg n hc).trans h.run_left
  run := (runWith_succ cfg n hs).trans h.run
  ends := h.ends
  same := h.same
  desc_left := h.desc_left.trans hdc
  side := hside.trans h.side
  frame := by
    refine hframe.trans ?_
    have := h.frame
    rwa [State.outRegion, State.scratchRegion, hside.1] at this

/-- By induction on the bound of the steps left. -/
theorem EncodeRun.endTogether {cfg : Config} (hlaw : cfg.Lawful) {inp : Nat → Byte} {st : EncState} {c s : State}
    {k : Nat} (hk : encFuel c.enc st ≤ k) (hc : EncodeRun cfg inp st c) (h : InStep cfg st c s) :
    ∃ n uc u, n ≤ k ∧ EndTogether cfg inp n c s uc u := by
  induction k generalizing st c s with
  | zero => exact absurd hc.fuel_pos (by omega)
  | succ k ih =>
    have hstepc := hc.stepWith_eq
    have hsteps := stepWith_encoding cfg h.host h.run
    obtain ⟨hdc, -⟩ := (encoderStep_encodeStep cfg st hc.busy).sameHostSide
    have hside := (encoderStep_encodeStep cfg st (s := s) (by simp [h.run])).sameHostSide
    have hframe := sameOutside2_encoderStep (h.limit_le hc) cfg st
    rcases hc.step hlaw, h.step hlaw hc with ⟨⟨st', hc', hfuel⟩ | hend, ⟨st'', hr, h'⟩ | hsame⟩
    · obtain rfl : st'' = st' := by
        have := hr.symm.trans hc'.run
        injection this
      obtain ⟨n, uc, u, hn, hboth⟩ := ih (by omega) hc' h'
      exact ⟨n + 1, uc, u, by omega, hboth.cons hstepc hsteps hdc hside hframe⟩
    · exact absurd (hc'.run.symm.trans hsame.idle_left) nofun
    · exact absurd (hr.symm.trans hend.idle) nofun
    · have hhere : EndTogether cfg inp 0 (encoderStep cfg st c) (encoderStep cfg st s) _ _ :=
        ⟨rfl, rfl, hend, hsame, rfl, ⟨rfl, rfl, rfl, rfl⟩, fun _ _ _ => rfl⟩
      exact ⟨1, _, _, by omega, hhere.cons hstepc hsteps hdc hside hframe⟩

/-! ### From the start -/

/-- The operands ENCODE's result is a function of (R179). -/
structure SameInput (c s : State) : Prop where
  inLen : s.desc.inLen = c.desc.inLen
  outCap : s.desc.outCap = c.desc.outCap
  softLimit : s.desc.softLimit = c.desc.softLimit
  inByte : ∀ j < c.desc.inLen.toNat, s.inByte j = c.inByte j

/-- `s` with nothing in memory but its input: a state of canonical memory with the operands of `s`. -/
def State.tidy (s : State) : State :=
  { s with mem := Memory.empty.writeBytes (s.inAddr 0) (s.inBytes 0 s.desc.inLen.toNat) }

theorem sameInput_tidy (s : State) : SameInput s.tidy s where
  inLen := rfl
  outCap := rfl
  softLimit := rfl
  inByte j hj := by
    have hj : j < s.desc.inLen.toNat := hj
    change _ = s.tidy.mem.read (s.inAddr j)
    rw [State.tidy, Memory.read_writeBytes, dif_pos (by simp [State.inAddr, State.inBytes]; omega)]
    simp only [State.inBytes, Memory.getElem_readBytes, State.inByte, State.inAddr, Nat.add_zero,
      Nat.add_sub_cancel_left]

theorem memoryOk_tidy {cfg : Config} {s : State} (hreg : s.encodeRegionsOk cfg = true) : s.tidy.memoryOk cfg := by
  have hin := (regions_of_decodeRegionsOk (decodeRegionsOk_of_encodeRegionsOk hreg)).1
  have hempty : Memory.empty.okUnder (2 ^ cfg.addrBits) s.freeCtr := ⟨Memory.wf_empty, Memory.below_empty _, nofun⟩
  exact hempty.writeBytes (by simpa [State.inAddr, State.inBytes, State.inRegion] using hin)

/-- Valid regions that are not empty begin at addresses (R22, R51). -/
theorem basesOk_of_encodeRegionsOk {cfg : Config} {s : State} (hargs : s.encodeArgsBad = false)
    (hreg : s.encodeRegionsOk cfg = true) : s.basesOk cfg := by
  obtain ⟨hpos, -, hgain⟩ := encodeArgs_ranges hargs
  obtain ⟨hdec, hstate, -⟩ := (encodeRegionsOk_iff cfg s).1 hreg
  obtain ⟨hin, hout, -⟩ := (decodeRegionsOk_iff cfg s).1 hdec
  simp only [Config.scratchBytes] at hstate
  exact ⟨by omega, by omega, by omega⟩

theorem outBytes_encInit (s : State) : (encInit s).outBytes 1 = [0x00#8] := by
  have h := outByte_zero_encInit s
  simp only [State.outByte] at h
  simp only [State.outBytes, Memory.readBytes, h]

theorem encodeRun_encInit {cfg : Config} {inp : Nat → Byte} {c : State} (hm : c.memoryOk cfg) (hh : c.host = [])
    (hargs : c.encodeArgsBad = false) (hreg : c.encodeRegionsOk cfg = true)
    (hin : ∀ j < c.desc.inLen.toNat, c.inByte j = inp j) : EncodeRun cfg inp .search (encInit c) where
  inv := inv_encInit hm (basesOk_of_encodeRegionsOk hargs hreg) hargs hreg
  host := hh
  run := rfl
  input j hj := by
    obtain ⟨-, -, hgain⟩ := encodeArgs_ranges hargs
    exact (inByte_encInit hreg (by omega) hj).trans (hin j hj)
  block := by
    change BlockPrefix _ ((encInit c).outBytes 1) 0
    rw [outBytes_encInit]
    exact .header

theorem inStep_encInit {cfg : Config} {c s : State} (h : SameInput c s) (hh : s.host = [])
    (hargs : c.encodeArgsBad = false) (hregc : c.encodeRegionsOk cfg = true) (hregs : s.encodeRegionsOk cfg = true) :
    InStep cfg .search (encInit c) (encInit s) := by
  obtain ⟨-, -, hgain⟩ := encodeArgs_ranges hargs
  have hcap : s.desc.outCap.toNat = c.desc.outCap.toNat := by rw [h.outCap]
  have hlen : s.desc.inLen.toNat = c.desc.inLen.toNat := by rw [h.inLen]
  refine ⟨hregs, hh, rfl, h.inLen, h.outCap, ?_, fun j hj => ?_, fun k => ?_, fun j hj => ?_⟩
  · simp only [Enc.live, encInit, h.inLen, h.outCap, h.softLimit]
  · have hj : j < c.desc.inLen.toNat := hj
    rw [inByte_encInit hregs (by omega) (by omega), inByte_encInit hregc (by omega) hj, h.inByte j hj]
  · rw [slot_encInit hregs (by omega), slot_encInit hregc (by omega)]
  · obtain rfl : j = 0 := Nat.lt_one_iff.1 hj
    rw [outByte_zero_encInit, outByte_zero_encInit]

theorem SameInput.refl (s : State) : SameInput s s := ⟨rfl, rfl, rfl, fun _ _ => rfl⟩

theorem SameInput.trans {c s t : State} (h : SameInput c s) (h' : SameInput s t) : SameInput c t where
  inLen := h'.inLen.trans h.inLen
  outCap := h'.outCap.trans h.outCap
  softLimit := h'.softLimit.trans h.softLimit
  inByte j hj := (h'.inByte j (h.inLen ▸ hj)).trans (h.inByte j hj)

/-- ENCODE from any memory, and with the regions anywhere, ends as it does from the tidy memory of a state with the same
input. -/
theorem encode_endTogether {cfg : Config} (hlaw : cfg.Lawful) {c s : State} (h : SameInput c s) (hhc : c.host = [])
    (hhs : s.host = []) (hargs : c.encodeArgsBad = false) (hregc : c.encodeRegionsOk cfg = true)
    (hregs : s.encodeRegionsOk cfg = true) :
    ∃ n uc u, n ≤ 2 * s.desc.inLen.toNat + 4 ∧ EndTogether cfg c.inByte n (encInit c.tidy) (encInit s) uc u := by
  have hfuel : encFuel (encInit c.tidy).enc .search ≤ 2 * s.desc.inLen.toNat + 4 := by
    rw [h.inLen]
    simp only [encFuel, encInit, State.tidy]
    omega
  have hrun : EncodeRun cfg c.inByte .search (encInit c.tidy) :=
    encodeRun_encInit (memoryOk_tidy hregc) hhc hargs hregc fun j hj => ((sameInput_tidy c).inByte j hj).symm
  exact hrun.endTogether hlaw hfuel (inStep_encInit ((sameInput_tidy c).trans h) hhs hargs hregc hregs)

/-! ### The obligations -/

theorem sameOutside2_encInit_regions {s : State} (hout : 1 ≤ s.desc.outCap.toNat) :
    sameOutside2 s.outRegion s.scratchRegion s (encInit s) := by
  intro a ho hs
  refine sameOutside2_encInit s a hs ?_
  have := outAddr_outside (i := 0) (n := 1) ho (by omega)
  simp only [State.outPart, Bool.and_eq_false_iff, decide_eq_false_iff_not]
  omega

/-- Settles O51: the run in step with that of the tidy state ends within the bound, as that one does. -/
theorem encodeRunsToItsEnd : Obligations.EncodeRunsToItsEnd := by
  unfold Obligations.EncodeRunsToItsEnd
  intro cfg s hlaw hh hargs hreg
  obtain ⟨hpos, hmax, hgain⟩ := encodeArgs_ranges hargs
  obtain ⟨n, uc, u, hn, hboth⟩ := encode_endTogether hlaw (.refl s) hh hh hargs hreg hreg
  have hside : sameHostSide s (encInit s) := ⟨rfl, rfl, rfl, rfl⟩
  have hdesc : uc.desc = s.desc := hboth.desc_left
  have hframe : sameOutside2 s.outRegion s.scratchRegion s u :=
    (sameOutside2_encInit_regions (by omega)).trans hboth.frame
  refine ⟨encInit s, encodeWith_begins hargs hreg, n, u, hn, hboth.run, hboth.same.idle, hboth.same.valid, ?_,
    hside.trans hboth.side, hframe⟩
  cases hboth.ends with
  | gaveUp _ hres => exact .inl (hboth.same.result.trans hres)
  | @returned m _ hres h5 hlim h8 hblock =>
    rw [hdesc] at hlim hblock
    have hm : m < 2 ^ 31 := hblock.lt_of_outBytes hmax
    have hcap := (effectiveLimit_range (soft := s.desc.softLimit.toNat) hpos
      (show 1 ≤ s.desc.outCap.toNat by omega)).2
    refine .inr ⟨m, h5, hlim, hlim.trans hcap, h8, ?_, ?_⟩
    · rw [hboth.same.result, hres, toInt_countWord hm]
    · rw [hboth.same.outByte 0 (by rw [hres, toNat_countWord hm]; omega), hblock.outByte_zero]

/-- With no host move pending, none comes up. -/
theorem host_nil_of_runWith {cfg : Config} {n : Nat} {s t : State} (hh : s.host = [])
    (h : runWith cfg n s = .next t) : t.host = [] := by
  induction n generalizing s with
  | zero =>
    cases h
    exact hh
  | succ n ih =>
    cases hs : stepWith cfg s with
    | next u =>
      rw [runWith_succ cfg n hs] at h
      refine ih ?_ h
      by_cases hr : s.run = .idle
      · cases (stepWith_idle cfg hh hr).symm.trans hs
        exact hh
      · rw [stepWith_busy cfg hh hr] at hs
        rcases engineStep_encodeStep_or_decodeStep hr hs with he | ⟨hd, -⟩
        · exact he.sameHostSide.2.1.trans hh
        · exact hd.sameHostSide.2.1.trans hh
    | fault f => simp [runWith, hs] at h
    | refused r => simp [runWith, hs] at h

/-- A run has one end. -/
theorem runWith_idle_unique {cfg : Config} {n m : Nat} {s u w : State} (hh : s.host = [])
    (hu : runWith cfg n s = .next u) (hw : runWith cfg m s = .next w) (hru : u.run = .idle) (hrw : w.run = .idle) :
    u = w := by
  rcases Nat.le_total n m with hle | hle
  · obtain ⟨k, rfl⟩ := Nat.exists_eq_add_of_le hle
    rw [runWith_add cfg n k hu, runWith_idle cfg k (host_nil_of_runWith hh hu) hru] at hw
    injection hw
  · obtain ⟨k, rfl⟩ := Nat.exists_eq_add_of_le hle
    rw [runWith_add cfg m k hw, runWith_idle cfg k (host_nil_of_runWith hh hw) hrw] at hu
    injection hu with hu
    exact hu.symm

/-- ENCODE that begins has valid regions. -/
theorem encInit_of_encodeWith {cfg : Config} {s t : State} (hargs : s.encodeArgsBad = false)
    (h : encodeWith cfg s = .next t) : s.encodeRegionsOk cfg = true ∧ t = encInit s := by
  by_cases hreg : s.encodeRegionsOk cfg = true
  · rw [encodeWith_begins hargs hreg] at h
    cases h
    exact ⟨hreg, rfl⟩
  · rw [encodeWith_refuses hargs hreg] at h
    cases h

/-- How a run of ENCODE ends is how the run from the tidy memory of a state with the same input does. -/
theorem encode_end {cfg : Config} (hlaw : cfg.Lawful) {c s t u : State} {n : Nat} (h : SameInput c s)
    (hhc : c.host = []) (hhs : s.host = []) (hargsc : c.encodeArgsBad = false) (hargs : s.encodeArgsBad = false)
    (hregc : c.encodeRegionsOk cfg = true) (ht : encodeWith cfg s = .next t) (hu : runWith cfg n t = .next u)
    (hr : u.run = .idle) : ∃ k uc, EndTogether cfg c.inByte k (encInit c.tidy) (encInit s) uc u := by
  obtain ⟨hregs, rfl⟩ := encInit_of_encodeWith hargs ht
  obtain ⟨k, uc, u', -, hboth⟩ := encode_endTogether hlaw h hhc hhs hargsc hregc hregs
  obtain rfl := runWith_idle_unique (s := encInit s) hhs hboth.run hu hboth.same.idle hr
  exact ⟨k, uc, hboth⟩

/-- Settles O54: both runs end as the run from one tidy memory does. -/
theorem encodeIsAFunctionOfItsInput : Obligations.EncodeIsAFunctionOfItsInput := by
  unfold Obligations.EncodeIsAFunctionOfItsInput
  intro cfg s s' t t' u u' n n' hlaw hh hh' hargs hargs' hlen hcap hsoft hin ht ht' hu hu' hr hr'
  have hreg := (encInit_of_encodeWith hargs ht).1
  have hsame : SameInput s s' := ⟨hlen.symm, hcap.symm, hsoft.symm, fun j hj => (hin j hj).symm⟩
  obtain ⟨k, uc, hboth⟩ := encode_end hlaw (.refl s) hh hh hargs hargs hreg ht hu hr
  obtain ⟨k', uc', hboth'⟩ := encode_end hlaw hsame hh hh' hargs hargs' hreg ht' hu' hr'
  obtain rfl := runWith_idle_unique (s := encInit s.tidy) hh hboth.run_left hboth'.run_left hboth.ends.idle
    hboth'.ends.idle
  refine ⟨hboth.same.result.trans hboth'.same.result.symm, fun _ j hj => ?_⟩
  rw [hboth.same.result] at hj
  rw [hboth.same.outByte j hj, hboth'.same.outByte j hj]

end Sys2Proof.Machine
end

section
/-! PROOF. DECODE of a block gives the input the block stands for (43_decoder), and so DECODE of what ENCODE returned
is the input (R180). -/

namespace Sys2Proof.Machine

/-! ### Tokens whose bounds hold -/

/-- The bytes of the block DECODE has not read yet. -/
def State.remaining (s : State) : List Byte := s.inBytes s.dec.ip (s.dec.inLen - s.dec.ip)

/-- Reading `k` bytes of the block leaves those after them. -/
theorem State.inBytes_drop (s : State) {i k n : Nat} (h : i + k ≤ n) :
    s.inBytes (i + k) (n - (i + k)) = (s.inBytes i (n - i)).drop k := by
  rw [show n - i = k + (n - (i + k)) by omega, State.inBytes_add, List.drop_left' (by simp [State.inBytes])]

/-- The fetch of a token as it is written (R202, R203). -/
theorem State.fetchToken_of_encode {s : State} {i : Instr} {rest : List Byte} (hform : i.form = .token)
    (hwf : WellFormed i = true) (h : s.remaining = encode i ++ rest) :
    ∃ f, s.fetchToken = .ok f ∧ f.instr = i ∧ f.size = (encode i).length := by
  have hdec := decode_token_iff.2 ⟨hform, hwf, h⟩
  rw [decode] at hdec
  split at hdec
  · next f hf =>
    injection hdec with hinstr hrest
    refine ⟨f, hf, hinstr, ?_⟩
    have hlen := decodeFields_length hf
    rw [h, hrest, List.length_append] at hlen
    omega
  · cases hdec

/-- R207: the literals are there when both bounds hold. -/
theorem literalRun_eq_some {s : State} {n : Nat} (hin : s.dec.ip + n ≤ s.dec.inLen)
    (hout : s.dec.op + n ≤ s.dec.outCap) : literalRun n s = some (s.literalDone n) := by
  rw [literalRun, if_neg (by omega), if_neg (by omega)]
  rfl

/-- R212, R213: the back-reference is there when both bounds hold. -/
theorem backReference_eq_some {s : State} {off n : Nat} (hoff : off ≤ s.dec.op) (hout : s.dec.op + n ≤ s.dec.outCap) :
    backReference off n s = some (s.repeatDone off n) := by
  rw [backReference, if_neg (by omega), if_neg (by omega)]
  rfl

/-- R206, R210: both parts of a token, when all its bounds hold. -/
theorem tokenRun_eq_repeatDone (cfg : Config) {s : State} {off litLen repLen : Nat}
    (hin : s.dec.ip + litLen ≤ s.dec.inLen) (hoff : off ≤ s.dec.op + litLen)
    (hout : s.dec.op + litLen + repLen ≤ s.dec.outCap) :
    tokenRun cfg off litLen repLen s = (s.literalDone litLen).repeatDone off repLen := by
  rw [tokenRun, literalRun_eq_some hin (by omega)]
  dsimp only
  rw [backReference_eq_some hoff hout]

/-- R209: an EOB that ends the block returns the output. -/
theorem eobWith_returns (cfg : Config) {s : State} {litLen : Nat} (hin : s.dec.ip + litLen = s.dec.inLen)
    (hout : s.dec.op + litLen ≤ s.dec.outCap) : eobWith cfg litLen Config.repeatMin s =
      .next ((s.literalDone litLen).finishDecode (s.dec.op + litLen)) := by
  rw [eobWith, literalRun_eq_some (by omega) hout]
  exact if_pos ⟨rfl, hin⟩

/-- A token with an offset runs both parts, whichever kind it is (R211). -/
theorem execWith_tokenOf (cfg : Config) {off : Nat} (h : 1 ≤ off) (litLen repLen : Nat) (s : State) :
    execWith cfg (tokenOf off litLen repLen) s = .next (tokenRun cfg off litLen repLen s) := by
  rw [tokenOf, if_neg (Nat.ne_of_gt h)]
  split
  · next hlit =>
    rw [hlit]
    rfl
  · rfl

/-- Where OUT alone changes, the bytes of the block stay. -/
theorem inBytes_of_sameOutside_out {cfg : Config} {s t : State} (hreg : s.decodeRegionsOk cfg = true)
    (hd : t.desc = s.desc) (h : sameOutside s.outRegion s t) {i n : Nat} (hn : i + n ≤ s.desc.inLen.toNat) :
    t.inBytes i n = s.inBytes i n :=
  readBytes_inAddr_congr (fun _ => inByte_congr hd fun a ha => h a ((regions_of_decodeRegionsOk hreg).2.2 a ha)) hn

/-! ### The bytes of a token (R121, R122, R207, R213) -/

section
variable {cfg : Config} {s : State} {litLen : Nat} (hd : s.decoderOk cfg) (hin : s.dec.ip + litLen ≤ s.dec.inLen)
  (hout : s.dec.op + litLen ≤ s.dec.outCap)
include hd hin hout

theorem outByte_literalDone (j : Nat) : (s.literalDone litLen).outByte j =
    if s.dec.op ≤ j ∧ j < s.dec.op + litLen then s.inByte (s.dec.ip + (j - s.dec.op)) else s.outByte j := by
  obtain ⟨hcap, hreg⟩ := decoderOk_regions hd
  obtain ⟨hlen, -⟩ := hd
  obtain ⟨-, -, hapart⟩ := (decodeRegionsOk_iff cfg s).1 hreg
  change (s.copyLiteral s.dec.ip s.dec.op litLen).read (s.outAddr j) = _
  split
  · next hj =>
    have h := read_copyLiteral s (src := s.dec.ip) (dst := s.dec.op) (n := litLen) (i := j - s.dec.op) (by omega)
      (by simp only [State.inAddr, State.outAddr]; omega)
    rwa [show s.outAddr s.dec.op + (j - s.dec.op) = s.outAddr j by simp only [State.outAddr]; omega,
      show s.inAddr s.dec.ip + (j - s.dec.op) = s.inAddr (s.dec.ip + (j - s.dec.op)) by
        simp only [State.inAddr]; omega] at h
  · next hj => exact read_copyLiteral_outside s (by simp only [State.outAddr]; omega)

end

/-- The bytes before the copy stay. -/
theorem outByte_repeatDone_below (s : State) {off repLen j : Nat} (hj : j < s.dec.op) :
    (s.repeatDone off repLen).outByte j = s.outByte j := by
  change (s.copyRepeat s.dec.op off repLen).read (s.outAddr j) = _
  exact read_copyRepeat_outside s (by simp only [State.outAddr]; omega)

/-- R122: a copied byte is the byte `off` before it. -/
theorem outByte_repeatDone (s : State) {off repLen j : Nat} (hoff : 1 ≤ off) (hoff' : off ≤ s.dec.op)
    (hlo : s.dec.op ≤ j) (hhi : j < s.dec.op + repLen) :
    (s.repeatDone off repLen).outByte j = (s.repeatDone off repLen).outByte (j - off) := by
  have h := read_copyRepeat s (dst := s.dec.op) (n := repLen) (i := j - s.dec.op) (by omega) hoff hoff'
  rwa [Nat.add_sub_cancel' hlo] at h

/-- So the copy extends an output that repeats at `off`. -/
theorem outByte_repeatDone_eq {s : State} {inp : Nat → Byte} {off repLen : Nat} (hoff : 1 ≤ off)
    (hoff' : off ≤ s.dec.op) (hbelow : ∀ j < s.dec.op, s.outByte j = inp j)
    (hrep : ∀ j, s.dec.op ≤ j → j < s.dec.op + repLen → inp j = inp (j - off)) {j : Nat}
    (hj : j < s.dec.op + repLen) : (s.repeatDone off repLen).outByte j = inp j := by
  induction j using Nat.strong_induction_on with
  | _ j ih =>
    by_cases hlo : j < s.dec.op
    · rw [outByte_repeatDone_below s hlo, hbelow j hlo]
    · have hlo := Nat.le_of_not_lt hlo
      rw [outByte_repeatDone s hoff hoff' hlo hj, ih (j - off) (by omega) (by omega), hrep j hlo hj]

/-! ### DECODE token by token -/

/-- DECODE has produced `inp[0 .. n-1]` and has the bytes `rest` of the block before it. -/
structure Decoding (cfg : Config) (inp : Nat → Byte) (n : Nat) (rest : List Byte) (s : State) : Prop where
  host : s.host = []
  run : s.run = .decoding
  ok : s.decoderOk cfg
  op : s.dec.op = n
  remaining : s.remaining = rest
  outByte : ∀ j < n, s.outByte j = inp j

namespace Decoding

variable {cfg : Config} {inp : Nat → Byte} {n : Nat} {rest : List Byte} {s : State}

theorem stepWith_eq (h : Decoding cfg inp n rest s) : stepWith cfg s = tokenStep cfg s := by
  rw [stepWith_busy cfg h.host (by simp [h.run]), engineStep_decoding cfg h.run]

/-- The fetch of the next token (R203): the step runs it behind its tag and escapes. -/
theorem fetch {i : Instr} {lit : List Byte} (h : Decoding cfg inp n (encodeToken i lit ++ rest) s)
    (hform : i.form = .token) (hwf : WellFormed i = true) :
    ∃ t, stepWith cfg s = execWith cfg i t ∧ t.dec.ip + lit.length + rest.length = t.dec.inLen ∧
      t.desc = s.desc ∧ Decoding cfg inp n (lit ++ rest) t := by
  have hrem : s.remaining = encode i ++ (lit ++ rest) := by rw [h.remaining, encodeToken, List.append_assoc]
  obtain ⟨f, hf, hinstr, hsize⟩ := s.fetchToken_of_encode hform hwf hrem
  have hlen := congrArg List.length hrem
  simp only [State.remaining, State.inBytes, Memory.length_readBytes, List.length_append] at hlen
  obtain ⟨-, -, -, -, -, -, hip, -⟩ := h.ok
  have hfit := fetchToken_size hf hip
  refine ⟨{ s with dec := s.dec.latch f }, ?_, ?_, rfl, h.host, h.run, decoderOk_latch h.ok hf, h.op, ?_, h.outByte⟩
  · rw [h.stepWith_eq, tokenStep, hf, ← hinstr]
  · change s.dec.ip + f.size + lit.length + rest.length = s.dec.inLen
    omega
  · change s.inBytes (s.dec.ip + f.size) (s.dec.inLen - (s.dec.ip + f.size)) = _
    rw [s.inBytes_drop hfit]
    change s.remaining.drop f.size = _
    rw [hrem, hsize, List.drop_left]

/-- The literals of the next token, appended to the output (R207). -/
theorem literalDone {L : Nat} (h : Decoding cfg inp n (bytesOf inp n L ++ rest) s)
    (hin : s.dec.ip + L ≤ s.dec.inLen) (hout : n + L ≤ s.dec.outCap) :
    Decoding cfg inp (n + L) rest (s.literalDone L) := by
  have hop := h.op
  have hout' : s.dec.op + L ≤ s.dec.outCap := by omega
  have hok := decoderOk_literalDone h.ok hin hout'
  obtain ⟨hcap, hreg⟩ := decoderOk_regions h.ok
  obtain ⟨hlen, -⟩ := h.ok
  have hinput {k m} := inBytes_of_sameOutside_out (t := s.literalDone L) (i := k) (n := m) hreg rfl
    (sameOutside_literalDone hcap hout')
  have hlit : ∀ k < L, s.inByte (s.dec.ip + k) = inp (n + k) := fun k hk => by
    have hget := congrArg (fun bs => bs.getD k 0#8) h.remaining
    simp only [State.remaining] at hget
    rw [getD_inBytes s (by omega), List.getD_append _ _ _ _ (by simpa using hk),
      List.getD_eq_getElem _ _ (by simpa using hk), getElem_bytesOf] at hget
    exact hget
  refine ⟨h.host, h.run, hok, by change s.dec.op + L = _; rw [hop], ?_, fun j hj => ?_⟩
  · change (s.literalDone L).inBytes (s.dec.ip + L) (s.dec.inLen - (s.dec.ip + L)) = rest
    rw [hinput (by omega), s.inBytes_drop hin]
    change s.remaining.drop L = rest
    rw [h.remaining, List.drop_left' (length_bytesOf ..)]
  · rw [outByte_literalDone h.ok hin hout', hop]
    split
    · next hnew => rw [hlit (j - n) (by omega), Nat.add_sub_cancel' hnew.1]
    · next hold => exact h.outByte j (by omega)

/-- The back-reference of the next token, appended to the output (R213). -/
theorem repeatDone {off e : Nat} (h : Decoding cfg inp n rest s) (hoff : 1 ≤ off) (hoff' : off ≤ n) (he : n ≤ e)
    (hout : e ≤ s.dec.outCap) (hrep : ∀ j, n ≤ j → j < e → inp j = inp (j - off)) :
    Decoding cfg inp e rest (s.repeatDone off (e - n)) := by
  have hop := h.op
  have hout' : s.dec.op + (e - n) ≤ s.dec.outCap := by omega
  obtain ⟨hcap, hreg⟩ := decoderOk_regions h.ok
  obtain ⟨hlen, -, -, -, -, -, hip, -⟩ := h.ok
  refine ⟨h.host, h.run, decoderOk_repeatDone h.ok hout', by change s.dec.op + (e - n) = e; omega, ?_, fun j hj => ?_⟩
  · rw [← h.remaining]
    exact inBytes_of_sameOutside_out (t := s.repeatDone off (e - n)) hreg rfl (sameOutside_repeatDone hcap hout')
      (by change s.dec.ip + (s.dec.inLen - s.dec.ip) ≤ _; omega)
  · exact outByte_repeatDone_eq hoff (by omega) (by rw [hop]; exact h.outByte)
      (by rw [hop]; exact fun k hlo hhi => hrep k hlo (by omega)) (by omega)

/-- One token of a block with an offset: the step appends what it stands for. -/
theorem token {off a e : Nat} (h : Decoding cfg inp n
      (encodeToken (tokenOf off (a - n) (e - a)) (bytesOf inp n (a - n)) ++ rest) s)
    (ha : n ≤ a) (hoff : 1 ≤ off) (hoffa : off ≤ a) (hmax : off ≤ Config.offMax) (he : a + Config.repeatMin ≤ e)
    (hrep : ∀ j, a ≤ j → j < e → inp j = inp (j - off)) (hout : e ≤ s.desc.outCap.toNat) :
    ∃ t, stepWith cfg s = .next t ∧ t.desc = s.desc ∧ Decoding cfg inp e rest t := by
  obtain ⟨hform, hwf⟩ := wellFormed_token_iff.2 ⟨off, a - n, e - a, hmax, by omega, rfl⟩
  obtain ⟨t, hstep, hip, hdesc, ht⟩ := h.fetch hform hwf
  have hcap := (decoderOk_regions ht.ok).1
  have hop := ht.op
  rw [length_bytesOf] at hip
  rw [hdesc] at hcap
  have hlit := ht.literalDone (by omega) (by omega)
  rw [Nat.add_sub_cancel' ha] at hlit
  have hrun := hlit.repeatDone hoff hoffa (by omega) (show e ≤ t.dec.outCap by omega) hrep
  refine ⟨_, ?_, (show ((t.literalDone (a - n)).repeatDone off (e - a)).desc = s.desc from hdesc), hrun⟩
  rw [hstep, execWith_tokenOf cfg hoff, tokenRun_eq_repeatDone cfg (by omega) (by omega) (by omega)]

/-- The EOB of a block: the step appends the last literals and returns (R209). -/
theorem eob {L : Nat} (h : Decoding cfg inp n (encodeToken (.eob L Config.repeatMin) (bytesOf inp n L)) s)
    (hout : n + L ≤ s.desc.outCap.toNat) :
    ∃ t, stepWith cfg s = .next t ∧ t.run = .idle ∧ t.result = countWord (n + L) ∧
      ∀ j < n + L, t.outByte j = inp j := by
  rw [← List.append_nil (encodeToken ..)] at h
  obtain ⟨t, hstep, hip, hdesc, ht⟩ := h.fetch rfl rfl
  have hcap := (decoderOk_regions ht.ok).1
  have hop := ht.op
  rw [length_bytesOf] at hip
  simp only [List.length_nil, Nat.add_zero] at hip
  rw [hdesc] at hcap
  have hlit := ht.literalDone (by omega) (by omega)
  refine ⟨_, hstep.trans (eobWith_returns cfg hip (by omega)), rfl, by rw [State.finishDecode_result, hop],
    fun j hj => ?_⟩
  rw [← hlit.outByte j hj]
  exact State.outByte_scrambleOut_below (t.literalDone L) (by omega)

end Decoding

/-- DECODE of the beginning of a block, by induction on its tokens. -/
theorem BlockPrefix.decodes {cfg : Config} {inp : Nat → Byte} {bs : List Byte} {n : Nat} (h : BlockPrefix inp bs n)
    {v : State} {rest : List Byte} (hout : n ≤ v.desc.outCap.toNat)
    (hstart : Decoding cfg inp 0 (bs ++ rest).tail v) :
    ∃ k w, runWith cfg k v = .next w ∧ w.desc = v.desc ∧ Decoding cfg inp n rest w := by
  induction h generalizing rest with
  | header => exact ⟨0, v, rfl, rfl, hstart⟩
  | @token bs n off a e hpre ha hoff hoffa hmax he hrep ih =>
    simp only [Config.repeatMin] at he
    rw [List.append_assoc] at hstart
    obtain ⟨k, w, hk, hdesc, hw⟩ := ih (by omega) hstart
    obtain ⟨t, hstep, hdesc', ht⟩ := hw.token ha hoff hoffa hmax he hrep (hdesc ▸ hout)
    exact ⟨k + 1, t, (runWith_add cfg k 1 hk).trans (runWith_succ cfg 0 hstep), hdesc'.trans hdesc, ht⟩

/-! ### DECODE of a whole block -/

theorem decodeWith_begins {cfg : Config} {d : State} (hargs : d.decodeArgsBad = false)
    (hreg : d.decodeRegionsOk cfg = true) : decodeWith cfg d = .next (decInit d) := by
  simp only [decodeWith, hargs, hreg, Bool.false_eq_true, if_false, if_true]

section
variable {cfg : Config} {d : State} (hh : d.host = []) (hargs : d.decodeArgsBad = false)
  (hreg : d.decodeRegionsOk cfg = true) (h8 : d.desc.inLen.toNat ≠ Config.patternBytes)
include hh hargs hreg h8

/-- The normal path begins behind the header byte, with no output (R201). -/
theorem decoding_decInit (inp : Nat → Byte) :
    Decoding cfg inp 0 (d.inBytes 0 d.desc.inLen.toNat).tail (decInit d) := by
  obtain ⟨hmin, hcap⟩ := decodeArgs_ranges hargs
  have hpos : 1 ≤ d.desc.inLen.toNat := le_trans (by decide) hmin
  refine ⟨hh, if_neg h8, ⟨rfl, rfl, hmin, h8, hcap, le_rfl, hpos, Nat.zero_le _, hreg⟩, rfl, ?_,
    fun _ hj => absurd hj (Nat.not_lt_zero _)⟩
  obtain ⟨k, hk⟩ := Nat.exists_eq_add_of_le' hpos
  change d.inBytes 1 (d.desc.inLen.toNat - 1) = _
  rw [hk, State.inBytes_succ]
  rfl

/-- DECODE of a block returns the input it stands for. -/
theorem IsBlock.decodes {inp : Nat → Byte} {inLen : Nat} (h : IsBlock inp inLen (d.inBytes 0 d.desc.inLen.toNat))
    (hcap : inLen ≤ d.desc.outCap.toNat) :
    ∃ k w, runWith cfg k (decInit d) = .next w ∧ w.run = .idle ∧ w.result = countWord inLen ∧
      ∀ j < inLen, w.outByte j = inp j := by
  have hstart := decoding_decInit hh hargs hreg h8 inp
  obtain ⟨bs, n, hpre, hn, hblock⟩ := h
  rw [hblock] at hstart
  obtain ⟨k, w, hk, hdesc, hw⟩ := hpre.decodes (v := decInit d) (hn.trans hcap) hstart
  have hfit : n + (inLen - n) ≤ w.desc.outCap.toNat := by
    rw [hdesc, Nat.add_sub_cancel' hn]
    exact hcap
  obtain ⟨t, hstep, hr, hres, hbytes⟩ := hw.eob hfit
  rw [Nat.add_sub_cancel' hn] at hres hbytes
  exact ⟨k + 1, t, (runWith_add cfg k 1 hk).trans (runWith_succ cfg 0 hstep), hr, hres, hbytes⟩

end

/-! ### The round trip -/

/-- Settles O55: what ENCODE returned is a block for its input, and DECODE of a block returns what it stands for. -/
theorem decodeOfEncodeIsTheInput : Obligations.DecodeOfEncodeIsTheInput := by
  unfold Obligations.DecodeOfEncodeIsTheInput
  intro cfg s t u d n hlaw hh hargs ht hu hr hres hhd hargsd hregd hlen hcap hin
  obtain ⟨-, hmax, -⟩ := encodeArgs_ranges hargs
  obtain ⟨k, uc, hboth⟩ := encode_end hlaw (.refl s) hh hh hargs hargs (encInit_of_encodeWith hargs ht).1 ht hu hr
  have hsame := hboth.same.result
  cases hboth.ends with
  | gaveUp _ h0 =>
    rw [hsame, h0] at hres
    exact absurd hres (by decide)
  | @returned m _ hm _ _ h8 hblock =>
    rw [hboth.desc_left] at hblock
    have hm' : u.result.toNat = m := by rw [hsame, hm, toNat_countWord (hblock.lt_of_outBytes hmax)]
    have hbytes : d.inBytes 0 d.desc.inLen.toNat = uc.outBytes m := by
      rw [hlen, hm']
      refine List.ext_getElem (by simp [State.inBytes]) fun j h1 h2 => ?_
      have hj : j < u.result.toNat := by simpa [hm'] using h2
      rw [State.getElem_outBytes, ← hboth.same.outByte j (hsame ▸ hj), ← hin j hj]
      simp only [State.inBytes, Memory.getElem_readBytes, State.inByte, State.inAddr, Nat.add_zero]
    obtain ⟨k', w, hk', hidle, hcount, hout⟩ := IsBlock.decodes hhd hargsd hregd (by rw [hlen, hm']; exact h8)
      (hbytes.symm ▸ hblock) hcap
    refine ⟨decInit d, decodeWith_begins hargsd hregd, k', w, hk', hidle, ?_, hout⟩
    rw [hcount, toNat_countWord (hmax.trans_lt (by decide))]

end Sys2Proof.Machine
end

section
/-! PROOF. What each token and the pattern block do, by their bounds (R206 to R216), and where DECODE begins (R201,
R251). -/

namespace Sys2Proof.Machine

/-! ### Tokens by their bounds (R207, R212, R213) -/

/-- R207: the literals end inside the input and inside the output. -/
abbrev State.literalsFit (s : State) (n : Nat) : Prop :=
  s.dec.ip + n ≤ s.dec.inLen ∧ s.dec.op + n ≤ s.dec.outCap

/-- R212, R213: the back-reference starts inside the output so far and ends inside the output. -/
abbrev State.repeatFits (s : State) (off n : Nat) : Prop := off ≤ s.dec.op ∧ s.dec.op + n ≤ s.dec.outCap

theorem literalRun_eq (n : Nat) (s : State) :
    literalRun n s = if s.literalsFit n then some (s.literalDone n) else none := by
  split
  · next hfit => exact literalRun_eq_some hfit.1 hfit.2
  · next hfit => exact (literalRun_cases n s).elim (fun h => absurd ⟨h.1, h.2.1⟩ hfit) And.right

theorem backReference_eq (off n : Nat) (s : State) :
    backReference off n s = if s.repeatFits off n then some (s.repeatDone off n) else none := by
  split
  · next hfit => exact backReference_eq_some hfit.1 hfit.2
  · next hfit => exact (backReference_cases off n s).elim (fun h => absurd ⟨h.1, h.2.1⟩ hfit) And.right

/-- R206, R210: FAILED at the literals, or after them at the back-reference, or both parts. -/
theorem tokenRun_eq (cfg : Config) (off litLen repLen : Nat) (s : State) :
    tokenRun cfg off litLen repLen s =
      if s.literalsFit litLen then
        if (s.literalDone litLen).repeatFits off repLen then (s.literalDone litLen).repeatDone off repLen
        else (s.literalDone litLen).failDecode cfg .failed
      else s.failDecode cfg .failed := by
  rw [tokenRun, literalRun_eq]
  by_cases hfit : s.literalsFit litLen
  · rw [if_pos hfit, if_pos hfit]
    dsimp only
    rw [backReference_eq]
    by_cases hrep : (s.literalDone litLen).repeatFits off repLen
    · rw [if_pos hrep, if_pos hrep]
    · rw [if_neg hrep, if_neg hrep]
  · rw [if_neg hfit, if_neg hfit]

/-- R209: FAILED at the literals, or after them by the token's shape, or the output so far. -/
theorem eobWith_eq (cfg : Config) (litLen repLen : Nat) (s : State) :
    eobWith cfg litLen repLen s = .next (
      if s.literalsFit litLen then
        if repLen ≤ Config.repeatMin ∧ s.dec.ip + litLen = s.dec.inLen then
          (s.literalDone litLen).finishDecode (s.dec.op + litLen)
        else (s.literalDone litLen).failDecode cfg .failed
      else s.failDecode cfg .failed) := by
  have hfield : fieldOf (repLen - Config.repeatMin) = 0 ↔ repLen ≤ Config.repeatMin := by
    simp only [fieldOf, Config.nrMax]
    omega
  rw [eobWith, literalRun_eq]
  by_cases hfit : s.literalsFit litLen
  · simp only [if_pos hfit, hfield, apply_ite Host.Outcome.next]
    rfl
  · rw [if_neg hfit, if_neg hfit]

/-- R216: the block tiles the output, or is FAILED by its size. -/
theorem patternWith_eq (cfg : Config) (bytes : List Byte) (s : State) :
    patternWith cfg bytes s = .next (
      if min s.dec.outCap 4096 % 8 = 0 then s.patternDone bytes (min s.dec.outCap 4096)
      else s.failDecode cfg .failed) := by
  rw [apply_ite Host.Outcome.next]
  exact ite_not ..

/-! ### FAILED tokens (R207, R209, R212, R273) -/

/-- What a FAILED token leaves, whatever part of it was copied before: all but OUT and the decoder's registers. -/
theorem exec_failDecode {i : Instr} {s u : State} (hcap : s.dec.outCap = s.desc.outCap.toNat) (hi : i.form ≠ .command)
    (h : execWith engineConfig i s = .next (u.failDecode engineConfig .failed)) :
    ∃ t, exec i s = .next t ∧ t.run = .idle ∧ t.result = Status.failed.code engineConfig ∧ t.resultValid = true ∧
      sameOutside s.outRegion s t ∧ sameHostSide s t ∧ t.enc = s.enc :=
  ⟨_, (exec_eq i s).trans h, rfl, rfl, rfl, sameOutside_execWith hcap hi h, execWith_sameHostSide h,
    (execWith_decodeStep hi h).enc⟩

/-- Settles O22: the literals pass a bound, or the token is out of shape after them. -/
theorem eobOutOfShapeIsFailed : Obligations.EobOutOfShapeIsFailed := by
  unfold Obligations.EobOutOfShapeIsFailed
  intro s litLen repLen hd hrep hbad
  have hcap := (decoderOk_regions hd).1
  have heq := eobWith_eq engineConfig litLen repLen s
  by_cases hfit : s.literalsFit litLen
  · have hshape : ¬ (repLen ≤ Config.repeatMin ∧ s.dec.ip + litLen = s.dec.inLen) := by
      simp only [Config.repeatMin]
      omega
    rw [if_pos hfit, if_neg hshape] at heq
    exact exec_failDecode hcap nofun heq
  · rw [if_neg hfit] at heq
    exact exec_failDecode hcap nofun heq

/-- A TUPLE, and a REPEAT as one without literals, runs both parts (R210, R211). -/
theorem execWith_backReference {i : Instr} {off litLen repLen : Nat}
    (hi : i = .tuple off litLen repLen ∨ (i = .rep off repLen ∧ litLen = 0)) (cfg : Config) (s : State) :
    i.form = .token ∧ execWith cfg i s = .next (tokenRun cfg off litLen repLen s) := by
  rcases hi with rfl | ⟨rfl, rfl⟩
  · exact ⟨rfl, rfl⟩
  · exact ⟨rfl, rfl⟩

/-- Settles O24: the literals pass a bound, or the back-reference does after them. -/
theorem backReferenceOutOfBoundsIsFailed : Obligations.BackReferenceOutOfBoundsIsFailed := by
  unfold Obligations.BackReferenceOutOfBoundsIsFailed
  intro s i off litLen repLen hi hd _ hbad
  have hcap := (decoderOk_regions hd).1
  obtain ⟨hform, heq⟩ := execWith_backReference hi engineConfig s
  have hform : i.form ≠ .command := by simp [hform]
  rw [tokenRun_eq] at heq
  by_cases hfit : s.literalsFit litLen
  · have hrep : ¬ (s.literalDone litLen).repeatFits off repLen := by
      change ¬ (off ≤ s.dec.op + litLen ∧ s.dec.op + litLen + repLen ≤ s.dec.outCap)
      omega
    rw [if_pos hfit, if_neg hrep] at heq
    exact exec_failDecode hcap hform heq
  · rw [if_neg hfit] at heq
    exact exec_failDecode hcap hform heq

/-! ### Tokens whose bounds hold -/

/-- Settles O21: the literals appended, and OUT unspecified beyond them. -/
theorem eobReturnsTheOutput : Obligations.EobReturnsTheOutput := by
  unfold Obligations.EobReturnsTheOutput
  intro s litLen hd hin hout
  have heq := eobWith_returns engineConfig hin hout
  have hcap := (decoderOk_regions hd).1
  have hbyte := outByte_literalDone hd hin.le hout
  have hbelow {j} (hj : j < s.dec.op + litLen) := State.outByte_scrambleOut_below (s.literalDone litLen) hj
  refine ⟨_, heq, rfl, rfl, toInt_countWord, fun j hj => ?_, fun j hj => ?_, fun j hj hj' => ?_, rfl,
    sameOutside_eobWith hcap heq, ⟨rfl, rfl, rfl, rfl⟩, rfl⟩
  · exact (hbelow (by omega)).trans ((hbyte j).trans (if_neg (by omega)))
  · refine (hbelow (by omega)).trans ((hbyte _).trans ?_)
    rw [if_pos (by omega), Nat.add_sub_cancel_left]
  · exact ⟨_, State.outByte_scrambleOut_from (s.literalDone litLen) hj (hcap ▸ hj')⟩

/-- Settles O23: the literals lie below the back-reference, which leaves them alone. -/
theorem backReferenceTokensAppend : Obligations.BackReferenceTokensAppend := by
  unfold Obligations.BackReferenceTokensAppend
  intro s i off litLen repLen hi hd hoff hin hoff' hout
  have heq := (execWith_backReference hi engineConfig s).2
  rw [tokenRun_eq_repeatDone engineConfig hin hoff' hout] at heq
  refine ⟨_, (exec_eq i s).trans heq, rfl, rfl, fun j hj => ?_, fun j hj => ?_, fun a ha => ?_, ⟨rfl, rfl, rfl, rfl⟩,
    rfl, rfl, rfl⟩
  · have hbelow := outByte_repeatDone_below (s.literalDone litLen) (off := off) (repLen := repLen)
      (show s.dec.op + j < s.dec.op + litLen by omega)
    rw [hbelow, outByte_literalDone hd hin (by omega), if_pos (by omega), Nat.add_sub_cancel_left]
  · exact outByte_repeatDone (s.literalDone litLen) hoff hoff' (Nat.le_add_right ..) (Nat.add_lt_add_left hj _)
  · simp only [State.outPart, State.outAddr, Bool.and_eq_false_iff, decide_eq_false_iff_not] at ha
    have hrep := read_copyRepeat_outside (s.literalDone litLen) (dst := s.dec.op + litLen) (off := off) (n := repLen)
      (a := a) (by change a < s.desc.outBase + _ ∨ s.desc.outBase + _ + _ ≤ a; omega)
    exact hrep.trans (read_copyLiteral_outside s (by simp only [State.outAddr]; omega))

/-! ### The pattern block (R216) -/

/-- After FAILED every byte of OUT is a free value (R276, U2). -/
theorem read_failDecode_out {cfg : Config} {s : State} {st : Status} {a : Nat} (h : s.outRegion.covers a = true) :
    (s.failDecode cfg st).mem.read a = Config.freeByte s.freeCtr a := by
  simp only [State.outRegion, Bool.and_eq_true, decide_eq_true_eq] at h
  exact (s.read_scrambleOut 0 a).trans (if_pos h)

/-- Settles O28: the size alone makes the block FAILED. -/
theorem patternOfOddSizeIsFailed : Obligations.PatternOfOddSizeIsFailed := by
  unfold Obligations.PatternOfOddSizeIsFailed
  intro s bytes hodd
  have heq := patternWith_eq engineConfig bytes s
  rw [if_neg hodd] at heq
  exact ⟨_, heq, rfl, rfl, rfl, sameOutside_failDecode engineConfig s _, fun a ha => ⟨_, read_failDecode_out ha⟩,
    ⟨rfl, rfl, rfl, rfl⟩, rfl, rfl⟩

/-! ### Where DECODE begins (R201, R251) -/

/-- The pattern path begins in its invariant. -/
theorem patternOk_decInit {cfg : Config} {s : State} (hargs : s.decodeArgsBad = false)
    (hreg : s.decodeRegionsOk cfg = true) (h8 : s.desc.inLen.toNat = Config.patternBytes) :
    (decInit s).run = .pattern ∧ (decInit s).patternOk cfg :=
  ⟨if_pos h8, rfl, rfl, h8, (decodeArgs_ranges hargs).2, hreg⟩

/-- The normal path begins in its invariant, whatever the bytes. -/
theorem decoderOk_decInit {cfg : Config} {s : State} (hargs : s.decodeArgsBad = false)
    (hreg : s.decodeRegionsOk cfg = true) (h8 : s.desc.inLen.toNat ≠ Config.patternBytes) :
    (decInit s).run = .decoding ∧ (decInit s).decoderOk cfg := by
  obtain ⟨hmin, hcap⟩ := decodeArgs_ranges hargs
  have hpos : 1 ≤ s.desc.inLen.toNat := le_trans (by decide) hmin
  exact ⟨if_neg h8, rfl, rfl, hmin, h8, hcap, le_rfl, hpos, Nat.zero_le _, hreg⟩

/-- Settles O35: the test is on the length alone. -/
theorem decodeDispatchesOnTheLength : Obligations.DecodeDispatchesOnTheLength := by
  unfold Obligations.DecodeDispatchesOnTheLength
  intro s hargs hreg
  refine ⟨decInit s, decodeWith_begins hargs hreg, rfl, patternOk_decInit hargs hreg, fun h8 => ?_, rfl,
    ⟨rfl, rfl, rfl, rfl⟩, rfl, rfl, rfl⟩
  obtain ⟨hrun, hok⟩ := decoderOk_decInit hargs hreg h8
  exact ⟨hrun, rfl, rfl, hok⟩

end Sys2Proof.Machine
end

section
/-! PROOF. The fetch of a token (R202, R203): what it reads of the block and leaves in the working registers; and that a
step runs the instruction that is decoded (R203, R240, R251). -/

namespace Sys2Proof.Machine

/-! ### The bytes of a field's escape (R89, R144) -/

/-- A read field leaves the bytes after its escape. -/
theorem fieldValue_rest {f : Nat} {bs : List Byte} {e : Escape} (hf : f ≤ Config.nrMax)
    (h : fieldValue f bs = some e) : e.rest = bs.drop e.size := by
  have hlen := fieldValue_length h
  have hbs := (fieldValue_some hf h).2
  have hsize := congrArg List.length hbs
  rw [List.length_append] at hsize
  rw [hbs, List.drop_left' (by omega)]

/-- A field below its maximum takes no escape; one at its maximum takes at least a byte, and keeps the last. -/
theorem fieldValue_last {f : Nat} {bs : List Byte} {e : Escape} (h : fieldValue f bs = some e) :
    (f ≠ Config.nrMax ∧ e.size = 0) ∨
      (f = Config.nrMax ∧ 1 ≤ e.size ∧ e.last = bs.getD (e.size - 1) 0#8) := by
  unfold fieldValue at h
  split at h
  · next hmax =>
    obtain ⟨e', he', rfl⟩ := Option.map_eq_some_iff.1 h
    obtain ⟨k, r, -, hbs, hval⟩ := escDecodeFrom_some he'
    have hsize : e'.size = 0 + k + 1 := congrArg Escape.size hval
    have hlast : e'.last = BitVec.ofNat 8 r := congrArg Escape.last hval
    refine .inr ⟨hmax, by simp only [hsize]; omega, ?_⟩
    simp only [hsize, hlast, Nat.zero_add, Nat.add_sub_cancel]
    rw [hbs, List.append_assoc, List.getD_append_right _ _ _ _ (by simp)]
    simp
  · next hne =>
    cases h
    exact .inl ⟨hne, rfl⟩

/-- A field read from `IN[i ..]` leaves IN after its escape, and keeps the byte before that. -/
theorem fieldValue_inBytes {s : State} {f i n : Nat} {e : Escape} (hf : f ≤ Config.nrMax) (hi : i ≤ n)
    (h : fieldValue f (s.inBytes i (n - i)) = some e) :
    i + e.size ≤ n ∧ e.rest = s.inBytes (i + e.size) (n - (i + e.size)) ∧
      ((f ≠ Config.nrMax ∧ e.size = 0) ∨
        (f = Config.nrMax ∧ 1 ≤ e.size ∧ e.last = s.inByte (i + e.size - 1))) := by
  have hlen := fieldValue_length h
  rw [State.inBytes, Memory.length_readBytes] at hlen
  refine ⟨by omega, by rw [fieldValue_rest hf h, State.inBytes_drop s (by omega)], ?_⟩
  refine (fieldValue_last h).imp id fun ⟨hmax, hpos, hlast⟩ => ⟨hmax, hpos, ?_⟩
  rw [hlast, getD_inBytes s (by omega), Nat.add_sub_assoc hpos]

/-! ### The fields of a token (R147, R202) -/

/-- Fewer than 3 bytes are no tag. -/
theorem decodeFields_tagShort {bs : List Byte} (h : bs.length < 3) : decodeFields bs = .reject .tagShort := by
  match bs with
  | [] | [_] | [_, _] => rfl
  | _ :: _ :: _ :: _ =>
    simp only [List.length_cons] at h
    omega

/-- The fields of a tag with its two lengths as they are read from the bytes after it (R142, R147). -/
def fieldsOf (tag : Tag) (lit rp : Escape) : Fields :=
  { tag := tag, off := tagOff tag, rF := tagRF tag, nrF := tagNrF tag, litLen := lit.value,
    repLen := rp.value + Config.repeatMin, size := 3 + lit.size + rp.size, lastEsc := lastEscape lit rp,
    rest := rp.rest }

/-- What is read behind the three bytes of a tag. -/
theorem eq_fieldsOf_of_decodeFields {b0 b1 b2 : Byte} {bs : List Byte} {f : Fields}
    (h : decodeFields (b0 :: b1 :: b2 :: bs) = .ok f) :
    ∃ lit rp, fieldValue (tagNrF (tagOfBytes b0 b1 b2)) bs = some lit ∧
      fieldValue (tagRF (tagOfBytes b0 b1 b2)) lit.rest = some rp ∧ f = fieldsOf (tagOfBytes b0 b1 b2) lit rp := by
  simp only [decodeFields] at h
  split at h
  · cases h
  · next lit hlit =>
    split at h
    · cases h
    · next rp hrp =>
      cases h
      exact ⟨lit, rp, hlit, hrp, rfl⟩

/-- Fields that are read are those of the token that is written as the bytes before what follows. -/
theorem encode_of_decodeFields {bs : List Byte} {f : Fields} (h : decodeFields bs = .ok f) :
    bs = encode f.instr ++ f.rest ∧ f.size = encodedSize f.instr := by
  obtain ⟨-, hnr, -, hbs⟩ := decodeFields_ok h
  rw [← encode_tokenOf, ← Fields.instr_eq_tokenOf hnr] at hbs
  have hlen := decodeFields_length h
  have hsize := congrArg List.length hbs
  rw [List.length_append, length_encode] at hsize
  exact ⟨hbs, by omega⟩

/-- A token takes at least its tag. -/
theorem three_le_encodedSize {i : Instr} (h : i.form = .token) : 3 ≤ encodedSize i := by
  cases i with
  | eob _ _ | rep _ _ | tuple _ _ _ =>
    simp only [encodedSize]
    omega
  | _ => cases h

/-! ### What the fetch reads of the block (R202, R203) -/

/-- A token that is fetched lies inside the block, its tag included, and is the encoding of its instruction. -/
theorem fetchToken_bytes {s : State} {f : Fields} (h : s.fetchToken = .ok f) :
    3 ≤ f.size ∧ s.dec.ip + f.size ≤ s.dec.inLen ∧ f.size = encodedSize f.instr ∧
      s.inBytes s.dec.ip f.size = encode f.instr := by
  obtain ⟨hbs, hsize⟩ := encode_of_decodeFields h
  have h3 := three_le_encodedSize (form_fields_instr f)
  have hlen := decodeFields_length h
  rw [State.inBytes, Memory.length_readBytes] at hlen
  refine ⟨hsize ▸ h3, by omega, hsize, ?_⟩
  rw [show s.dec.inLen - s.dec.ip = f.size + (s.dec.inLen - s.dec.ip - f.size) by omega, State.inBytes_add] at hbs
  exact List.append_inj_left hbs (by rw [State.inBytes, Memory.length_readBytes, length_encode, hsize])

/-- The tag at `ip` (R202). -/
def State.tagAtIp (s : State) : Tag :=
  tagOfBytes (s.inByte s.dec.ip) (s.inByte (s.dec.ip + 1)) (s.inByte (s.dec.ip + 2))

/-- The fields are those of the tag at `ip`, and the lengths have these fields (R86, R87, R203). -/
theorem fetchToken_fields {s : State} {f : Fields} (h : s.fetchToken = .ok f) :
    f.tag = s.tagAtIp ∧ f.off = tagOff f.tag ∧ f.nrF = tagNrF f.tag ∧ f.rF = tagRF f.tag ∧
      f.nrF = fieldOf f.litLen ∧ f.rF = fieldOf (f.repLen - Config.repeatMin) ∧ Config.repeatMin ≤ f.repLen := by
  have h3 := fetchToken_bytes h
  rw [State.fetchToken_of_tag_fits (by omega)] at h
  obtain ⟨lit, rp, hlit, hrp, rfl⟩ := eq_fieldsOf_of_decodeFields h
  obtain ⟨-, hr, hnr⟩ := tag_fields_le s.tagAtIp
  exact ⟨rfl, rfl, rfl, rfl, (fieldValue_some hnr hlit).1.symm, (fieldValue_some hr hrp).1.symm, Nat.le_add_left _ _⟩

/-- The byte kept is the last of the token when a field has an escape (R27, R203). -/
theorem lastEsc_of_fetchToken {s : State} {f : Fields} (h : s.fetchToken = .ok f) :
    (f.nrF < Config.nrMax → f.rF < Config.nrMax → f.lastEsc = none) ∧
      (f.nrF = Config.nrMax ∨ f.rF = Config.nrMax → f.lastEsc = some (s.inByte (s.dec.ip + f.size - 1))) := by
  have h3 := fetchToken_bytes h
  rw [State.fetchToken_of_tag_fits (by omega)] at h
  obtain ⟨lit, rp, hlit, hrp, rfl⟩ := eq_fieldsOf_of_decodeFields h
  obtain ⟨-, hr, hnr⟩ := tag_fields_le s.tagAtIp
  obtain ⟨hfit, hrest, hlitLast⟩ := fieldValue_inBytes hnr (by omega) hlit
  rw [hrest] at hrp
  obtain ⟨-, -, hrpLast⟩ := fieldValue_inBytes hr hfit hrp
  simp only [fieldsOf, lastEscape, ← Nat.add_assoc]
  rcases hrpLast with ⟨hrF, hrp0⟩ | ⟨hrF, hrp1, hrpLast⟩
  · rcases hlitLast with ⟨hnF, hlit0⟩ | ⟨hnF, hlit1, hlitLast⟩
    · rw [if_pos hrp0, if_pos hlit0]
      exact ⟨fun _ _ => rfl, fun hor => absurd hor (not_or.2 ⟨hnF, hrF⟩)⟩
    · rw [if_pos hrp0, if_neg (by omega), hlitLast, hrp0]
      exact ⟨fun hlt => absurd hnF hlt.ne, fun _ => rfl⟩
  · rw [if_neg (by omega), hrpLast]
    exact ⟨fun _ hlt => absurd hrF hlt.ne, fun _ => rfl⟩

/-- Settles O17: the token's bytes are its encoding, and its registers are those of the tag at `ip`. -/
theorem fetchLatchesTheToken : Obligations.FetchLatchesTheToken := by
  unfold Obligations.FetchLatchesTheToken
  intro s f h
  obtain ⟨h3, hfit, hsize, hbytes⟩ := fetchToken_bytes h
  obtain ⟨htag, hoff, hnr, hr, hlit, hrep, hmin⟩ := fetchToken_fields h
  obtain ⟨hnone, hsome⟩ := lastEsc_of_fetchToken h
  simp only [fieldOf, Config.nrMax, Config.repeatMin] at hlit hrep hmin hnone hsome
  simp only [Dec.latch, Fields.instr, ← hoff, ← hnr, ← hr]
  refine ⟨by omega, hfit, hsize, hbytes, htag, trivial, by omega, by omega, by omega, by omega, fun hlt hlt' => ?_,
    fun hor => ?_, fun h0 => if_pos h0, fun hne h0 => ?_, fun hne hne' => ?_⟩
  · rw [hnone hlt hlt', Option.getD_none]
  · rw [hsome hor, Option.getD_some]
  · rw [if_neg hne, if_pos h0]
  · rw [if_neg hne, if_neg hne']

/-- Settles O18: fewer than 3 bytes are rejected as no tag. -/
theorem shortTagIsFailed : Obligations.ShortTagIsFailed := by
  unfold Obligations.ShortTagIsFailed
  intro cfg s q hturn hrun hshort
  have hfetch : s.fetchToken = .reject .tagShort :=
    decodeFields_tagShort (by rw [State.inBytes, Memory.length_readBytes]; omega)
  exact ⟨_, stepWith_of_fetchToken_reject hturn hrun hfetch, rfl, rfl, rfl, rfl, rfl, rfl,
    sameOutside_failDecode cfg { s with host := q } _⟩

/-! ### A step runs the decoded instruction (R177, R203, R240, R251) -/

theorem fetchToken_of_decode {s : State} {i : Instr} {more : List Byte}
    (h : decode .token (s.inBytes s.dec.ip (s.dec.inLen - s.dec.ip)) = .ok i more) :
    ∃ f, s.fetchToken = .ok f ∧ f.instr = i := by
  rw [decode] at h
  split at h
  · next f hf =>
    cases h
    exact ⟨f, hf, rfl⟩
  · cases h

theorem tokenStep_ok (cfg : Config) {s : State} {f : Fields} (h : s.fetchToken = .ok f) :
    tokenStep cfg s = execWith cfg f.instr { s with dec := s.dec.latch f } := by
  simp only [tokenStep, h]

/-- Settles O16: whose turn it is, and then what the engine is in. -/
theorem stepRunsTheDecodedInstruction : Obligations.StepRunsTheDecodedInstruction := by
  unfold Obligations.StepRunsTheDecodedInstruction
  refine ⟨fun s rest i more hturn hdec => ?_, fun s q hturn hrun => ?_, fun s q i more hturn hrun hdec => ?_,
    fun s q st hturn hrun => ?_⟩
  · rw [exec_eq]
    exact (stepWith_of_turn_host hturn).trans (startCommand_ok engineConfig (s := { s with host := rest }) hdec)
  · have hlen : (s.inBytes 0 Config.patternBytes).length = Config.patternBytes := Memory.length_readBytes ..
    refine ⟨s.fetchBlock, decode_block_iff.2 ⟨rfl, decide_eq_true hlen, rfl, rfl⟩, ?_⟩
    rw [exec_eq]
    refine (stepWith_of_turn_engine hturn).trans ?_
    simp only [engineStep, hrun]
    rfl
  · obtain ⟨f, hfetch, rfl⟩ := fetchToken_of_decode hdec
    refine ⟨f, hfetch, rfl, ?_⟩
    rw [exec_eq]
    refine (stepWith_of_turn_engine hturn).trans ?_
    rw [engineStep_decoding engineConfig (s := { s with host := q }) hrun]
    exact tokenStep_ok engineConfig hfetch
  · refine (stepWith_of_turn_engine hturn).trans ?_
    simp only [engineStep, hrun]

end Sys2Proof.Machine
end

section
/-! PROOF. DECODE runs to its end (R214, R217, R219, R252), and what it gives depends on its input alone (R58, R220):
two engines with the same block and capacity run in step, whatever else they hold and wherever their regions lie. -/

namespace Sys2Proof.Machine

/-! ### A running DECODE -/

/-- `s` is between two tokens, or between the parts of one, on the normal path, and no host move is pending. -/
structure DecodeRun (cfg : Config) (s : State) : Prop where
  host : s.host = []
  run : s.run = .decoding
  ok : s.decoderOk cfg

/-- DECODE has ended with FAILED or READ_ERROR, or with the count `n` of bytes (R217, R273, R274). -/
structure DecodeEnd (cfg : Config) (n : Nat) (u : State) : Prop where
  idle : u.run = .idle
  valid : u.resultValid = true
  result : u.result = Status.failed.code cfg ∨ u.result = Status.readError.code cfg ∨
    (u.result = countWord n ∧ 1 ≤ n ∧ n ≤ u.desc.outCap.toNat)

/-- A fetch is rejected as a short tag or for an escape without its end (R202, R204, R205). -/
theorem fetchToken_reject {s : State} {r : Reject} (h : s.fetchToken = .reject r) :
    rejectStatus r = .failed ∨ rejectStatus r = .readError := by
  unfold State.fetchToken decodeFields at h
  split at h
  · dsimp only at h
    split at h
    · cases h
      exact .inr rfl
    · split at h
      · cases h
        exact .inr rfl
      · cases h
  · cases h
    exact .inl rfl

/-- A fetched token is the one of its offset and lengths (R90, R203). -/
theorem instr_eq_tokenOf_of_fetchToken {s : State} {f : Fields} (h : s.fetchToken = .ok f) :
    f.instr = tokenOf f.off f.litLen f.repLen := by
  obtain ⟨-, -, -, -, hlit, -⟩ := fetchToken_fields h
  exact Fields.instr_eq_tokenOf hlit

namespace DecodeRun

variable {cfg : Config} {s : State}

theorem busy (h : DecodeRun cfg s) : s.run ≠ .idle := by simp [h.run]

theorem stepWith_eq (h : DecodeRun cfg s) : stepWith cfg s = tokenStep cfg s := by
  rw [stepWith_busy cfg h.host h.busy, engineStep_decoding cfg h.run]

theorem latch (h : DecodeRun cfg s) {f : Fields} (hf : s.fetchToken = .ok f) :
    DecodeRun cfg { s with dec := s.dec.latch f } := ⟨h.host, h.run, decoderOk_latch h.ok hf⟩

theorem literalDone (h : DecodeRun cfg s) {n : Nat} (hfit : s.literalsFit n) : DecodeRun cfg (s.literalDone n) :=
  ⟨h.host, h.run, decoderOk_literalDone h.ok hfit.1 hfit.2⟩

theorem repeatDone (h : DecodeRun cfg s) {off n : Nat} (hfit : s.repeatFits off n) :
    DecodeRun cfg (s.repeatDone off n) := ⟨h.host, h.run, decoderOk_repeatDone h.ok hfit.2⟩

end DecodeRun

/-! ### To the end -/

theorem decodeEnd_failDecode (cfg : Config) (s : State) {st : Status} (h : st = .failed ∨ st = .readError) (n : Nat) :
    DecodeEnd cfg n (s.failDecode cfg st) := by
  rcases h with rfl | rfl
  · exact ⟨rfl, rfl, .inl rfl⟩
  · exact ⟨rfl, rfl, .inr (.inl rfl)⟩

/-- A block that has given no output yet does not end with an EOB without literals: it would be 4 bytes long (R250). -/
theorem one_le_count {cfg : Config} {s : State} {f : Fields} (h : s.decoderOk cfg)
    (hpos : s.dec.ip = 1 ∨ 1 ≤ s.dec.op) (hf : s.fetchToken = .ok f) (hoff : f.off = 0)
    (hrep : f.repLen ≤ Config.repeatMin) (hend : s.dec.ip + f.size + f.litLen = s.dec.inLen) :
    1 ≤ s.dec.op + f.litLen := by
  obtain ⟨-, -, hmin, -⟩ := h
  obtain ⟨-, -, hsize, -⟩ := fetchToken_bytes hf
  rw [instr_eq_tokenOf_of_fetchToken hf, tokenOf, if_pos hoff] at hsize
  by_contra hnone
  have hlit : f.litLen = 0 := by omega
  simp only [encodedSize, hlit, Nat.sub_eq_zero_of_le hrep, escapeCost_of_lt (show 0 < Config.nrMax by decide)] at hsize
  simp only [Config.inLenMinDec] at hmin
  omega

/-- A step reads one token: DECODE goes on with output behind it and at least 3 bytes fewer before it, or ends. -/
theorem DecodeRun.step {cfg : Config} {s : State} (h : DecodeRun cfg s) (hpos : s.dec.ip = 1 ∨ 1 ≤ s.dec.op) :
    ∃ t, tokenStep cfg s = .next t ∧
      ((DecodeRun cfg t ∧ s.dec.ip + 3 ≤ t.dec.ip ∧ 1 ≤ t.dec.op) ∨ DecodeEnd cfg t.dec.op t) := by
  cases hf : s.fetchToken with
  | reject r => exact ⟨_, tokenStep_reject cfg hf, .inr (decodeEnd_failDecode cfg s (fetchToken_reject hf) _)⟩
  | ok f =>
    have hlatch := h.latch hf
    rw [tokenStep_ok cfg hf, instr_eq_tokenOf_of_fetchToken hf]
    by_cases hoff : f.off = 0
    · rw [tokenOf, if_pos hoff]
      refine ⟨_, eobWith_eq cfg .., .inr ?_⟩
      split
      · next hfit =>
        split
        · next hshape =>
          obtain ⟨hrep, hend⟩ := hshape
          have hone := one_le_count h.ok hpos hf hoff hrep hend
          obtain ⟨-, hcap, -⟩ := hlatch.ok
          exact ⟨rfl, rfl, .inr (.inr ⟨rfl, hone, hfit.2.trans_eq hcap⟩)⟩
        · exact decodeEnd_failDecode cfg _ (.inl rfl) _
      · exact decodeEnd_failDecode cfg _ (.inl rfl) _
    · obtain ⟨-, -, -, -, -, -, hrep⟩ := fetchToken_fields hf
      have h3 := (fetchToken_bytes hf).1
      rw [execWith_tokenOf cfg (Nat.pos_of_ne_zero hoff), tokenRun_eq]
      refine ⟨_, rfl, ?_⟩
      split
      · next hfit =>
        split
        · next hfit' =>
          refine .inl ⟨(hlatch.literalDone hfit).repeatDone hfit', ?_, ?_⟩
          · change s.dec.ip + 3 ≤ s.dec.ip + f.size + f.litLen
            omega
          · change 1 ≤ s.dec.op + f.litLen + f.repLen
            simp only [Config.repeatMin] at hrep
            omega
        · exact .inr (decodeEnd_failDecode cfg _ (.inl rfl) _)
      · exact .inr (decodeEnd_failDecode cfg _ (.inl rfl) _)

/-- By induction on a bound of the steps left. -/
theorem DecodeRun.ends {cfg : Config} {s : State} {k : Nat} (h : DecodeRun cfg s)
    (hpos : s.dec.ip = 1 ∨ 1 ≤ s.dec.op) (hk : s.dec.inLen - s.dec.ip < 3 * k) :
    ∃ n u, n ≤ k ∧ runWith cfg n s = .next u ∧ DecodeEnd cfg u.dec.op u ∧ sameHostSide s u ∧
      sameOutside s.outRegion s u := by
  induction k generalizing s with
  | zero => exact absurd hk (Nat.not_lt_zero _)
  | succ k ih =>
    obtain ⟨t, ht, hstep⟩ := h.step hpos
    have hside := (tokenStep_decodeStep ht).sameHostSide
    have hframe := sameOutside_tokenStep (decoderOk_regions h.ok).1 ht
    have hrun := h.stepWith_eq.trans ht
    rcases hstep with ⟨hgo, hip, hop⟩ | hend
    · have hbound : t.dec.inLen - t.dec.ip < 3 * k := by
        obtain ⟨hlen, -⟩ := h.ok
        obtain ⟨hlen', -, -, -, -, -, hip', -⟩ := hgo.ok
        rw [hside.1] at hlen'
        omega
      obtain ⟨n, u, hn, hu, hend, hside', hframe'⟩ := ih hgo (.inr hop) hbound
      rw [State.outRegion, hside.1] at hframe'
      exact ⟨n + 1, u, Nat.succ_le_succ hn, (runWith_succ cfg n hrun).trans hu, hend, hside.trans hside',
        hframe.trans hframe'⟩
    · exact ⟨1, t, Nat.succ_le_succ (Nat.zero_le k), runWith_succ cfg 0 hrun, hend, hside, hframe⟩

/-- The pattern path is one step (R216). -/
theorem runWith_pattern {cfg : Config} {s : State} (hh : s.host = []) (hr : s.run = .pattern) :
    runWith cfg 1 s = patternWith cfg (s.inBytes 0 Config.patternBytes) s := by
  have hstep : stepWith cfg s = execWith cfg s.fetchBlock s := by
    rw [stepWith_busy cfg hh (by simp [hr]), engineStep]
    simp only [hr]
  exact (runWith_succ cfg 0 (hstep.trans (patternWith_eq ..))).trans (patternWith_eq ..).symm

theorem decodeEnd_pattern {cfg : Config} {s : State} (h : s.patternOk cfg) (hh : s.host = []) (hr : s.run = .pattern) :
    ∃ u, runWith cfg 1 s = .next u ∧ DecodeEnd cfg (min s.desc.outCap.toNat 4096) u ∧ sameHostSide s u ∧
      sameOutside s.outRegion s u := by
  obtain ⟨-, hcap, -, hpos, -⟩ := h
  have heq := patternWith_eq cfg (s.inBytes 0 Config.patternBytes) s
  refine ⟨_, (runWith_pattern hh hr).trans heq, ?_, execWith_sameHostSide (i := s.fetchBlock) heq,
    sameOutside_patternWith hcap heq⟩
  rw [hcap] at hpos ⊢
  split
  · exact ⟨rfl, rfl, .inr (.inr ⟨rfl, by omega, Nat.min_le_left _ _⟩)⟩
  · exact decodeEnd_failDecode cfg s (.inl rfl) _

/-- How many bytes of output DECODE of `s` has given where it ends in `u`: all of the pattern path's, `op` on the normal
path (R216, R217). -/
def decodeCount (s u : State) : Nat := if s.desc.inLen.toNat = 8 then min s.desc.outCap.toNat 4096 else u.dec.op

/-- DECODE ends, whatever the bytes (R217, R219). -/
theorem decode_ends {cfg : Config} {s : State} (hh : s.host = []) (hargs : s.decodeArgsBad = false)
    (hreg : s.decodeRegionsOk cfg = true) :
    ∃ n u, n ≤ (s.desc.inLen.toNat - 1) / 3 + 1 ∧ runWith cfg n (decInit s) = .next u ∧
      DecodeEnd cfg (decodeCount s u) u ∧ sameHostSide s u ∧ sameOutside s.outRegion s u := by
  unfold decodeCount
  by_cases h8 : s.desc.inLen.toNat = 8
  · obtain ⟨hrun, hok⟩ := patternOk_decInit hargs hreg h8
    obtain ⟨u, hu, hend, hside, hframe⟩ := decodeEnd_pattern hok hh hrun
    exact ⟨1, u, Nat.le_add_left _ _, hu, by rw [if_pos h8]; exact hend, hside, hframe⟩
  · obtain ⟨hrun, hok⟩ := decoderOk_decInit hargs hreg h8
    have hstart : DecodeRun cfg (decInit s) := ⟨hh, hrun, hok⟩
    obtain ⟨n, u, hn, hu, hend, hside, hframe⟩ := hstart.ends (k := (s.desc.inLen.toNat - 1) / 3 + 1) (.inl rfl)
      (by change s.desc.inLen.toNat - 1 < _; omega)
    exact ⟨n, u, hn, hu, by rw [if_neg h8]; exact hend, hside, hframe⟩

/-- Settles O52: each token takes at least 3 bytes of the block, and the count that ends it is in its range. -/
theorem decodeRunsToItsEnd : Obligations.DecodeRunsToItsEnd := by
  unfold Obligations.DecodeRunsToItsEnd
  intro cfg s hh hargs hreg
  obtain ⟨n, u, hn, hu, hend, hside, hframe⟩ := decode_ends hh hargs hreg
  refine ⟨decInit s, decodeWith_begins hargs hreg, n, u, hn, hu, hend.idle, hend.valid, ?_, hside, hframe⟩
  refine hend.result.imp id (Or.imp id fun ⟨hres, hpos, hcap⟩ => ⟨decodeCount s u, rfl, hpos, ?_, hres, fun hlt => ?_⟩)
  · rwa [hside.1] at hcap
  · rw [hres, toInt_countWord hlt]

/-! ### Two engines in step -/

/-- `s` has the block and the capacity of `c`: all that DECODE's result is a function of (R220). -/
structure SameBlock (c s : State) : Prop where
  inLen : s.desc.inLen = c.desc.inLen
  outCap : s.desc.outCap = c.desc.outCap
  inByte : ∀ j < c.desc.inLen.toNat, s.inByte j = c.inByte j

/-- `c` and `s` are the same running DECODE: they agree on the block, the cursors and the output so far. -/
structure SameDecoding (cfg : Config) (c s : State) : Prop where
  left : DecodeRun cfg c
  right : DecodeRun cfg s
  block : SameBlock c s
  ip : s.dec.ip = c.dec.ip
  op : s.dec.op = c.dec.op
  outByte : ∀ j < c.dec.op, s.outByte j = c.outByte j

/-- `s` has ended DECODE as `c` has: they agree on `RESULT`, on `op` and, unless they failed, on `n` bytes of OUT. -/
structure SameDecodeEnd (cfg : Config) (n : Nat) (c s : State) : Prop where
  idle_left : c.run = .idle
  idle : s.run = .idle
  result : s.result = c.result
  op : s.dec.op = c.dec.op
  outByte : c.result ≠ Status.failed.code cfg → c.result ≠ Status.readError.code cfg →
    ∀ j < n, s.outByte j = c.outByte j

theorem sameDecodeEnd_failDecode (cfg : Config) {c s : State} {st : Status} (h : st = .failed ∨ st = .readError)
    (hop : s.dec.op = c.dec.op) (n : Nat) : SameDecodeEnd cfg n (c.failDecode cfg st) (s.failDecode cfg st) := by
  rcases h with rfl | rfl
  · exact ⟨rfl, rfl, rfl, hop, fun hne => absurd rfl hne⟩
  · exact ⟨rfl, rfl, rfl, hop, fun _ hne => absurd rfl hne⟩

/-- Where OUT alone changes, a byte of IN stays (R58). -/
theorem inByte_of_sameOutside_out {cfg : Config} {s t : State} (hreg : s.decodeRegionsOk cfg = true)
    (hd : t.desc = s.desc) (h : sameOutside s.outRegion s t) {j : Nat} (hj : j < s.desc.inLen.toNat) :
    t.inByte j = s.inByte j :=
  inByte_congr hd (fun a ha => h a ((regions_of_decodeRegionsOk hreg).2.2 a ha)) hj

namespace SameDecoding

variable {cfg : Config} {c s : State}

/-- Where OUT alone changes, the two blocks stay the same. -/
theorem block_of_sameOutside (h : SameDecoding cfg c s) {c' s' : State} (hdc : c'.desc = c.desc)
    (hds : s'.desc = s.desc) (hc : sameOutside c.outRegion c c') (hs : sameOutside s.outRegion s s') :
    SameBlock c' s' where
  inLen := by rw [hdc, hds, h.block.inLen]
  outCap := by rw [hdc, hds, h.block.outCap]
  inByte j hj := by
    rw [hdc] at hj
    rw [inByte_of_sameOutside_out (decoderOk_regions h.left.ok).2 hdc hc hj,
      inByte_of_sameOutside_out (decoderOk_regions h.right.ok).2 hds hs (h.block.inLen ▸ hj), h.block.inByte j hj]

theorem inLen_eq (h : SameDecoding cfg c s) : s.dec.inLen = c.dec.inLen := by
  obtain ⟨hc, -⟩ := h.left.ok
  obtain ⟨hs, -⟩ := h.right.ok
  rw [hc, hs, h.block.inLen]

theorem outCap_eq (h : SameDecoding cfg c s) : s.dec.outCap = c.dec.outCap := by
  rw [(decoderOk_regions h.left.ok).1, (decoderOk_regions h.right.ok).1, h.block.outCap]

theorem literalsFit_iff (h : SameDecoding cfg c s) (n : Nat) : s.literalsFit n ↔ c.literalsFit n := by
  simp only [State.literalsFit, h.ip, h.op, h.inLen_eq, h.outCap_eq]

theorem repeatFits_iff (h : SameDecoding cfg c s) (off n : Nat) : s.repeatFits off n ↔ c.repeatFits off n := by
  simp only [State.repeatFits, h.op, h.outCap_eq]

/-- They fetch the same token, or reject the same bytes (R202, R203). -/
theorem fetchToken_eq (h : SameDecoding cfg c s) : s.fetchToken = c.fetchToken := by
  obtain ⟨hlen, -, -, -, -, -, hip, -⟩ := h.left.ok
  rw [State.fetchToken, State.fetchToken, h.ip, h.inLen_eq]
  exact congrArg decodeFields (readBytes_inAddr_congr h.block.inByte (by omega))

theorem latch (h : SameDecoding cfg c s) {f : Fields} (hf : c.fetchToken = .ok f) :
    SameDecoding cfg { c with dec := c.dec.latch f } { s with dec := s.dec.latch f } :=
  ⟨h.left.latch hf, h.right.latch (h.fetchToken_eq.trans hf), ⟨h.block.inLen, h.block.outCap, h.block.inByte⟩,
    congrArg (· + f.size) h.ip, h.op, h.outByte⟩

theorem literalDone (h : SameDecoding cfg c s) {n : Nat} (hfit : c.literalsFit n) :
    SameDecoding cfg (c.literalDone n) (s.literalDone n) := by
  have hfit' := (h.literalsFit_iff n).2 hfit
  refine ⟨h.left.literalDone hfit, h.right.literalDone hfit', ?_, congrArg (· + n) h.ip, congrArg (· + n) h.op,
    fun j hj => ?_⟩
  · exact h.block_of_sameOutside rfl rfl (sameOutside_literalDone (decoderOk_regions h.left.ok).1 hfit.2)
      (sameOutside_literalDone (decoderOk_regions h.right.ok).1 hfit'.2)
  · change j < c.dec.op + n at hj
    obtain ⟨hlen, -⟩ := h.left.ok
    rw [outByte_literalDone h.left.ok hfit.1 hfit.2, outByte_literalDone h.right.ok hfit'.1 hfit'.2, h.ip, h.op]
    split
    · exact h.block.inByte _ (by omega)
    · exact h.outByte j (by omega)

theorem repeatDone (h : SameDecoding cfg c s) {off n : Nat} (hoff : 1 ≤ off) (hfit : c.repeatFits off n) :
    SameDecoding cfg (c.repeatDone off n) (s.repeatDone off n) := by
  have hfit' := (h.repeatFits_iff off n).2 hfit
  refine ⟨h.left.repeatDone hfit, h.right.repeatDone hfit', ?_, h.ip, congrArg (· + n) h.op, fun j hj => ?_⟩
  · exact h.block_of_sameOutside rfl rfl (sameOutside_repeatDone (decoderOk_regions h.left.ok).1 hfit.2)
      (sameOutside_repeatDone (decoderOk_regions h.right.ok).1 hfit'.2)
  · refine outByte_repeatDone_eq hoff hfit'.1 (fun k hk => ?_) (fun k hlo hhi => ?_) (by rw [h.op]; exact hj)
    · rw [h.op] at hk
      rw [outByte_repeatDone_below c hk, h.outByte k hk]
    · rw [h.op] at hlo hhi
      exact outByte_repeatDone c hoff hfit.1 hlo hhi

/-- An EOB ends both alike (R209). -/
theorem ends_eobWith (h : SameDecoding cfg c s) (litLen repLen : Nat) :
    ∃ c' s', eobWith cfg litLen repLen c = .next c' ∧ eobWith cfg litLen repLen s = .next s' ∧
      SameDecodeEnd cfg c'.dec.op c' s' := by
  refine ⟨_, _, eobWith_eq .., eobWith_eq .., ?_⟩
  simp only [h.literalsFit_iff, h.ip, h.inLen_eq, h.op]
  split
  · next hfit =>
    have hlit := h.literalDone hfit
    split
    · refine ⟨rfl, rfl, rfl, hlit.op, fun _ _ j hj => ?_⟩
      exact (State.outByte_scrambleOut_below (s.literalDone litLen) hj).trans
        ((hlit.outByte j hj).trans (State.outByte_scrambleOut_below (c.literalDone litLen) hj).symm)
    · exact sameDecodeEnd_failDecode cfg (.inl rfl) hlit.op _
  · exact sameDecodeEnd_failDecode cfg (.inl rfl) h.op _

/-- A token with a back-reference goes on in both, or is FAILED in both (R206, R212). -/
theorem goes_or_ends_tokenRun (h : SameDecoding cfg c s) {off : Nat} (hoff : 1 ≤ off) (litLen repLen : Nat) :
    SameDecoding cfg (tokenRun cfg off litLen repLen c) (tokenRun cfg off litLen repLen s) ∨
      SameDecodeEnd cfg (tokenRun cfg off litLen repLen c).dec.op (tokenRun cfg off litLen repLen c)
        (tokenRun cfg off litLen repLen s) := by
  rw [tokenRun_eq, tokenRun_eq]
  simp only [h.literalsFit_iff]
  split
  · next hfit =>
    have hlit := h.literalDone hfit
    simp only [hlit.repeatFits_iff]
    split
    · next hfit' => exact .inl (hlit.repeatDone hoff hfit')
    · exact .inr (sameDecodeEnd_failDecode cfg (.inl rfl) hlit.op _)
  · exact .inr (sameDecodeEnd_failDecode cfg (.inl rfl) h.op _)

/-- One step of both: they go on alike, or end alike. -/
theorem step (h : SameDecoding cfg c s) :
    ∃ c' s', tokenStep cfg c = .next c' ∧ tokenStep cfg s = .next s' ∧
      (SameDecoding cfg c' s' ∨ SameDecodeEnd cfg c'.dec.op c' s') := by
  cases hf : c.fetchToken with
  | reject r =>
    exact ⟨_, _, tokenStep_reject cfg hf, tokenStep_reject cfg (h.fetchToken_eq.trans hf),
      .inr (sameDecodeEnd_failDecode cfg (fetchToken_reject hf) h.op _)⟩
  | ok f =>
    have hlatch := h.latch hf
    rw [tokenStep_ok cfg hf, tokenStep_ok cfg (h.fetchToken_eq.trans hf), instr_eq_tokenOf_of_fetchToken hf]
    by_cases hoff : f.off = 0
    · rw [tokenOf, if_pos hoff]
      obtain ⟨c', s', hc, hs, hend⟩ := hlatch.ends_eobWith f.litLen f.repLen
      exact ⟨c', s', hc, hs, .inr hend⟩
    · have hpos : 1 ≤ f.off := Nat.pos_of_ne_zero hoff
      rw [execWith_tokenOf cfg hpos, execWith_tokenOf cfg hpos]
      exact ⟨_, _, rfl, rfl, hlatch.goes_or_ends_tokenRun hpos f.litLen f.repLen⟩

/-- Where the one has ended after `n` steps, so has the other, by induction on the steps. -/
theorem runs (h : SameDecoding cfg c s) {n : Nat} {u : State} (hu : runWith cfg n c = .next u) (hr : u.run = .idle) :
    ∃ w, runWith cfg n s = .next w ∧ SameDecodeEnd cfg u.dec.op u w := by
  induction n generalizing c s with
  | zero =>
    cases hu
    exact absurd hr h.left.busy
  | succ n ih =>
    obtain ⟨c', s', hc, hs, hstep⟩ := h.step
    rw [runWith_succ cfg n (h.left.stepWith_eq.trans hc)] at hu
    rw [runWith_succ cfg n (h.right.stepWith_eq.trans hs)]
    rcases hstep with hgo | hend
    · exact ih hgo hu
    · have hhc : c'.host = [] := (tokenStep_decodeStep hc).sameHostSide.2.1.trans h.left.host
      have hhs : s'.host = [] := (tokenStep_decodeStep hs).sameHostSide.2.1.trans h.right.host
      rw [runWith_idle cfg n hhc hend.idle_left] at hu
      cases hu
      exact ⟨s', runWith_idle cfg n hhs hend.idle, hend⟩

end SameDecoding

/-! ### From the start -/

/-- A pattern block of the same 8 bytes ends both alike (R216). -/
theorem sameDecodeEnd_pattern (cfg : Config) {c s : State} (h : ∀ j < 8, s.inByte j = c.inByte j)
    (hcap : s.dec.outCap = c.dec.outCap) (hop : s.dec.op = c.dec.op) :
    ∃ c' s', patternWith cfg (c.inBytes 0 Config.patternBytes) c = .next c' ∧
      patternWith cfg (s.inBytes 0 Config.patternBytes) s = .next s' ∧
      SameDecodeEnd cfg (min c.dec.outCap 4096) c' s' := by
  have hbytes : s.inBytes 0 Config.patternBytes = c.inBytes 0 Config.patternBytes :=
    readBytes_inAddr_congr h (by decide)
  refine ⟨_, _, patternWith_eq .., patternWith_eq .., ?_⟩
  rw [hbytes, hcap]
  split
  · refine ⟨rfl, rfl, rfl, hop, fun _ _ j hj => ?_⟩
    rw [outByte_patternDone s _ hj, outByte_patternDone c _ hj]
  · exact sameDecodeEnd_failDecode cfg (.inl rfl) hop _

/-- DECODE that begins has valid regions. -/
theorem decInit_of_decodeWith {cfg : Config} {s t : State} (hargs : s.decodeArgsBad = false)
    (h : decodeWith cfg s = .next t) : s.decodeRegionsOk cfg = true ∧ t = decInit s := by
  by_cases hreg : s.decodeRegionsOk cfg = true
  · rw [decodeWith_begins hargs hreg] at h
    cases h
    exact ⟨hreg, rfl⟩
  · rw [decodeWith_refuses hargs hreg] at h
    cases h

/-- DECODE of the same block with the same capacity ends alike, on either path. -/
theorem decode_sameEnd {cfg : Config} {c s u : State} {n : Nat} (h : SameBlock c s) (hhc : c.host = [])
    (hhs : s.host = []) (hargsc : c.decodeArgsBad = false) (hargs : s.decodeArgsBad = false)
    (hregc : c.decodeRegionsOk cfg = true) (hreg : s.decodeRegionsOk cfg = true)
    (hu : runWith cfg n (decInit c) = .next u) (hr : u.run = .idle) :
    ∃ k w, runWith cfg k (decInit s) = .next w ∧ SameDecodeEnd cfg (decodeCount c u) u w := by
  have hlen := congrArg BitVec.toNat h.inLen
  unfold decodeCount
  by_cases h8 : c.desc.inLen.toNat = 8
  · have hrunc := (patternOk_decInit (s := c) hargsc hregc h8).1
    have hruns := (patternOk_decInit (s := s) hargs hreg (hlen.trans h8)).1
    obtain ⟨c', s', hc, hs, hend⟩ := sameDecodeEnd_pattern cfg (c := decInit c) (s := decInit s)
      (fun j hj => h.inByte j (h8 ▸ hj)) (congrArg BitVec.toNat h.outCap) rfl
    rw [← runWith_pattern (s := decInit c) hhc hrunc] at hc
    rw [← runWith_pattern (s := decInit s) hhs hruns] at hs
    obtain rfl := runWith_idle_unique (s := decInit c) hhc hu hc hr hend.idle_left
    exact ⟨1, s', hs, by rw [if_pos h8]; exact hend⟩
  · obtain ⟨hrunc, hokc⟩ := decoderOk_decInit hargsc hregc h8
    obtain ⟨hruns, hoks⟩ := decoderOk_decInit (s := s) hargs hreg (hlen.trans_ne h8)
    have hstart : SameDecoding cfg (decInit c) (decInit s) :=
      ⟨⟨hhc, hrunc, hokc⟩, ⟨hhs, hruns, hoks⟩, ⟨h.inLen, h.outCap, h.inByte⟩, rfl, rfl,
        fun _ hj => absurd hj (Nat.not_lt_zero _)⟩
    obtain ⟨w, hw, hend⟩ := hstart.runs hu hr
    exact ⟨n, w, hw, by rw [if_neg h8]; exact hend⟩

/-- A positive `RESULT` of a lawful engine is the count, where the capacity fits `RESULT` (R14, R24). -/
theorem DecodeEnd.toNat_result {cfg : Config} {n : Nat} {u : State} (h : DecodeEnd cfg n u) (hlaw : cfg.Lawful)
    (hcap : u.desc.outCap.toNat < 2 ^ 31) (hpos : 0 < u.result.toInt) :
    u.result ≠ Status.failed.code cfg ∧ u.result ≠ Status.readError.code cfg ∧ u.result.toNat = n := by
  have hfailed : u.result ≠ Status.failed.code cfg := fun heq => by
    rw [heq] at hpos
    exact absurd hlaw.failed_neg (not_lt_of_gt hpos)
  have hread : u.result ≠ Status.readError.code cfg := fun heq => by
    rw [heq] at hpos
    exact absurd hlaw.readError_neg (not_lt_of_gt hpos)
  obtain ⟨hres, -, hn⟩ := (h.result.resolve_left hfailed).resolve_left hread
  exact ⟨hfailed, hread, by rw [hres, toNat_countWord (hn.trans_lt hcap)]⟩

/-- Settles O53: the two runs end alike, and where `RESULT` is positive it is the count of the bytes they agree on. -/
theorem decodeIsAFunctionOfItsInput : Obligations.DecodeIsAFunctionOfItsInput := by
  unfold Obligations.DecodeIsAFunctionOfItsInput
  intro cfg s s' t t' u u' n n' hh hh' hargs hargs' hlen hcap hin ht ht' hu hu' hr hr'
  obtain ⟨hreg, rfl⟩ := decInit_of_decodeWith hargs ht
  obtain ⟨hreg', rfl⟩ := decInit_of_decodeWith hargs' ht'
  have hblock : SameBlock s s' := ⟨hlen.symm, hcap.symm, fun j hj => (hin j hj).symm⟩
  obtain ⟨k, w, hw, hsame⟩ := decode_sameEnd hblock hh hh' hargs hargs' hreg hreg' hu hr
  obtain rfl := runWith_idle_unique (s := decInit s') hh' hu' hw hr' hsame.idle
  obtain ⟨m, v, -, hv, hend, hside, -⟩ := decode_ends hh hargs hreg
  obtain rfl := runWith_idle_unique (s := decInit s) hh hu hv hr hend.idle
  refine ⟨hsame.result.symm, hsame.op.symm, fun hlaw hfits hpos j hj => ?_,
    fun hfailed hread j hj => (hsame.outByte hfailed hread j hj).symm⟩
  obtain ⟨hfailed, hread, hcount⟩ := hend.toNat_result hlaw (by rwa [hside.1]) hpos
  exact (hsame.outByte hfailed hread j (hcount ▸ hj)).symm

end Sys2Proof.Machine
end

section
/-! PROOF. The commands that return at once (44_commands): SCRATCH_MIN (R255), ENCODE and DECODE with bad arguments
(R241, R242, R250), and a start with a reserved code (R256). -/

namespace Sys2Proof.Machine

/-! ### The argument checks -/

/-- The minimum gain with its numerals (R12, R242). -/
theorem gainMin_eq (inLen outCap : Nat) : gainMin inLen outCap = max 64 (min inLen outCap / 64) := rfl

/-- The argument checks of ENCODE with their numerals (R241, R242). -/
theorem encodeArgsBad_iff (s : State) : s.encodeArgsBad = true ↔
    s.desc.stateBase = 0 ∨ s.desc.inBase = 0 ∨ s.desc.outBase = 0 ∨ s.desc.inLen.toNat = 0 ∨
      s.desc.inLen.toNat > 4096 ∨
      s.desc.outCap.toNat ≤ max 64 (min s.desc.inLen.toNat s.desc.outCap.toNat / 64) := by
  simp only [State.encodeArgsBad, Bool.or_eq_true, decide_eq_true_eq, or_assoc]
  rw [gainMin_eq, Config.blockMax]

/-- The argument checks of DECODE with their numerals (R250). -/
theorem decodeArgsBad_iff (s : State) : s.decodeArgsBad = true ↔
    s.desc.inBase = 0 ∨ s.desc.outBase = 0 ∨ s.desc.inLen.toNat = 0 ∨ s.desc.outCap.toNat = 0 ∨
      s.desc.inLen.toNat ≤ 4 := by
  simp only [State.decodeArgsBad, Bool.or_eq_true, decide_eq_true_eq, or_assoc]
  rw [Config.inLenMinDec, Nat.lt_succ_iff]

/-- Bad arguments end ENCODE before its regions are looked at (R241; log 10). -/
theorem encodeWith_rejects (cfg : Config) {s : State} (hargs : s.encodeArgsBad = true) :
    encodeWith cfg s = .next (s.raise cfg .invalidArgument) := if_pos hargs

/-- Bad arguments end DECODE before its regions are looked at (R250; log 10). -/
theorem decodeWith_rejects (cfg : Config) {s : State} (hargs : s.decodeArgsBad = true) :
    decodeWith cfg s = .next (s.raise cfg .invalidArgument) := if_pos hargs

/-! ### Reserved codes (R98, R256) -/

theorem commandOf_eq_none {code : Byte} (h1 : code ≠ 1) (h2 : code ≠ 2) (h3 : code ≠ 3) : commandOf code = none :=
  (if_neg h1).trans ((if_neg h2).trans (if_neg h3))

theorem decode_command_reserved {code : Byte} (h1 : code ≠ 1) (h2 : code ≠ 2) (h3 : code ≠ 3) :
    decode .command [code] = .reject .reservedCommand := by
  simp only [decode, commandOf_eq_none h1 h2 h3]

/-- A start that does not decode checks that `CMD` is written, and raises (R35, R256). -/
theorem startCommand_reject (cfg : Config) {s : State} {r : Reject} (h : decode .command [s.desc.cmd] = .reject r) :
    startCommand cfg s = .next ((s.checkStart [.cmd]).raise cfg .invalidArgument) := by
  simp only [startCommand, h, reservedCommand]

/-! ### The obligations -/

/-- Settles O29: `return` of the scratch size, a count that fits `RESULT`. -/
theorem scratchMinReturnsTheScratchSize : Obligations.ScratchMinReturnsTheScratchSize := by
  unfold Obligations.ScratchMinReturnsTheScratchSize
  intro s
  have hcount : (s.finish Config.scratchBytes).result.toInt = 8192 := toInt_countWord (by decide)
  exact ⟨s.finish Config.scratchBytes, rfl, rfl, hcount, hcount, rfl, rfl, ⟨rfl, rfl, rfl, rfl⟩, rfl, rfl⟩

/-- Settles O30: each disjunct is one of ENCODE's argument checks, and they come first. -/
theorem encodeRejectsBadArguments : Obligations.EncodeRejectsBadArguments := by
  unfold Obligations.EncodeRejectsBadArguments
  intro s hbad
  exact ⟨_, (exec_eq _ s).trans (encodeWith_rejects engineConfig ((encodeArgsBad_iff s).2 hbad)), rfl, rfl, rfl, rfl,
    ⟨rfl, rfl, rfl, rfl⟩, rfl, rfl⟩

/-- Settles O31: each disjunct is one of DECODE's argument checks, and they come first. -/
theorem decodeRejectsBadArguments : Obligations.DecodeRejectsBadArguments := by
  unfold Obligations.DecodeRejectsBadArguments
  intro s hbad
  exact ⟨_, (exec_eq _ s).trans (decodeWith_rejects engineConfig ((decodeArgsBad_iff s).2 hbad)), rfl, rfl, rfl, rfl,
    ⟨rfl, rfl, rfl, rfl⟩, rfl, rfl⟩

/-- Settles O32: a reserved code selects no command, so the start raises. -/
theorem reservedCommandIsInvalidArgument : Obligations.ReservedCommandIsInvalidArgument := by
  unfold Obligations.ReservedCommandIsInvalidArgument
  intro cfg s rest hturn h1 h2 h3
  have hraise := startCommand_reject cfg (s := { s with host := rest }) (decode_command_reserved h1 h2 h3)
  exact ⟨_, (stepWith_of_turn_host hturn).trans hraise, rfl, rfl, rfl, rfl, rfl, rfl, rfl, rfl, rfl⟩

end Sys2Proof.Machine
end

section
/-! PROOF. No failure is sticky (60_exceptions R279): a command that completes overwrites `RESULT`, one that begins
carries the old `RESULT` along, and neither looks at it. -/

namespace Sys2Proof.Machine

/-- The state with another `RESULT` before it (R24, R35). -/
def State.withResult (s : State) (word : Word32) (valid : Bool) : State :=
  { s with result := word, resultValid := valid }

/-- A command's own step from `s` to `t`, taken with any other `RESULT` before it, ends in `t` itself, or goes on and
differs from `t` only in the `RESULT` it carries along (R279). -/
def IgnoresOldResult (command : State → Out) (s t : State) : Prop :=
  ∀ (word : Word32) (valid : Bool), command (s.withResult word valid) = .next t ∨
    t.run ≠ .idle ∧ command (s.withResult word valid) = .next (t.withResult word valid)

/-- DECODE that begins goes on, on either path (R251). -/
theorem decInit_busy (s : State) : (decInit s).run ≠ .idle := by
  simp only [decInit]
  split <;> nofun

section
variable {cfg : Config} {s t : State}

theorem encodeWith_ignoresOldResult (h : encodeWith cfg s = .next t) : IgnoresOldResult (encodeWith cfg) s t := by
  intro word valid
  cases hargs : s.encodeArgsBad with
  | true =>
    rw [encodeWith_rejects cfg hargs] at h
    cases h
    exact .inl (encodeWith_rejects cfg (s := s.withResult word valid) hargs)
  | false =>
    obtain ⟨hreg, rfl⟩ := encInit_of_encodeWith hargs h
    exact .inr ⟨nofun, encodeWith_begins (s := s.withResult word valid) hargs hreg⟩

theorem decodeWith_ignoresOldResult (h : decodeWith cfg s = .next t) : IgnoresOldResult (decodeWith cfg) s t := by
  intro word valid
  cases hargs : s.decodeArgsBad with
  | true =>
    rw [decodeWith_rejects cfg hargs] at h
    cases h
    exact .inl (decodeWith_rejects cfg (s := s.withResult word valid) hargs)
  | false =>
    obtain ⟨hreg, rfl⟩ := decInit_of_decodeWith hargs h
    exact .inr ⟨decInit_busy s, decodeWith_begins (d := s.withResult word valid) hargs hreg⟩

/-- No command looks at the `RESULT` before it, in any configuration. -/
theorem execWith_ignoresOldResult {i : Instr} (hi : i.form = .command) (h : execWith cfg i s = .next t) :
    IgnoresOldResult (execWith cfg i) s t := by
  cases i with
  | encodeCmd => exact encodeWith_ignoresOldResult h
  | decodeCmd => exact decodeWith_ignoresOldResult h
  | scratchMin => exact fun _ _ => .inl h
  | eob _ _ | rep _ _ | tuple _ _ _ | pattern _ => exact absurd hi nofun

end

/-- Settles O36: a command that has completed ends in the same state, and one that goes on differs in the `RESULT` it
carries along. -/
theorem noResultIsSticky : Obligations.NoResultIsSticky := by
  unfold Obligations.NoResultIsSticky
  intro i s t word valid hi h
  rw [exec_eq] at h
  rcases execWith_ignoresOldResult hi h word valid with hdone | ⟨hbusy, hgoes⟩
  · exact ⟨t, (exec_eq _ _).trans hdone, rfl, rfl, rfl, rfl, rfl, fun _ => ⟨rfl, rfl⟩⟩
  · exact ⟨t.withResult word valid, (exec_eq _ _).trans hgoes, rfl, rfl, rfl, rfl, rfl,
      fun hidle => absurd hidle hbusy⟩

end Sys2Proof.Machine
end
